-- ==== Sys2Proof/Word.lean ====
section
/-! DEFINITION. The words, register numbers and digits of the command interface (spec 00_scope R6, R8; 30_encoding R56, R58, R59). -/

namespace Sys2Proof

/-- A command word, and the STATUS register: 32 bits, bit 0 least significant (R8, R27, R57). -/
abbrev Word := BitVec 32

/-- The immediate `imm16` and the field `count` (R59). -/
abbrev Imm16 := BitVec 16

/-- The number of a value register; every one of the sixteen is implemented (R21, R58). -/
abbrev Reg := Fin 16

/-- A digit sequence, most significant digit first, leading zeros allowed (R9, R42). A digit is a natural
number below the radix (R8, R9); the bound is kept as an invariant, because the radix is a parameter of the
instance (log entry 5). -/
abbrev Digits := List Nat

/-- What goes over the command port: a word, and beside it a digit payload (R56). -/
structure Command where
  word : Word
  payload : Digits
  deriving DecidableEq, Repr

end Sys2Proof
end

