-- ==== Sys2Proof/Config.lean ====
section
/-! DEFINITION. The parameters of one instance of the hardware: the digit width and the capacity of a register (spec 00_scope R6). -/

namespace Sys2Proof

/-- The digit widths the hardware can be built with; other widths are refused (R6, D2). -/
inductive DigitWidth where
  | w8
  | w16
  | w32
  deriving DecidableEq, Repr

/-- `W`, the bits of one digit (R6). -/
def DigitWidth.bits : DigitWidth → Nat
  | .w8 => 8
  | .w16 => 16
  | .w32 => 32

/-- `R = 2^W`, the radix (R6). -/
def DigitWidth.radix (w : DigitWidth) : Nat := 2 ^ w.bits

/-- One instance: `W`, and `MAXD`, the most digits a register holds.
`maxd = none` is the unbounded capacity that R6 allows a model (log entry 2). -/
structure Config where
  width : DigitWidth
  maxd : Option Nat
  deriving DecidableEq, Repr

/-- `2 <= MAXD <= 65535`, or unbounded (R6). -/
def Config.valid (c : Config) : Bool :=
  match c.maxd with
  | none => true
  | some m => decide (2 ≤ m ∧ m ≤ 65535)

/-- The instance the spec's vectors use: `W = 8`, `MAXD = 64` (R7, 95_test_vectors; log entry 1). -/
def Config.vectors : Config := { width := .w8, maxd := some 64 }

end Sys2Proof
end

