-- ==== Sys2Proof/Syntax.lean ====
section
/-! DEFINITION. The commands: one constructor for each of the 52 rows of spec/opcode_table.json (30_encoding R60). -/

namespace Sys2Proof

/-- A decoded command. `rd` and `re` are destinations, `ra` and `rb` sources (R58), `imm` is `imm16` (R59).
`ldd` carries its payload; its field `count` is the payload's length (R61 step 4, R147; log entry 6). -/
inductive Instr where
  /-- `NOP`: R150. -/
  | nop
  /-- `LDD vd, [-]{d0, ...}`: R147. -/
  | ldd (rd : Reg) (neg : Bool) (payload : Digits)
  /-- `LDI vd, imm16`: R149. -/
  | ldi (rd : Reg) (imm : Imm16)
  /-- `MOV vd, va`: R151. -/
  | mov (rd ra : Reg)
  /-- `RDV va`: R152. -/
  | rdv (ra : Reg)
  /-- `PADD vd, va, vb`: R84. -/
  | padd (rd ra rb : Reg)
  /-- `PSUB vd, va, vb`: R86. -/
  | psub (rd ra rb : Reg)
  /-- `PMUL vd, va, vb`: R88. -/
  | pmul (rd ra rb : Reg)
  /-- `PMULD vd, va, vb`: R90. -/
  | pmuld (rd ra rb : Reg)
  /-- `PDIVREM vd, ve, va, vb`: R139. -/
  | pdivrem (rd re ra rb : Reg)
  /-- `PINC vd`: R94. -/
  | pinc (rd : Reg)
  /-- `PDEC vd`: R95. -/
  | pdec (rd : Reg)
  /-- `PCMP va, vb`: R93. -/
  | pcmp (ra rb : Reg)
  /-- `PISZ va`: R101. -/
  | pisz (ra : Reg)
  /-- `PISONE va`: R102. -/
  | pisone (ra : Reg)
  /-- `PEVEN va`: R103. -/
  | peven (ra : Reg)
  /-- `PODD va`: R104. -/
  | podd (ra : Reg)
  /-- `PHSB va`: R105. -/
  | phsb (ra : Reg)
  /-- `PLSB va`: R106. -/
  | plsb (ra : Reg)
  /-- `PAND vd, va, vb`: R108. -/
  | pand (rd ra rb : Reg)
  /-- `POR vd, va, vb`: R109. -/
  | por (rd ra rb : Reg)
  /-- `PXOR vd, va, vb`: R110. -/
  | pxor (rd ra rb : Reg)
  /-- `PNOT vd, va`: R111. -/
  | pnot (rd ra : Reg)
  /-- `PSHL1 vd, va`: R113. -/
  | pshl1 (rd ra : Reg)
  /-- `PSHR1 vd, va`: R114. -/
  | pshr1 (rd ra : Reg)
  /-- `PROL1 vd, va`: R115. -/
  | prol1 (rd ra : Reg)
  /-- `PROR1 vd, va`: R116. -/
  | pror1 (rd ra : Reg)
  /-- `PSHL vd, va, imm16`: R118. -/
  | pshl (rd ra : Reg) (imm : Imm16)
  /-- `PSHR vd, va, imm16`: R119. -/
  | pshr (rd ra : Reg) (imm : Imm16)
  /-- `PROL vd, va, imm16`: R120. -/
  | prol (rd ra : Reg) (imm : Imm16)
  /-- `PROR vd, va, imm16`: R121. -/
  | pror (rd ra : Reg) (imm : Imm16)
  /-- `VADD vd, va, vb`: R163. -/
  | vadd (rd ra rb : Reg)
  /-- `VSUB vd, va, vb`: R164. -/
  | vsub (rd ra rb : Reg)
  /-- `VMUL vd, va, vb`: R165. -/
  | vmul (rd ra rb : Reg)
  /-- `VDIV vd, va, vb`: R167. -/
  | vdiv (rd ra rb : Reg)
  /-- `VREM vd, va, vb`: R168. -/
  | vrem (rd ra rb : Reg)
  /-- `VDIVREM vd, ve, va, vb`: R169. -/
  | vdivrem (rd re ra rb : Reg)
  /-- `VINC vd, va`: R170. -/
  | vinc (rd ra : Reg)
  /-- `VDEC vd, va`: R171. -/
  | vdec (rd ra : Reg)
  /-- `VLT va, vb`: R182. -/
  | vlt (ra rb : Reg)
  /-- `VGT va, vb`: R183. -/
  | vgt (ra rb : Reg)
  /-- `VLE va, vb`: R184. -/
  | vle (ra rb : Reg)
  /-- `VGE va, vb`: R185. -/
  | vge (ra rb : Reg)
  /-- `VEQ va, vb`: R186. -/
  | veq (ra rb : Reg)
  /-- `VNE va, vb`: R187. -/
  | vne (ra rb : Reg)
  /-- `VBOOL va`: R188. -/
  | vbool (ra : Reg)
  /-- `VAND vd, va, vb`: R191. -/
  | vand (rd ra rb : Reg)
  /-- `VOR vd, va, vb`: R192. -/
  | vor (rd ra rb : Reg)
  /-- `VXOR vd, va, vb`: R193. -/
  | vxor (rd ra rb : Reg)
  /-- `VNOT vd, va`: R194. -/
  | vnot (rd ra : Reg)
  /-- `VSHL vd, va, imm16`: R195. -/
  | vshl (rd ra : Reg) (imm : Imm16)
  /-- `VSHR vd, va, imm16`: R196. -/
  | vshr (rd ra : Reg) (imm : Imm16)
  deriving DecidableEq, Repr

end Sys2Proof
end

