-- ==== Sys2Proof/WellFormed.lean ====
section
/-! DEFINITION. Which decoded commands a command port of the instance can carry and the decoder accepts (spec 30_encoding R59, R61; 70 R251). -/

namespace Sys2Proof

/-- Every digit is below the radix: it fits the `W` wires of a digit (R9, R148). -/
def digitsFit (w : DigitWidth) (a : Digits) : Bool := a.all fun d => decide (d < w.radix)

/-- The payload's length fits the 16-bit field `count` (R59). -/
def Instr.countFits : Instr → Bool
  | .ldd _ _ payload => decide (payload.length < 2 ^ 16)
  | _ => true

/-- The payload is made of digits of the instance (R56, R148). -/
def Instr.payloadFits (w : DigitWidth) : Instr → Bool
  | .ldd _ _ payload => digitsFit w payload
  | _ => true

/-- Quotient and remainder go to different registers (R61 step 5, R251). -/
def Instr.destsDiffer : Instr → Bool
  | .pdivrem rd re _ _ => decide (rd ≠ re)
  | .vdivrem rd re _ _ => decide (rd ≠ re)
  | _ => true

/-- A command that can be encoded and issued to an instance of width `w`, and is not illegal. -/
def Instr.wf (w : DigitWidth) (i : Instr) : Bool :=
  i.countFits && i.payloadFits w && i.destsDiffer

end Sys2Proof
end

