-- ==== Sys2Proof/Decode.lean ====
section
/-! DEFINITION. Decoding a command, the encoder, and the opcode map (spec 30_encoding R57 to R64, opcode_table.json). -/

namespace Sys2Proof

/-- Why the decoder rejects a command, one name for each step of R61. Every one of them is reported by
the machine as `IllegalCommand` (R61, R223). -/
inductive Reject where
  /-- R61 step 1: the opcode is not one of the 52. -/
  | reservedOpcode
  /-- R61 step 2: a must-be-zero bit of the format is 1. -/
  | mustBeZero
  /-- R61 step 3: a command other than `LDD` has a payload. -/
  | unexpectedPayload
  /-- R61 step 4: an `LDD` payload whose length differs from `count`. -/
  | countMismatch
  /-- R61 step 5: `PDIVREM` or `VDIVREM` with `rd = re`. -/
  | sameDestinations
  deriving DecidableEq, Repr

/-! ## The fields of a word (R57 to R59) -/

/-- `bits[31:24]`, the opcode (R57). -/
def opcodeOf (w : Word) : BitVec 8 := w.extractLsb' 24 8

/-- The four bits from bit `lo` up, as a register number (R58). -/
def regAt (w : Word) (lo : Nat) : Reg := (w.extractLsb' lo 4).toFin

/-- `rd = bits[23:20]` (R58). -/
def rdOf (w : Word) : Reg := regAt w 20

/-- `ra = bits[19:16]` (R58). -/
def raOf (w : Word) : Reg := regAt w 16

/-- `rb = bits[15:12]` (R58). -/
def rbOf (w : Word) : Reg := regAt w 12

/-- `re = bits[11:8]` (R58). -/
def reOf (w : Word) : Reg := regAt w 8

/-- `imm16 = bits[15:0]` (R59). -/
def immOf (w : Word) : Imm16 := w.extractLsb' 0 16

/-- `count = bits[15:0]` of format L (R59). -/
def countOf (w : Word) : Nat := (w.extractLsb' 0 16).toNat

/-- `s = bits[19]` of format L (R59). -/
def signOf (w : Word) : Bool := w.getLsbD 19

/-- A field's bits put in place, its lowest bit at bit `lo` of the word (R8). -/
def fieldAt {n : Nat} (v : BitVec n) (lo : Nat) : Word := v.setWidth 32 <<< lo

/-- The `n` bits from bit `lo` up are all 0. -/
def zeroAt (w : Word) (lo n : Nat) : Bool := w.extractLsb' lo n == 0#n

/-! ## The ten formats (R57): steps 2 to 5 of R61 -/

/-- Steps 2 and 3 of R61: reject unless the must-be-zero bits are 0 and the payload is empty. -/
def checked (zeros : Bool) (payload : Digits) (i : Instr) : Except Reject Instr :=
  if !zeros then .error .mustBeZero
  else if !payload.isEmpty then .error .unexpectedPayload
  else .ok i

/-- Format Z. -/
def formatZ (c : Command) (i : Instr) : Except Reject Instr :=
  checked (zeroAt c.word 0 24) c.payload i

/-- Format L, for `LDD`: step 4 of R61 instead of step 3. -/
def formatL (c : Command) (k : Reg → Bool → Digits → Instr) : Except Reject Instr :=
  if !zeroAt c.word 16 3 then .error .mustBeZero
  else if c.payload.length ≠ countOf c.word then .error .countMismatch
  else .ok (k (rdOf c.word) (signOf c.word) c.payload)

/-- Format DI. -/
def formatDI (c : Command) (k : Reg → Imm16 → Instr) : Except Reject Instr :=
  checked (zeroAt c.word 16 4) c.payload (k (rdOf c.word) (immOf c.word))

/-- Format I: every bit has a use. -/
def formatI (c : Command) (k : Reg → Reg → Imm16 → Instr) : Except Reject Instr :=
  checked true c.payload (k (rdOf c.word) (raOf c.word) (immOf c.word))

/-- Format R3. -/
def formatR3 (c : Command) (k : Reg → Reg → Reg → Instr) : Except Reject Instr :=
  checked (zeroAt c.word 0 12) c.payload (k (rdOf c.word) (raOf c.word) (rbOf c.word))

/-- Format R4, for the two division commands: step 5 of R61 comes last. -/
def formatR4 (c : Command) (k : Reg → Reg → Reg → Reg → Instr) : Except Reject Instr :=
  if !zeroAt c.word 0 8 then .error .mustBeZero
  else if !c.payload.isEmpty then .error .unexpectedPayload
  else if rdOf c.word = reOf c.word then .error .sameDestinations
  else .ok (k (rdOf c.word) (reOf c.word) (raOf c.word) (rbOf c.word))

/-- Format R2. -/
def formatR2 (c : Command) (k : Reg → Reg → Instr) : Except Reject Instr :=
  checked (zeroAt c.word 0 16) c.payload (k (rdOf c.word) (raOf c.word))

/-- Format D1. -/
def formatD1 (c : Command) (k : Reg → Instr) : Except Reject Instr :=
  checked (zeroAt c.word 0 20) c.payload (k (rdOf c.word))

/-- Format S2. -/
def formatS2 (c : Command) (k : Reg → Reg → Instr) : Except Reject Instr :=
  checked (zeroAt c.word 20 4 && zeroAt c.word 0 12) c.payload (k (raOf c.word) (rbOf c.word))

/-- Format S1. -/
def formatS1 (c : Command) (k : Reg → Instr) : Except Reject Instr :=
  checked (zeroAt c.word 20 4 && zeroAt c.word 0 16) c.payload (k (raOf c.word))

/-- The decoder (R61): every word with every payload is one command or is rejected by name.
The opcode alone selects the command and its format (R57, R60). -/
def decode (c : Command) : Except Reject Instr :=
  match (opcodeOf c.word).toNat with
  | 0x00 => formatZ c .nop
  | 0x01 => formatL c .ldd
  | 0x02 => formatDI c .ldi
  | 0x03 => formatR2 c .mov
  | 0x04 => formatS1 c .rdv
  | 0x10 => formatR3 c .padd
  | 0x11 => formatR3 c .psub
  | 0x12 => formatR3 c .pmul
  | 0x13 => formatR3 c .pmuld
  | 0x14 => formatR4 c .pdivrem
  | 0x15 => formatD1 c .pinc
  | 0x16 => formatD1 c .pdec
  | 0x17 => formatS2 c .pcmp
  | 0x20 => formatS1 c .pisz
  | 0x21 => formatS1 c .pisone
  | 0x22 => formatS1 c .peven
  | 0x23 => formatS1 c .podd
  | 0x24 => formatS1 c .phsb
  | 0x25 => formatS1 c .plsb
  | 0x30 => formatR3 c .pand
  | 0x31 => formatR3 c .por
  | 0x32 => formatR3 c .pxor
  | 0x33 => formatR2 c .pnot
  | 0x34 => formatR2 c .pshl1
  | 0x35 => formatR2 c .pshr1
  | 0x36 => formatR2 c .prol1
  | 0x37 => formatR2 c .pror1
  | 0x38 => formatI c .pshl
  | 0x39 => formatI c .pshr
  | 0x3A => formatI c .prol
  | 0x3B => formatI c .pror
  | 0x40 => formatR3 c .vadd
  | 0x41 => formatR3 c .vsub
  | 0x42 => formatR3 c .vmul
  | 0x43 => formatR3 c .vdiv
  | 0x44 => formatR3 c .vrem
  | 0x45 => formatR4 c .vdivrem
  | 0x46 => formatR2 c .vinc
  | 0x47 => formatR2 c .vdec
  | 0x50 => formatS2 c .vlt
  | 0x51 => formatS2 c .vgt
  | 0x52 => formatS2 c .vle
  | 0x53 => formatS2 c .vge
  | 0x54 => formatS2 c .veq
  | 0x55 => formatS2 c .vne
  | 0x56 => formatS1 c .vbool
  | 0x60 => formatR3 c .vand
  | 0x61 => formatR3 c .vor
  | 0x62 => formatR3 c .vxor
  | 0x63 => formatR2 c .vnot
  | 0x64 => formatI c .vshl
  | 0x65 => formatI c .vshr
  | _ => .error .reservedOpcode

/-! ## The encoder (R57) -/

/-- A register number as a 4-bit field (R58). -/
def regBits (r : Reg) : BitVec 4 := BitVec.ofFin r

/-- The word of format Z. -/
def wordZ (op : BitVec 8) : Word :=
  fieldAt op 24

/-- The word of format L. A count of more than 16 bits is cut to them; no well-formed command has one (`Instr.countFits`;
DESIGN CHOICE, log entry 13). -/
def wordL (op : BitVec 8) (rd : Reg) (neg : Bool) (count : Nat) : Word :=
  fieldAt op 24 ||| fieldAt (regBits rd) 20 ||| fieldAt (BitVec.ofBool neg) 19 ||| fieldAt (BitVec.ofNat 16 count) 0

/-- The word of format DI. -/
def wordDI (op : BitVec 8) (rd : Reg) (imm : Imm16) : Word :=
  fieldAt op 24 ||| fieldAt (regBits rd) 20 ||| fieldAt imm 0

/-- The word of format I. -/
def wordI (op : BitVec 8) (rd ra : Reg) (imm : Imm16) : Word :=
  fieldAt op 24 ||| fieldAt (regBits rd) 20 ||| fieldAt (regBits ra) 16 ||| fieldAt imm 0

/-- The word of format R3. -/
def wordR3 (op : BitVec 8) (rd ra rb : Reg) : Word :=
  fieldAt op 24 ||| fieldAt (regBits rd) 20 ||| fieldAt (regBits ra) 16 ||| fieldAt (regBits rb) 12

/-- The word of format R4. -/
def wordR4 (op : BitVec 8) (rd re ra rb : Reg) : Word :=
  fieldAt op 24 ||| fieldAt (regBits rd) 20 ||| fieldAt (regBits ra) 16 ||| fieldAt (regBits rb) 12 ||| fieldAt (regBits re) 8

/-- The word of format R2. -/
def wordR2 (op : BitVec 8) (rd ra : Reg) : Word :=
  fieldAt op 24 ||| fieldAt (regBits rd) 20 ||| fieldAt (regBits ra) 16

/-- The word of format D1. -/
def wordD1 (op : BitVec 8) (rd : Reg) : Word :=
  fieldAt op 24 ||| fieldAt (regBits rd) 20

/-- The word of format S2. -/
def wordS2 (op : BitVec 8) (ra rb : Reg) : Word :=
  fieldAt op 24 ||| fieldAt (regBits ra) 16 ||| fieldAt (regBits rb) 12

/-- The word of format S1. -/
def wordS1 (op : BitVec 8) (ra : Reg) : Word :=
  fieldAt op 24 ||| fieldAt (regBits ra) 16

/-- The word of a command (R57, R60). -/
def encodeWord : Instr → Word
  | .nop => wordZ 0x00#8
  | .ldd rd neg payload => wordL 0x01#8 rd neg payload.length
  | .ldi rd imm => wordDI 0x02#8 rd imm
  | .mov rd ra => wordR2 0x03#8 rd ra
  | .rdv ra => wordS1 0x04#8 ra
  | .padd rd ra rb => wordR3 0x10#8 rd ra rb
  | .psub rd ra rb => wordR3 0x11#8 rd ra rb
  | .pmul rd ra rb => wordR3 0x12#8 rd ra rb
  | .pmuld rd ra rb => wordR3 0x13#8 rd ra rb
  | .pdivrem rd re ra rb => wordR4 0x14#8 rd re ra rb
  | .pinc rd => wordD1 0x15#8 rd
  | .pdec rd => wordD1 0x16#8 rd
  | .pcmp ra rb => wordS2 0x17#8 ra rb
  | .pisz ra => wordS1 0x20#8 ra
  | .pisone ra => wordS1 0x21#8 ra
  | .peven ra => wordS1 0x22#8 ra
  | .podd ra => wordS1 0x23#8 ra
  | .phsb ra => wordS1 0x24#8 ra
  | .plsb ra => wordS1 0x25#8 ra
  | .pand rd ra rb => wordR3 0x30#8 rd ra rb
  | .por rd ra rb => wordR3 0x31#8 rd ra rb
  | .pxor rd ra rb => wordR3 0x32#8 rd ra rb
  | .pnot rd ra => wordR2 0x33#8 rd ra
  | .pshl1 rd ra => wordR2 0x34#8 rd ra
  | .pshr1 rd ra => wordR2 0x35#8 rd ra
  | .prol1 rd ra => wordR2 0x36#8 rd ra
  | .pror1 rd ra => wordR2 0x37#8 rd ra
  | .pshl rd ra imm => wordI 0x38#8 rd ra imm
  | .pshr rd ra imm => wordI 0x39#8 rd ra imm
  | .prol rd ra imm => wordI 0x3A#8 rd ra imm
  | .pror rd ra imm => wordI 0x3B#8 rd ra imm
  | .vadd rd ra rb => wordR3 0x40#8 rd ra rb
  | .vsub rd ra rb => wordR3 0x41#8 rd ra rb
  | .vmul rd ra rb => wordR3 0x42#8 rd ra rb
  | .vdiv rd ra rb => wordR3 0x43#8 rd ra rb
  | .vrem rd ra rb => wordR3 0x44#8 rd ra rb
  | .vdivrem rd re ra rb => wordR4 0x45#8 rd re ra rb
  | .vinc rd ra => wordR2 0x46#8 rd ra
  | .vdec rd ra => wordR2 0x47#8 rd ra
  | .vlt ra rb => wordS2 0x50#8 ra rb
  | .vgt ra rb => wordS2 0x51#8 ra rb
  | .vle ra rb => wordS2 0x52#8 ra rb
  | .vge ra rb => wordS2 0x53#8 ra rb
  | .veq ra rb => wordS2 0x54#8 ra rb
  | .vne ra rb => wordS2 0x55#8 ra rb
  | .vbool ra => wordS1 0x56#8 ra
  | .vand rd ra rb => wordR3 0x60#8 rd ra rb
  | .vor rd ra rb => wordR3 0x61#8 rd ra rb
  | .vxor rd ra rb => wordR3 0x62#8 rd ra rb
  | .vnot rd ra => wordR2 0x63#8 rd ra
  | .vshl rd ra imm => wordI 0x64#8 rd ra imm
  | .vshr rd ra imm => wordI 0x65#8 rd ra imm

/-- The payload beside the word: only `LDD` has one (R56). -/
def encodePayload : Instr → Digits
  | .ldd _ _ payload => payload
  | _ => []

/-- The command that a decoded command stands for (R56). -/
def encode (i : Instr) : Command := { word := encodeWord i, payload := encodePayload i }

/-! ## The opcode map as R60 prints it -/

/-- The columns `mask` and `match` of R60: a word `w` is a row's command exactly when `w &&& mask = pattern`. -/
structure OpcodeRow where
  mask : Word
  pattern : Word
  deriving DecidableEq, Repr

/-- The row of R60 that a command stands in. -/
def Instr.row : Instr → OpcodeRow
  | .nop => ⟨0xFFFFFFFF, 0x00000000⟩
  | .ldd _ _ _ => ⟨0xFF070000, 0x01000000⟩
  | .ldi _ _ => ⟨0xFF0F0000, 0x02000000⟩
  | .mov _ _ => ⟨0xFF00FFFF, 0x03000000⟩
  | .rdv _ => ⟨0xFFF0FFFF, 0x04000000⟩
  | .padd _ _ _ => ⟨0xFF000FFF, 0x10000000⟩
  | .psub _ _ _ => ⟨0xFF000FFF, 0x11000000⟩
  | .pmul _ _ _ => ⟨0xFF000FFF, 0x12000000⟩
  | .pmuld _ _ _ => ⟨0xFF000FFF, 0x13000000⟩
  | .pdivrem _ _ _ _ => ⟨0xFF0000FF, 0x14000000⟩
  | .pinc _ => ⟨0xFF0FFFFF, 0x15000000⟩
  | .pdec _ => ⟨0xFF0FFFFF, 0x16000000⟩
  | .pcmp _ _ => ⟨0xFFF00FFF, 0x17000000⟩
  | .pisz _ => ⟨0xFFF0FFFF, 0x20000000⟩
  | .pisone _ => ⟨0xFFF0FFFF, 0x21000000⟩
  | .peven _ => ⟨0xFFF0FFFF, 0x22000000⟩
  | .podd _ => ⟨0xFFF0FFFF, 0x23000000⟩
  | .phsb _ => ⟨0xFFF0FFFF, 0x24000000⟩
  | .plsb _ => ⟨0xFFF0FFFF, 0x25000000⟩
  | .pand _ _ _ => ⟨0xFF000FFF, 0x30000000⟩
  | .por _ _ _ => ⟨0xFF000FFF, 0x31000000⟩
  | .pxor _ _ _ => ⟨0xFF000FFF, 0x32000000⟩
  | .pnot _ _ => ⟨0xFF00FFFF, 0x33000000⟩
  | .pshl1 _ _ => ⟨0xFF00FFFF, 0x34000000⟩
  | .pshr1 _ _ => ⟨0xFF00FFFF, 0x35000000⟩
  | .prol1 _ _ => ⟨0xFF00FFFF, 0x36000000⟩
  | .pror1 _ _ => ⟨0xFF00FFFF, 0x37000000⟩
  | .pshl _ _ _ => ⟨0xFF000000, 0x38000000⟩
  | .pshr _ _ _ => ⟨0xFF000000, 0x39000000⟩
  | .prol _ _ _ => ⟨0xFF000000, 0x3A000000⟩
  | .pror _ _ _ => ⟨0xFF000000, 0x3B000000⟩
  | .vadd _ _ _ => ⟨0xFF000FFF, 0x40000000⟩
  | .vsub _ _ _ => ⟨0xFF000FFF, 0x41000000⟩
  | .vmul _ _ _ => ⟨0xFF000FFF, 0x42000000⟩
  | .vdiv _ _ _ => ⟨0xFF000FFF, 0x43000000⟩
  | .vrem _ _ _ => ⟨0xFF000FFF, 0x44000000⟩
  | .vdivrem _ _ _ _ => ⟨0xFF0000FF, 0x45000000⟩
  | .vinc _ _ => ⟨0xFF00FFFF, 0x46000000⟩
  | .vdec _ _ => ⟨0xFF00FFFF, 0x47000000⟩
  | .vlt _ _ => ⟨0xFFF00FFF, 0x50000000⟩
  | .vgt _ _ => ⟨0xFFF00FFF, 0x51000000⟩
  | .vle _ _ => ⟨0xFFF00FFF, 0x52000000⟩
  | .vge _ _ => ⟨0xFFF00FFF, 0x53000000⟩
  | .veq _ _ => ⟨0xFFF00FFF, 0x54000000⟩
  | .vne _ _ => ⟨0xFFF00FFF, 0x55000000⟩
  | .vbool _ => ⟨0xFFF0FFFF, 0x56000000⟩
  | .vand _ _ _ => ⟨0xFF000FFF, 0x60000000⟩
  | .vor _ _ _ => ⟨0xFF000FFF, 0x61000000⟩
  | .vxor _ _ _ => ⟨0xFF000FFF, 0x62000000⟩
  | .vnot _ _ => ⟨0xFF00FFFF, 0x63000000⟩
  | .vshl _ _ _ => ⟨0xFF000000, 0x64000000⟩
  | .vshr _ _ _ => ⟨0xFF000000, 0x65000000⟩

/-! ## The word of a row of spec/opcode_table.json -/

/-- The payload the model puts beside a bare word: for `LDD` `count` zero digits, for every other command none
(log entry 6: the table gives the payload no bits, so its digits are 0). -/
def tablePayload (w : Word) : Digits :=
  if opcodeOf w = 0x01#8 then List.replicate (countOf w) 0 else []

/-- The command whose word has the low `nbits` bits of `w`, bit 0 least significant (R8). -/
def tableCommand (nbits w : Nat) : Command :=
  let word : Word := BitVec.ofNat 32 (w % 2 ^ nbits)
  { word := word, payload := tablePayload word }

/-- What the decoder reads from a word of the opcode table. -/
def decodeTableWord (nbits w : Nat) : Option Instr :=
  match decode (tableCommand nbits w) with
  | .ok i => some i
  | .error _ => none

end Sys2Proof
end

