-- ==== Sys2Proof/Machine/State.lean ====
section
/-! DEFINITION. The state of the machine, its reset value, and the reasons a step can stop (spec 10_state R20 to R36, 30_encoding R55, R62, 60_exceptions R220). -/

namespace Sys2Proof.Machine

/-- A signed value: a sign flag and a magnitude (R11, R21). `len` of R21 is `mag.length`.
The default is the empty, non-negative value. -/
structure Value where
  neg : Bool := false
  mag : Digits := []
  deriving DecidableEq, Repr

/-- The error kinds the hardware reports in `STATUS` (R220). -/
inductive Error where
  /-- The divisor's magnitude is zero (R221). -/
  | divisionByZero
  /-- A primitive's stated requirement does not hold (R222). -/
  | preconditionViolation
  /-- The command is not well formed (R223). -/
  | illegalCommand
  /-- The result would have more than `MAXD` digits (R224). -/
  | capacityExceeded
  deriving DecidableEq, Repr

/-- What the hardware answers to one command (R62): `status` is `STATUS` after the command,
`value` is present only for a successful `RDV`. -/
structure Response where
  status : Word
  value : Option Value
  deriving DecidableEq, Repr

/-- The two kinds of input event (R246, R260). -/
inductive HostEvent where
  /-- The host issues a command. -/
  | command (c : Command)
  /-- The host asserts reset between two commands. -/
  | reset
  deriving DecidableEq, Repr

/-- The machine. `regs` and `status` are the whole architectural state (R20).
The other three fields are the model's own:
`cfg` is the instance, changed by no step (R6, R20; log entry 1);
`pending` is what the host has still to send, oldest first (R259; log entry 3);
`response` is what the response port last answered (R55, R62; log entry 4). -/
structure State where
  cfg : Config
  regs : Vector Value 16
  status : Word
  pending : List HostEvent
  response : Option Response
  deriving DecidableEq, Repr

/-- The reasons the model stops with a fault. The hardware itself never does (R227). -/
inductive Fault where
  /-- Raised by the meaning of `LDD` alone, when the payload it is given holds a number that is no digit
  of the instance. A port of `W`-bit digits cannot carry such a payload (R148), so the hardware has no
  behaviour here and the model states none. Safe. Log entry 5. -/
  | payloadNotDigits
  deriving DecidableEq, Repr

/-- The reasons an instruction has no meaning in the model. -/
inductive Refusal where
  /-- Raised by an arm of `exec` whose instruction has no meaning yet; no arm does. Safe. -/
  | notModelled (mnemonic : String)
  deriving DecidableEq, Repr

/-- The state right after a reset of instance `c`: every register empty and non-negative, `STATUS` zero
(R36, R245). Reset gives no response, and the host has sent nothing yet (log entries 3 and 4). -/
def State.resetOf (c : Config) : State :=
  { cfg := c, regs := Vector.replicate 16 {}, status := 0#32, pending := [], response := none }

/-- The state right after reset of the instance the spec's vectors use (R7, R36, R245; log entry 1). -/
def State.reset : State := State.resetOf Config.vectors

end Sys2Proof.Machine
end

