-- ==== Sys2Proof/Machine/Digits.lean ====
section
/-! DEFINITION. The helper functions on digit sequences and values that every rule uses (spec 00_scope R9 to R11). -/

namespace Sys2Proof.Machine

/-- `val(a)`, the number a digit sequence stands for (R9). -/
def val (w : DigitWidth) (a : Digits) : Nat := a.foldl (fun n d => n * w.radix + d) 0

/-- `strip(a)`, without its leading zero digits (R10). -/
def strip (a : Digits) : Digits := a.dropWhile (· == 0)

/-- `eff(a)`, the effective length (R10). -/
def eff (a : Digits) : Nat := (strip a).length

/-- The `n` low digits of `v`, least significant first. -/
def lowDigits (w : DigitWidth) : Nat → Nat → Digits
  | 0, _ => []
  | n + 1, v => v % w.radix :: lowDigits w n (v / w.radix)

/-- `from_nat(n, v)`, the `n` digits of `v mod R^n` (R10). -/
def fromNat (w : DigitWidth) (n v : Nat) : Digits := (lowDigits w n v).reverse

/-- `zeros(n)` (R10). -/
def zeros (n : Nat) : Digits := List.replicate n 0

/-- `lsd(a, k)`, the digit `k` places from the least significant end; a digit the sequence lacks reads as 0 (R10). -/
def lsd (a : Digits) (k : Nat) : Nat := a.reverse.getD k 0

/-- `bit(a, k)`, bit `k` of the sequence from the least significant bit (R10). -/
def bitAt (w : DigitWidth) (a : Digits) (k : Nat) : Bool := (lsd a (k / w.bits)).testBit (k % w.bits)

/-- Every digit is 0, or there are none: the sequence stands for zero (R9, R131). -/
def isZero (a : Digits) : Bool := a.all (· == 0)

/-- Every digit is `R-1`, or there are none: a carry would leave the buffer (R91, R94). -/
def isFull (w : DigitWidth) (a : Digits) : Bool := a.all (· == w.radix - 1)

/-- `sval(v)`, the signed number a value stands for (R11). -/
def sval (w : DigitWidth) (v : Value) : Int := if v.neg then -(val w v.mag : Int) else (val w v.mag : Int)

/-- `normalise(v)`: a zero magnitude is never negative; no digit and no length changes (R11, R145). -/
def normalise (v : Value) : Value := if isZero v.mag then { v with neg := false } else v

/-- `flip(y)`, the negation used inside subtraction (R161). -/
def flipSign (v : Value) : Value := { v with neg := !v.neg }

/-- The digits of two sequences at places `0 .. n-1` from the least significant end, least significant first. -/
def places (a b : Digits) (n : Nat) : List (Nat × Nat) := (List.range n).map fun k => (lsd a k, lsd b k)

end Sys2Proof.Machine
end

