-- ==== Sys2Proof/Machine/Flags.lean ====
section
/-! DEFINITION. The fields of `STATUS`, how each is read and written, and the codes they hold (spec 10_state R26 to R32, 60_exceptions R220). -/

namespace Sys2Proof.Machine

/-! ## The layout (R27) -/

/-- `STATUS[2:0]`, `ERR` (R27). -/
def statusErr (st : Word) : BitVec 3 := st.extractLsb' 0 3

/-- `STATUS[3]`, `T` (R27). -/
def statusT (st : Word) : Bool := st.getLsbD 3

/-- `STATUS[5:4]`, `CMP` (R27). -/
def statusCmp (st : Word) : BitVec 2 := st.extractLsb' 4 2

/-- `STATUS[8:6]`, `FERR` (R27). -/
def statusFerr (st : Word) : BitVec 3 := st.extractLsb' 6 3

/-- `STATUS[31:9]`, reserved (R27). -/
def statusReserved (st : Word) : BitVec 23 := st.extractLsb' 9 23

/-- `STATUS` put together from its fields (R27). -/
def statusPack (reserved : BitVec 23) (ferr : BitVec 3) (cmp : BitVec 2) (t : Bool) (err : BitVec 3) : Word :=
  fieldAt reserved 9 ||| fieldAt ferr 6 ||| fieldAt cmp 4 ||| fieldAt (BitVec.ofBool t) 3 ||| fieldAt err 0

/-! ## Reading a field of the machine's `STATUS` -/

/-- `STATUS.ERR` (R28). -/
def State.err (s : State) : BitVec 3 := statusErr s.status

/-- `STATUS.T` (R30). -/
def State.truth (s : State) : Bool := statusT s.status

/-- `STATUS.CMP` (R31). -/
def State.cmp (s : State) : BitVec 2 := statusCmp s.status

/-- `STATUS.FERR` (R29). -/
def State.ferr (s : State) : BitVec 3 := statusFerr s.status

/-- `STATUS[31:9]` (R27). -/
def State.reserved (s : State) : BitVec 23 := statusReserved s.status

/-! ## Writing one field, the others kept -/

/-- `STATUS.ERR <- e` (R28). -/
def State.setErr (s : State) (e : BitVec 3) : State :=
  { s with status := statusPack s.reserved s.ferr s.cmp s.truth e }

/-- `STATUS.T <- b` (R30). -/
def State.setTruth (s : State) (b : Bool) : State :=
  { s with status := statusPack s.reserved s.ferr s.cmp b s.err }

/-- `STATUS.CMP <- c` (R31). -/
def State.setCmp (s : State) (c : BitVec 2) : State :=
  { s with status := statusPack s.reserved s.ferr c s.truth s.err }

/-- `STATUS.FERR <- e` (R29). -/
def State.setFerr (s : State) (e : BitVec 3) : State :=
  { s with status := statusPack s.reserved e s.cmp s.truth s.err }

/-! ## Codes -/

/-- The code of an error in `ERR` and `FERR` (R220). -/
def Error.code : Error → BitVec 3
  | .divisionByZero => 1#3
  | .preconditionViolation => 2#3
  | .illegalCommand => 3#3
  | .capacityExceeded => 4#3

/-- The three-way result in 2-bit two's complement, as `PCMP` writes it (R27, R93). -/
def cmpCode : Ordering → BitVec 2
  | .eq => 0b00#2
  | .gt => 0b01#2
  | .lt => 0b11#2

end Sys2Proof.Machine
end

