-- ==== Sys2Proof/Machine/Ops.lean ====
section
/-! DEFINITION. The named operations on the machine: registers, capacity, the success and the error sequence
(spec 10_state R21, R22; 60_exceptions R224 to R227). -/

namespace Sys2Proof.Machine

/-- Read value register `r` (R12, R21). Reading changes nothing (R48). -/
def State.reg (s : State) (r : Reg) : Value := s.regs[r]

/-- Write the whole of value register `r` (R12, R22). -/
def State.setReg (s : State) (r : Reg) (v : Value) : State := { s with regs := s.regs.set r v }

/-- A result of `n` digits fits a register: `n <= MAXD` (R224). -/
def State.fits (s : State) (n : Nat) : Bool :=
  match s.cfg.maxd with
  | none => true
  | some m => decide (n ≤ m)

/-- Give the response to a command: a copy of `STATUS` as it stands, and a value or none (R62). -/
def State.respond (s : State) (v : Option Value) : State :=
  { s with response := some { status := s.status, value := v } }

/-- The success sequence, after the command's own writes: `ERR` is 0 and the response goes out (R28, R226). -/
def State.complete (s : State) (v : Option Value) : State := (s.setErr 0#3).respond v

/-- The error entry (R226): `FERR` takes the first code since reset, `ERR` takes this one, the response carries
no value. Nothing else changes (R225). There is nothing to return from: the next command executes normally (R227). -/
def State.raise (s : State) (e : Error) : State :=
  ((if s.ferr = 0#3 then s.setFerr e.code else s).setErr e.code).respond none

/-- The whole effect of the reset event: the reset state of the same instance; what the host has still to send
is the host's and stays (R245, R259). -/
def State.resetEvent (s : State) : State := { State.resetOf s.cfg with pending := s.pending }

end Sys2Proof.Machine
end

