-- ==== Sys2Proof/Machine/Operands.lean ====
section
/-! DEFINITION. The operand forms: what a command reads, and the ways it can end
(spec 00_scope R13; 40 R80, R81; 41 R100; 43 R146; 60 R224 to R226). -/

namespace Sys2Proof.Machine

/-- What a command answers. -/
abbrev Result := Host.Outcome State Fault Refusal

/-- The magnitude a primitive command reads: the digits of the register, its sign ignored (R80). -/
def State.mag (s : State) (r : Reg) : Digits := (s.reg r).mag

/-- `V[ra].mag`'s length (`la` of the rules). -/
def State.len (s : State) (r : Reg) : Nat := (s.mag r).length

/-- End with error `e` (R225, R226). -/
def fail (s : State) (e : Error) : Result := .next (s.raise e)

/-- End well with nothing written but `ERR` (R28). -/
def finish (s : State) : Result := .next (s.complete none)

/-- End well with the magnitude `m` in `rd`, non-negative: the form of every primitive command that writes a register (R81). -/
def writeMag (s : State) (rd : Reg) (m : Digits) : Result :=
  finish (s.setReg rd { neg := false, mag := m })

/-- End well with two magnitudes, written together (R47, R139). -/
def writeMags (s : State) (rd : Reg) (m : Digits) (re : Reg) (k : Digits) : Result :=
  finish ((s.setReg rd { neg := false, mag := m }).setReg re { neg := false, mag := k })

/-- End well with the value `v` in `rd`, through the normaliser: the form of `LDD` and of every value command (R146). -/
def writeValue (s : State) (rd : Reg) (v : Value) : Result := finish (s.setReg rd (normalise v))

/-- End well with two values, written together through the normaliser (R47, R146, R169). -/
def writeValues (s : State) (rd : Reg) (v : Value) (re : Reg) (u : Value) : Result :=
  finish ((s.setReg rd (normalise v)).setReg re (normalise u))

/-- End well with a truth value in `T`: the form of the test commands (R30, R100, R180). -/
def writeTruth (s : State) (b : Bool) : Result := finish (s.setTruth b)

/-- End well with a three-way result in `CMP` (R31, R93). -/
def writeCmp (s : State) (o : Ordering) : Result := finish (s.setCmp (cmpCode o))

/-- Go on when a result of `n` digits fits a register, else `CapacityExceeded` (R224). -/
def ifFits (s : State) (n : Nat) (k : Result) : Result :=
  if s.fits n then k else fail s .capacityExceeded

end Sys2Proof.Machine
end

