-- ==== Sys2Proof/Machine/Data.lean ====
section
/-! DEFINITION. NOP, LDD, LDI, MOV, RDV (spec 43_value-construction R147 to R152). -/

namespace Sys2Proof.Machine

/-- `NOP`: only `ERR <- 0` (R150). -/
def execNop (s : State) : Result := finish s

/-- `LDD`: load the payload and the negative flag through the normaliser; `CapacityExceeded` when `count > MAXD`
(R147, R148). A payload that no port of the instance can carry is the model's own fault (log entry 5). -/
def execLdd (rd : Reg) (neg : Bool) (payload : Digits) (s : State) : Result :=
  if digitsFit s.cfg.width payload then
    ifFits s payload.length (writeValue s rd { neg := neg, mag := payload })
  else .fault .payloadNotDigits

/-- `digits_of_uint(u, kbits)`: `ceil(kbits / W)` digits (R44, R149). -/
def digitsOfUint (w : DigitWidth) (u kbits : Nat) : Digits := fromNat w ((kbits + w.bits - 1) / w.bits) u

/-- `LDI`: the immediate as digits, never negative (R149). -/
def execLdi (rd : Reg) (imm : Imm16) (s : State) : Result :=
  writeMag s rd (digitsOfUint s.cfg.width imm.toNat 16)

/-- `MOV`: sign, length and every digit; the source keeps its content (R151). -/
def execMov (rd ra : Reg) (s : State) : Result := finish (s.setReg rd (s.reg ra))

/-- `RDV`: the register goes into the response exactly as stored (R152). -/
def execRdv (ra : Reg) (s : State) : Result := .next (s.complete (some (s.reg ra)))

end Sys2Proof.Machine
end

