-- ==== Sys2Proof/Machine/Arith.lean ====
section
/-! DEFINITION. The arithmetic and compare functions on digit sequences (spec 40_primitives-arith R82 to R92).
Every loop runs from the least significant digit, on a list whose head is that digit. -/

namespace Sys2Proof.Machine

/-! ## Addition (R82) -/

/-- The loop of `add`: digit sums with the carry `c`. -/
def addLoop (w : DigitWidth) : Nat → List (Nat × Nat) → Digits
  | _, [] => []
  | c, (x, y) :: t => (x + y + c) % w.radix :: addLoop w ((x + y + c) / w.radix) t

/-- `add(a, b)`, of `max(la, lb) + 1` digits (R82, R83). -/
def add (w : DigitWidth) (a b : Digits) : Digits :=
  (addLoop w 0 (places a b (max a.length b.length + 1))).reverse

/-! ## Subtraction (R85) -/

/-- The loop of `sub`: digit differences with the borrow `bw`, "digit + radix" on underflow. -/
def subLoop (w : DigitWidth) : Nat → List (Nat × Nat) → Digits
  | _, [] => []
  | bw, (x, y) :: t =>
    if x < y + bw then (x + w.radix - (y + bw)) :: subLoop w 1 t
    else (x - (y + bw)) :: subLoop w 0 t

/-- `sub(a, b)`, of `max(la, lb)` digits; meant for `val(a) >= val(b)` (R85). -/
def sub (w : DigitWidth) (a b : Digits) : Digits :=
  (subLoop w 0 (places a b (max a.length b.length))).reverse

/-! ## Multiplication (R87, R89) -/

/-- The inner loop of `mul`: `a * x + r` with the carry `c`, one digit longer than `a`; `r` has `a`'s length. -/
def mulRow (w : DigitWidth) (x : Nat) : Nat → Digits → Digits → Digits
  | c, [], _ => [c]
  | c, d :: t, r =>
    (d * x + r.headD 0 + c) % w.radix :: mulRow w x ((d * x + r.headD 0 + c) / w.radix) t r.tail

/-- The outer loop of `mul`, over the digits of `b`: each row settles one more digit of the result. -/
def mulLoop (w : DigitWidth) (a : Digits) : Digits → Digits → Digits
  | [], r => r
  | x :: t, r => (mulRow w x 0 a r).headD 0 :: mulLoop w a t (mulRow w x 0 a r).tail

/-- `mul(a, b)`, of `la + lb` digits (R87). -/
def mul (w : DigitWidth) (a b : Digits) : Digits :=
  (mulLoop w a.reverse b.reverse (zeros a.length)).reverse

/-- `mul_digit(a, x)`, of `la + 1` digits (R89). -/
def mulDigit (w : DigitWidth) (a : Digits) (x : Nat) : Digits :=
  (mulRow w x 0 a.reverse (zeros a.length)).reverse

/-! ## Compare (R92) -/

/-- The digits of two sequences of one length, most significant first. -/
def lexCompare : Digits → Digits → Ordering
  | x :: s, y :: t => if x < y then .lt else if x > y then .gt else lexCompare s t
  | _, _ => .eq

/-- `compare(a, b)`: effective length first, then the digits (R92). -/
def compareMag (a b : Digits) : Ordering :=
  if eff a < eff b then .lt
  else if eff a > eff b then .gt
  else lexCompare (strip a) (strip b)

/-! ## Increment and decrement (R91) -/

/-- The ripple of `inc`. -/
def incLoop (w : DigitWidth) : Digits → Digits
  | [] => []
  | d :: t => if d = w.radix - 1 then 0 :: incLoop w t else (d + 1) :: t

/-- `inc(a)`, length kept; meant for a sequence that is not full (R91). -/
def inc (w : DigitWidth) (a : Digits) : Digits := (incLoop w a.reverse).reverse

/-- The ripple of `dec`. -/
def decLoop (w : DigitWidth) : Digits → Digits
  | [] => []
  | d :: t => if d = 0 then (w.radix - 1) :: decLoop w t else (d - 1) :: t

/-- `dec(a)`, length kept; meant for a sequence that is not zero (R91). -/
def dec (w : DigitWidth) (a : Digits) : Digits := (decLoop w a.reverse).reverse

end Sys2Proof.Machine
end

