-- ==== Sys2Proof/Machine/Division.lean ====
section
/-! DEFINITION. The long-division engine: each quotient digit is found by binary search (spec 42_division R130 to R136). -/

namespace Sys2Proof.Machine

/-- The bisection of `search_digit`, at most `passes` passes: `down` is a lower bound, `up` an excluded upper
bound of the digit, and the equal case collapses both (R135). -/
def bisect (w : DigitWidth) (window divisor : Digits) : Nat → Nat → Nat → Nat
  | 0, down, _ => down
  | passes + 1, down, up =>
    if up - down ≤ 1 then down
    else
      match compareMag (mulDigit w divisor ((down + up) / 2)) window with
      | .lt => bisect w window divisor passes ((down + up) / 2) up
      | .gt => bisect w window divisor passes down ((down + up) / 2)
      | .eq => (down + up) / 2

/-- `search_digit(w, B)`, from `Down = 0` and `Up = R`: `W` passes are enough (R135). -/
def searchDigit (w : DigitWidth) (window divisor : Digits) : Nat :=
  bisect w window divisor w.bits 0 w.radix

/-- The engine's working copy of the dividend: the window is its most significant digits, `rest` the digits
not yet pulled in (R133). -/
structure Window where
  window : Digits
  rest : Digits
  deriving DecidableEq, Repr

/-- Widen the window by one digit when it is less than the divisor (R133 step 4, R134 step 5a). -/
def Window.extend (x : Window) (divisor : Digits) : Window :=
  if compareMag x.window divisor = .lt then { window := x.window ++ x.rest.take 1, rest := x.rest.drop 1 } else x

/-- Step 5c: subtract `down * divisor` from the window, which keeps its length (R134). -/
def Window.subtract (w : DigitWidth) (x : Window) (divisor : Digits) (down : Nat) : Window :=
  let t := sub w x.window (mulDigit w divisor down)
  { x with window := t.drop (t.length - x.window.length) }

/-- The main loop, `shift` times: the quotient digits in the order they are emitted, and the final working copy (R134). -/
def divLoop (w : DigitWidth) (divisor : Digits) : Nat → Window → Digits × Digits
  | 0, x => ([], x.window ++ x.rest)
  | shift + 1, x =>
    let y := x.extend divisor
    let down := searchDigit w y.window divisor
    let r := divLoop w divisor shift (y.subtract w divisor down)
    (down :: r.1, r.2)

/-- The set-up, the loop and the results, for stripped sequences with the dividend not less than the divisor
(R133, R134, R136). -/
def longDivision (w : DigitWidth) (a b : Digits) : Digits × Digits :=
  let x : Window := { window := a.take b.length, rest := a.drop b.length }
  let shift := if compareMag x.window b = .lt then a.length - b.length else a.length - b.length + 1
  let r := divLoop w b shift (x.extend b)
  (r.1, r.2.drop (a.length - b.length))

/-- `div_rem(a, b)`, quotient and remainder; meant for `val(b) != 0`, which the command tests first (R130, R131).
A dividend less than the divisor skips the algorithm (R132). -/
def divRem (w : DigitWidth) (a b : Digits) : Digits × Digits :=
  if compareMag (strip a) (strip b) = .lt then ([], fromNat w (eff b) (val w (strip a)))
  else longDivision w (strip a) (strip b)

end Sys2Proof.Machine
end

