-- ==== Sys2Proof/Machine/PrimArith.lean ====
section
/-! DEFINITION. PADD, PSUB, PMUL, PMULD, PDIVREM, PINC, PDEC, PCMP (spec 40_primitives-arith R80 to R95, 42_division R139). -/

namespace Sys2Proof.Machine

/-- `PADD`: `max(la, lb) + 1` digits, tested against `MAXD` first (R84). -/
def execPadd (rd ra rb : Reg) (s : State) : Result :=
  ifFits s (max (s.len ra) (s.len rb) + 1) (writeMag s rd (add s.cfg.width (s.mag ra) (s.mag rb)))

/-- `PSUB`: `PreconditionViolation` when the minuend is less than the subtrahend (R86, R222). -/
def execPsub (rd ra rb : Reg) (s : State) : Result :=
  if compareMag (s.mag ra) (s.mag rb) = .lt then fail s .preconditionViolation
  else writeMag s rd (sub s.cfg.width (s.mag ra) (s.mag rb))

/-- `PMUL`: `la + lb` digits (R88). -/
def execPmul (rd ra rb : Reg) (s : State) : Result :=
  ifFits s (s.len ra + s.len rb) (writeMag s rd (mul s.cfg.width (s.mag ra) (s.mag rb)))

/-- `PMULD`: times the least significant digit of `rb`, 0 when `rb` is empty (R90). -/
def execPmuld (rd ra rb : Reg) (s : State) : Result :=
  ifFits s (s.len ra + 1) (writeMag s rd (mulDigit s.cfg.width (s.mag ra) (lsd (s.mag rb) 0)))

/-- `PDIVREM`: quotient to `rd`, remainder to `re`, written together (R139). `rd = re` is `IllegalCommand`;
the decoder rejects it before any register is read (R61, R251), and so does the meaning (log entry 6). -/
def execPdivrem (rd re ra rb : Reg) (s : State) : Result :=
  if rd = re then fail s .illegalCommand
  else if isZero (s.mag rb) then fail s .divisionByZero
  else
    writeMags s rd (divRem s.cfg.width (s.mag ra) (s.mag rb)).1 re (divRem s.cfg.width (s.mag ra) (s.mag rb)).2

/-- `PINC`: in place, length kept; `PreconditionViolation` when the carry would leave the buffer (R94, R222). -/
def execPinc (rd : Reg) (s : State) : Result :=
  if isFull s.cfg.width (s.mag rd) then fail s .preconditionViolation
  else writeMag s rd (inc s.cfg.width (s.mag rd))

/-- `PDEC`: in place, length kept; `PreconditionViolation` on zero (R95, R222). -/
def execPdec (rd : Reg) (s : State) : Result :=
  if isZero (s.mag rd) then fail s .preconditionViolation
  else writeMag s rd (dec s.cfg.width (s.mag rd))

/-- `PCMP`: the three-way result of the magnitudes to `CMP` (R93). -/
def execPcmp (ra rb : Reg) (s : State) : Result := writeCmp s (compareMag (s.mag ra) (s.mag rb))

end Sys2Proof.Machine
end

