-- ==== Sys2Proof/Machine/Bits.lean ====
section
/-! DEFINITION. The bitwise, shift and rotate functions on digit sequences (spec 41_primitives-test-bitwise-shift R105 to R117). -/

namespace Sys2Proof.Machine

/-! ## The boundary bits (R105, R106) -/

/-- The top bit of the first digit; false for the empty sequence (R105). -/
def topBit (w : DigitWidth) : Digits → Bool
  | [] => false
  | d :: _ => d.testBit (w.bits - 1)

/-- Bit 0 of the last digit; false for the empty sequence (R106). -/
def bottomBit (a : Digits) : Bool := (lsd a 0).testBit 0

/-! ## AND, OR, XOR, NOT (R107, R111) -/

/-- `bitop(f, a, b)`, of `max(la, lb)` digits; a missing digit is 0 (R107). -/
def bitop (f : Nat → Nat → Nat) (a b : Digits) : Digits :=
  ((places a b (max a.length b.length)).map fun p => f p.1 p.2).reverse

/-- `bitnot(a)`, every bit of every digit inverted (R111). -/
def bitnot (w : DigitWidth) (a : Digits) : Digits := a.map fun d => w.radix - 1 - d

/-! ## By one bit (R112): a single-bit carry goes from digit to digit -/

/-- The loop of the left shift, least significant digit first; `c` is the bit that enters. -/
def shl1Loop (w : DigitWidth) : Nat → Digits → Digits
  | _, [] => []
  | c, d :: t => (2 * d % w.radix + c) :: shl1Loop w (d / 2 ^ (w.bits - 1)) t

/-- `shl1(a)` (R112). -/
def shl1 (w : DigitWidth) (a : Digits) : Digits := (shl1Loop w 0 a.reverse).reverse

/-- The loop of the right shift, most significant digit first; `c` is the bit that enters. -/
def shr1Loop (w : DigitWidth) : Nat → Digits → Digits
  | _, [] => []
  | c, d :: t => (d / 2 + c * 2 ^ (w.bits - 1)) :: shr1Loop w (d % 2) t

/-- `shr1(a)` (R112). -/
def shr1 (w : DigitWidth) (a : Digits) : Digits := shr1Loop w 0 a

/-- `rol1(a)`: the bit that leaves at the top enters at bit 0 (R112). -/
def rol1 (w : DigitWidth) (a : Digits) : Digits :=
  (shl1Loop w (a.headD 0 / 2 ^ (w.bits - 1)) a.reverse).reverse

/-- `ror1(a)`: the bit that leaves at bit 0 enters at the top (R112). -/
def ror1 (w : DigitWidth) (a : Digits) : Digits := shr1Loop w (lsd a 0 % 2) a

/-! ## By n bits (R117), in the closed forms the rule gives (log entry 7) -/

/-- `N = W * la`, the width of the buffer in bits (R112). -/
def bufferBits (w : DigitWidth) (a : Digits) : Nat := w.bits * a.length

/-- `shl(a, n)`: all zero when `n >= N` (R117). -/
def shl (w : DigitWidth) (a : Digits) (n : Nat) : Digits :=
  fromNat w a.length (val w a * 2 ^ min n (bufferBits w a))

/-- `shr(a, n)`: all zero when `n >= N` (R117). -/
def shr (w : DigitWidth) (a : Digits) (n : Nat) : Digits :=
  fromNat w a.length (val w a / 2 ^ min n (bufferBits w a))

/-- `rol(a, n)`, which is `rol(a, n mod N)`; empty for the empty sequence (R117). -/
def rol (w : DigitWidth) (a : Digits) (n : Nat) : Digits :=
  if a.isEmpty then []
  else
    fromNat w a.length
      (val w a * 2 ^ (n % bufferBits w a) + val w a / 2 ^ (bufferBits w a - n % bufferBits w a))

/-- `ror(a, n) = rol(a, (N - n mod N) mod N)` (R117). -/
def ror (w : DigitWidth) (a : Digits) (n : Nat) : Digits :=
  if a.isEmpty then []
  else rol w a ((bufferBits w a - n % bufferBits w a) % bufferBits w a)

end Sys2Proof.Machine
end

