-- ==== Sys2Proof/Machine/PrimBits.lean ====
section
/-! DEFINITION. PAND, POR, PXOR, PNOT, PSHL1, PSHR1, PROL1, PROR1, PSHL, PSHR, PROL, PROR
(spec 41_primitives-test-bitwise-shift R107 to R121). None of them raises an error. -/

namespace Sys2Proof.Machine

/-- `PAND` (R108). -/
def execPand (rd ra rb : Reg) (s : State) : Result := writeMag s rd (bitop Nat.land (s.mag ra) (s.mag rb))

/-- `POR` (R109). -/
def execPor (rd ra rb : Reg) (s : State) : Result := writeMag s rd (bitop Nat.lor (s.mag ra) (s.mag rb))

/-- `PXOR` (R110). -/
def execPxor (rd ra rb : Reg) (s : State) : Result := writeMag s rd (bitop Nat.xor (s.mag ra) (s.mag rb))

/-- `PNOT` (R111). -/
def execPnot (rd ra : Reg) (s : State) : Result := writeMag s rd (bitnot s.cfg.width (s.mag ra))

/-- `PSHL1` (R113). -/
def execPshl1 (rd ra : Reg) (s : State) : Result := writeMag s rd (shl1 s.cfg.width (s.mag ra))

/-- `PSHR1` (R114). -/
def execPshr1 (rd ra : Reg) (s : State) : Result := writeMag s rd (shr1 s.cfg.width (s.mag ra))

/-- `PROL1` (R115). -/
def execProl1 (rd ra : Reg) (s : State) : Result := writeMag s rd (rol1 s.cfg.width (s.mag ra))

/-- `PROR1` (R116). -/
def execPror1 (rd ra : Reg) (s : State) : Result := writeMag s rd (ror1 s.cfg.width (s.mag ra))

/-- `PSHL`, by `imm16` bits (R118). -/
def execPshl (rd ra : Reg) (imm : Imm16) (s : State) : Result :=
  writeMag s rd (shl s.cfg.width (s.mag ra) imm.toNat)

/-- `PSHR`, by `imm16` bits (R119). -/
def execPshr (rd ra : Reg) (imm : Imm16) (s : State) : Result :=
  writeMag s rd (shr s.cfg.width (s.mag ra) imm.toNat)

/-- `PROL`, by `imm16` bits (R120). -/
def execProl (rd ra : Reg) (imm : Imm16) (s : State) : Result :=
  writeMag s rd (rol s.cfg.width (s.mag ra) imm.toNat)

/-- `PROR`, by `imm16` bits (R121). -/
def execPror (rd ra : Reg) (imm : Imm16) (s : State) : Result :=
  writeMag s rd (ror s.cfg.width (s.mag ra) imm.toNat)

end Sys2Proof.Machine
end

