-- ==== Sys2Proof/Machine/PrimTest.lean ====
section
/-! DEFINITION. PISZ, PISONE, PEVEN, PODD, PHSB, PLSB (spec 41_primitives-test-bitwise-shift R100 to R106). -/

namespace Sys2Proof.Machine

/-- `PISZ`: every digit is 0 (R101). -/
def execPisz (ra : Reg) (s : State) : Result := writeTruth s (isZero (s.mag ra))

/-- `PISONE`: the value is 1, whatever the leading zeros (R102). -/
def execPisone (ra : Reg) (s : State) : Result := writeTruth s (val s.cfg.width (s.mag ra) == 1)

/-- `PEVEN`: the low bit of the least significant digit is 0 (R103). -/
def execPeven (ra : Reg) (s : State) : Result := writeTruth s (!(lsd (s.mag ra) 0).testBit 0)

/-- `PODD`: the low bit of the least significant digit is 1 (R104). -/
def execPodd (ra : Reg) (s : State) : Result := writeTruth s ((lsd (s.mag ra) 0).testBit 0)

/-- `PHSB`: the top bit of the first digit, leading zeros not skipped (R105). -/
def execPhsb (ra : Reg) (s : State) : Result := writeTruth s (topBit s.cfg.width (s.mag ra))

/-- `PLSB`: bit 0 of the last digit (R106). -/
def execPlsb (ra : Reg) (s : State) : Result := writeTruth s (bottomBit (s.mag ra))

end Sys2Proof.Machine
end

