-- ==== Sys2Proof/Machine/Values.lean ====
section
/-! DEFINITION. The functions on signed values: addition by cases of sign, division with the XOR sign, increment, comparison
(spec 44_value-arith R162, R166, R170; 45 R181). -/

namespace Sys2Proof.Machine

/-- The magnitudes are added (and not subtracted) when the signs match (R162). -/
def sameSign (x y : Value) : Bool := x.neg == y.neg

/-- `vadd(x, y)` (R162). -/
def vadd (w : DigitWidth) (x y : Value) : Value :=
  if sameSign x y then { neg := x.neg, mag := add w x.mag y.mag }
  else if compareMag x.mag y.mag = .lt then { neg := y.neg, mag := sub w y.mag x.mag }
  else { neg := x.neg, mag := sub w x.mag y.mag }

/-- The product, sign = XOR of the signs (R165). -/
def vmul (w : DigitWidth) (x y : Value) : Value := { neg := x.neg ^^ y.neg, mag := mul w x.mag y.mag }

/-- The quotient half of `vdivrem(x, y)`, sign = XOR of the signs (R166); the command normalises it. -/
def vquot (w : DigitWidth) (x y : Value) : Value := { neg := x.neg ^^ y.neg, mag := (divRem w x.mag y.mag).1 }

/-- The remainder half of `vdivrem(x, y)`: the same XOR sign, not the dividend's (R166); the command normalises it. -/
def vrem (w : DigitWidth) (x y : Value) : Value := { neg := x.neg ^^ y.neg, mag := (divRem w x.mag y.mag).2 }

/-- The magnitude one greater; it grows by a digit when the carry would leave the buffer (R170). -/
def incGrow (w : DigitWidth) (a : Digits) : Digits := if isFull w a then 1 :: zeros a.length else inc w a

/-- `vcmp(x, y)` (R181). -/
def vcmp (x y : Value) : Ordering :=
  if x.neg ≠ y.neg then (if x.neg then .lt else .gt)
  else if x.neg then (compareMag x.mag y.mag).swap
  else compareMag x.mag y.mag

end Sys2Proof.Machine
end

