-- ==== Sys2Proof/Machine/ValueArith.lean ====
section
/-! DEFINITION. VADD, VSUB, VMUL, VDIV, VREM, VDIVREM, VINC, VDEC (spec 44_value-arith R160 to R171). -/

namespace Sys2Proof.Machine

/-- The sum of two values into `rd`; the capacity is tested on the adding branch only (R163, R164). -/
def addInto (s : State) (rd : Reg) (x y : Value) : Result :=
  if sameSign x y then
    ifFits s (max x.mag.length y.mag.length + 1) (writeValue s rd (vadd s.cfg.width x y))
  else writeValue s rd (vadd s.cfg.width x y)

/-- `VADD` (R163). -/
def execVadd (rd ra rb : Reg) (s : State) : Result := addInto s rd (s.reg ra) (s.reg rb)

/-- `VSUB`: the addition of the negation (R164). -/
def execVsub (rd ra rb : Reg) (s : State) : Result := addInto s rd (s.reg ra) (flipSign (s.reg rb))

/-- `VMUL` (R165). -/
def execVmul (rd ra rb : Reg) (s : State) : Result :=
  ifFits s (s.len ra + s.len rb) (writeValue s rd (vmul s.cfg.width (s.reg ra) (s.reg rb)))

/-- `VDIV`: the quotient; `DivisionByZero` is tested before anything else (R167, R221). -/
def execVdiv (rd ra rb : Reg) (s : State) : Result :=
  if isZero (s.mag rb) then fail s .divisionByZero
  else writeValue s rd (vquot s.cfg.width (s.reg ra) (s.reg rb))

/-- `VREM`: the remainder (R168). -/
def execVrem (rd ra rb : Reg) (s : State) : Result :=
  if isZero (s.mag rb) then fail s .divisionByZero
  else writeValue s rd (vrem s.cfg.width (s.reg ra) (s.reg rb))

/-- `VDIVREM`: both, written together (R169). `rd = re` is `IllegalCommand` (R251; log entry 6). -/
def execVdivrem (rd re ra rb : Reg) (s : State) : Result :=
  if rd = re then fail s .illegalCommand
  else if isZero (s.mag rb) then fail s .divisionByZero
  else writeValues s rd (vquot s.cfg.width (s.reg ra) (s.reg rb)) re (vrem s.cfg.width (s.reg ra) (s.reg rb))

/-- `VINC`: the magnitude up by one, the sign kept; capacity is tested only when the buffer grows (R170). -/
def execVinc (rd ra : Reg) (s : State) : Result :=
  if isFull s.cfg.width (s.mag ra) then
    ifFits s (s.len ra + 1) (writeValue s rd { neg := (s.reg ra).neg, mag := incGrow s.cfg.width (s.mag ra) })
  else writeValue s rd { neg := (s.reg ra).neg, mag := incGrow s.cfg.width (s.mag ra) }

/-- `VDEC`: the magnitude down by one, the sign kept; `PreconditionViolation` on zero (R171). -/
def execVdec (rd ra : Reg) (s : State) : Result :=
  if isZero (s.mag ra) then fail s .preconditionViolation
  else writeValue s rd { neg := (s.reg ra).neg, mag := dec s.cfg.width (s.mag ra) }

end Sys2Proof.Machine
end

