-- ==== Sys2Proof/Machine/ValueBits.lean ====
section
/-! DEFINITION. VAND, VOR, VXOR, VNOT, VSHL, VSHR (spec 45_value-compare-bitwise-shift R190 to R196).
Each applies the primitive function to magnitudes and takes the sign of the first source, then normalises. -/

namespace Sys2Proof.Machine

/-- A magnitude with the sign of `ra`, through the normaliser, into `rd` (R190). -/
def signedLike (s : State) (rd ra : Reg) (m : Digits) : Result :=
  writeValue s rd { neg := (s.reg ra).neg, mag := m }

/-- `VAND` (R191). -/
def execVand (rd ra rb : Reg) (s : State) : Result := signedLike s rd ra (bitop Nat.land (s.mag ra) (s.mag rb))

/-- `VOR` (R192). -/
def execVor (rd ra rb : Reg) (s : State) : Result := signedLike s rd ra (bitop Nat.lor (s.mag ra) (s.mag rb))

/-- `VXOR` (R193). -/
def execVxor (rd ra rb : Reg) (s : State) : Result := signedLike s rd ra (bitop Nat.xor (s.mag ra) (s.mag rb))

/-- `VNOT` (R194). -/
def execVnot (rd ra : Reg) (s : State) : Result := signedLike s rd ra (bitnot s.cfg.width (s.mag ra))

/-- `VSHL` (R195). -/
def execVshl (rd ra : Reg) (imm : Imm16) (s : State) : Result :=
  signedLike s rd ra (shl s.cfg.width (s.mag ra) imm.toNat)

/-- `VSHR` (R196). -/
def execVshr (rd ra : Reg) (imm : Imm16) (s : State) : Result :=
  signedLike s rd ra (shr s.cfg.width (s.mag ra) imm.toNat)

end Sys2Proof.Machine
end

