-- ==== Sys2Proof/Machine/ValueTest.lean ====
section
/-! DEFINITION. VLT, VGT, VLE, VGE, VEQ, VNE, VBOOL (spec 45_value-compare-bitwise-shift R180 to R188). -/

namespace Sys2Proof.Machine

/-- `VLT`: `vcmp` is -1 (R182). -/
def execVlt (ra rb : Reg) (s : State) : Result := writeTruth s (vcmp (s.reg ra) (s.reg rb) == .lt)

/-- `VGT`: `vcmp` is +1 (R183). -/
def execVgt (ra rb : Reg) (s : State) : Result := writeTruth s (vcmp (s.reg ra) (s.reg rb) == .gt)

/-- `VLE`: `vcmp` is not +1 (R184). -/
def execVle (ra rb : Reg) (s : State) : Result := writeTruth s (vcmp (s.reg ra) (s.reg rb) != .gt)

/-- `VGE`: `vcmp` is not -1 (R185). -/
def execVge (ra rb : Reg) (s : State) : Result := writeTruth s (vcmp (s.reg ra) (s.reg rb) != .lt)

/-- `VEQ`: `vcmp` is 0 (R186). -/
def execVeq (ra rb : Reg) (s : State) : Result := writeTruth s (vcmp (s.reg ra) (s.reg rb) == .eq)

/-- `VNE`: `vcmp` is not 0 (R187). -/
def execVne (ra rb : Reg) (s : State) : Result := writeTruth s (vcmp (s.reg ra) (s.reg rb) != .eq)

/-- `VBOOL`: the magnitude is not zero; the sign is irrelevant (R188). -/
def execVbool (ra : Reg) (s : State) : Result := writeTruth s (!isZero (s.mag ra))

end Sys2Proof.Machine
end

