-- ==== Sys2Proof/Machine/Dispatch.lean ====
section
/-! DEFINITION. One command's execution, dispatched to its meaning (spec 30_encoding R60). -/

namespace Sys2Proof.Machine

def exec (i : Instr) (s : State) : Host.Outcome State Fault Refusal :=
  match i with
  | .nop => Sys2Proof.Machine.execNop s
  | .ldd rd neg payload => Sys2Proof.Machine.execLdd rd neg payload s
  | .ldi rd imm => Sys2Proof.Machine.execLdi rd imm s
  | .mov rd ra => Sys2Proof.Machine.execMov rd ra s
  | .rdv ra => Sys2Proof.Machine.execRdv ra s
  | .padd rd ra rb => Sys2Proof.Machine.execPadd rd ra rb s
  | .psub rd ra rb => Sys2Proof.Machine.execPsub rd ra rb s
  | .pmul rd ra rb => Sys2Proof.Machine.execPmul rd ra rb s
  | .pmuld rd ra rb => Sys2Proof.Machine.execPmuld rd ra rb s
  | .pdivrem rd re ra rb => Sys2Proof.Machine.execPdivrem rd re ra rb s
  | .pinc rd => Sys2Proof.Machine.execPinc rd s
  | .pdec rd => Sys2Proof.Machine.execPdec rd s
  | .pcmp ra rb => Sys2Proof.Machine.execPcmp ra rb s
  | .pisz ra => Sys2Proof.Machine.execPisz ra s
  | .pisone ra => Sys2Proof.Machine.execPisone ra s
  | .peven ra => Sys2Proof.Machine.execPeven ra s
  | .podd ra => Sys2Proof.Machine.execPodd ra s
  | .phsb ra => Sys2Proof.Machine.execPhsb ra s
  | .plsb ra => Sys2Proof.Machine.execPlsb ra s
  | .pand rd ra rb => Sys2Proof.Machine.execPand rd ra rb s
  | .por rd ra rb => Sys2Proof.Machine.execPor rd ra rb s
  | .pxor rd ra rb => Sys2Proof.Machine.execPxor rd ra rb s
  | .pnot rd ra => Sys2Proof.Machine.execPnot rd ra s
  | .pshl1 rd ra => Sys2Proof.Machine.execPshl1 rd ra s
  | .pshr1 rd ra => Sys2Proof.Machine.execPshr1 rd ra s
  | .prol1 rd ra => Sys2Proof.Machine.execProl1 rd ra s
  | .pror1 rd ra => Sys2Proof.Machine.execPror1 rd ra s
  | .pshl rd ra imm => Sys2Proof.Machine.execPshl rd ra imm s
  | .pshr rd ra imm => Sys2Proof.Machine.execPshr rd ra imm s
  | .prol rd ra imm => Sys2Proof.Machine.execProl rd ra imm s
  | .pror rd ra imm => Sys2Proof.Machine.execPror rd ra imm s
  | .vadd rd ra rb => Sys2Proof.Machine.execVadd rd ra rb s
  | .vsub rd ra rb => Sys2Proof.Machine.execVsub rd ra rb s
  | .vmul rd ra rb => Sys2Proof.Machine.execVmul rd ra rb s
  | .vdiv rd ra rb => Sys2Proof.Machine.execVdiv rd ra rb s
  | .vrem rd ra rb => Sys2Proof.Machine.execVrem rd ra rb s
  | .vdivrem rd re ra rb => Sys2Proof.Machine.execVdivrem rd re ra rb s
  | .vinc rd ra => Sys2Proof.Machine.execVinc rd ra s
  | .vdec rd ra => Sys2Proof.Machine.execVdec rd ra s
  | .vlt ra rb => Sys2Proof.Machine.execVlt ra rb s
  | .vgt ra rb => Sys2Proof.Machine.execVgt ra rb s
  | .vle ra rb => Sys2Proof.Machine.execVle ra rb s
  | .vge ra rb => Sys2Proof.Machine.execVge ra rb s
  | .veq ra rb => Sys2Proof.Machine.execVeq ra rb s
  | .vne ra rb => Sys2Proof.Machine.execVne ra rb s
  | .vbool ra => Sys2Proof.Machine.execVbool ra s
  | .vand rd ra rb => Sys2Proof.Machine.execVand rd ra rb s
  | .vor rd ra rb => Sys2Proof.Machine.execVor rd ra rb s
  | .vxor rd ra rb => Sys2Proof.Machine.execVxor rd ra rb s
  | .vnot rd ra => Sys2Proof.Machine.execVnot rd ra s
  | .vshl rd ra imm => Sys2Proof.Machine.execVshl rd ra imm s
  | .vshr rd ra imm => Sys2Proof.Machine.execVshr rd ra imm s

end Sys2Proof.Machine
end

