-- ==== Sys2Proof/Machine/Input.lean ====
section
/-! DEFINITION. Taking one input of the host: a command is decoded and executed, reset clears the machine
(spec 00_scope R16, 30_encoding R61, 60_exceptions R223, 70_reset_and_hazards R245, R246, R260). -/

namespace Sys2Proof.Machine

/-- One command, decoded and executed. A command the decoder rejects, for whatever reason, is an
`IllegalCommand` error (R61, R223), before any register is read (R229). -/
def State.issue (s : State) (c : Command) : Result :=
  match decode c with
  | .ok i => exec i s
  | .error _ => fail s .illegalCommand

/-- Take the oldest input of the host and carry it out. With none nothing changes: every state change is caused
by a command or by reset (R232; log entry 3). -/
def State.takeInput (s : State) : Result :=
  match s.pending with
  | [] => .next s
  | .reset :: rest => .next { s with pending := rest }.resetEvent
  | .command c :: rest => { s with pending := rest }.issue c

/-- The host's next input is the command `c`; whatever it was to send before comes after it. -/
def State.place (s : State) (c : Command) : State := { s with pending := .command c :: s.pending }

end Sys2Proof.Machine
end

