-- ==== Sys2Proof/Machine/Step.lean ====
section
/-! DEFINITION. One step of the machine, and where the next command is taken from (spec 00_scope R16, 10_state R25). -/

namespace Sys2Proof.Machine

/-- One step is one input of the host (R16, R49). -/
def step (s : State) : Host.Outcome State Fault Refusal := s.takeInput

/-- `s` with the table's word as the host's next command. The machine has no program counter and no program store:
the program is the host's list of commands (R25, R259; log entries 3 and 6). -/
def State.withFetchWord (s : State) (nbits w : Nat) : State := s.place (tableCommand nbits w)

end Sys2Proof.Machine
end

