-- ==== Sys2Proof/Safety.lean ====
section
/-! DEFINITION. What counts as a sound state, and the ways one command can end, in the terms the claims use
(spec 10_state R23, R27 to R31; 60_exceptions R225, R226). -/

namespace Sys2Proof.Machine

/-! ## Sound states -/

/-- Every digit of every register is below the radix (R9, R21). -/
def State.InRange (s : State) : Prop := ∀ r, digitsFit s.cfg.width (s.mag r) = true

/-- Every register is normalised: a zero is not negative (R11, R23). -/
def State.Normalised (s : State) : Prop := ∀ r, isZero (s.mag r) = true → (s.reg r).neg = false

/-- The invariant of R23 and of the layout of `STATUS` (R27, R220): what every state reached from reset satisfies. -/
structure State.Inv (s : State) : Prop where
  /-- The instance is one the hardware can be built as (R6). -/
  instanceValid : s.cfg.valid = true
  inRange : s.InRange
  normalised : s.Normalised
  /-- No register is longer than `MAXD` (R21, R23). -/
  capacity : ∀ r, s.fits (s.len r) = true
  /-- Bits 31:9 read as 0 (R27). -/
  reservedZero : s.reserved = 0#23
  /-- Codes 5 to 7 are never produced (R220). -/
  errCode : s.err.toNat ≤ 4
  ferrCode : s.ferr.toNat ≤ 4
  /-- `10` is never produced in `CMP` (R27). -/
  cmpCode : s.cmp ≠ 0b10#2
  /-- An error that has just been reported is recorded in `FERR` (R29). -/
  recorded : s.err ≠ 0#3 → s.ferr ≠ 0#3
  /-- What the host has still to send can be carried by the port (R56, R148; log entry 5). -/
  sendable : ∀ c, HostEvent.command c ∈ s.pending → digitsFit s.cfg.width c.payload = true

/-! ## How one command ends -/

/-- The command succeeded: `ERR` is 0, `FERR` and the reserved bits are as before, the response carries the new
`STATUS` and `v`, and neither the instance nor the host's list changed (R28, R29, R62). -/
structure Succeeded (s t : State) (v : Option Value) : Prop where
  err : t.err = 0#3
  ferr : t.ferr = s.ferr
  reserved : t.reserved = s.reserved
  response : t.response = some { status := t.status, value := v }
  cfg : t.cfg = s.cfg
  pending : t.pending = s.pending

/-- It succeeded and wrote the flags `T = b` and `CMP = c`, and the registers `regs`. -/
def SucceededWith (s t : State) (v : Option Value) (b : Bool) (c : BitVec 2) (regs : Reg → Value) : Prop :=
  Succeeded s t v ∧ t.truth = b ∧ t.cmp = c ∧ ∀ r, t.reg r = regs r

/-- It succeeded, wrote `v` into `rd`, and changed no other register and no flag. -/
def Wrote (s t : State) (rd : Reg) (v : Value) : Prop :=
  SucceededWith s t none s.truth s.cmp fun r => if r = rd then v else s.reg r

/-- It succeeded, wrote `v` into `rd` and `u` into `re` together, and changed no other register and no flag. -/
def WroteBoth (s t : State) (rd : Reg) (v : Value) (re : Reg) (u : Value) : Prop :=
  SucceededWith s t none s.truth s.cmp fun r => if r = re then u else if r = rd then v else s.reg r

/-- It succeeded, wrote the truth value `b` into `T`, and changed no register and not `CMP`. -/
def WroteTruth (s t : State) (b : Bool) : Prop := SucceededWith s t none b s.cmp s.reg

/-- It succeeded, wrote `c` into `CMP`, and changed no register and not `T`. -/
def WroteCmp (s t : State) (c : BitVec 2) : Prop := SucceededWith s t none s.truth c s.reg

/-- It succeeded with no register and no flag changed; the response carries `v`. -/
def WroteNothing (s t : State) (v : Option Value) : Prop := SucceededWith s t v s.truth s.cmp s.reg

/-- It raised `e`: the code in `ERR`, the first code since reset in `FERR`, the response without a value, and
nothing else changed (R225, R226). -/
structure Raised (s t : State) (e : Error) : Prop where
  err : t.err = e.code
  ferr : t.ferr = if s.ferr = 0#3 then e.code else s.ferr
  truth : t.truth = s.truth
  cmp : t.cmp = s.cmp
  reserved : t.reserved = s.reserved
  regs : ∀ r, t.reg r = s.reg r
  response : t.response = some { status := t.status, value := none }
  cfg : t.cfg = s.cfg
  pending : t.pending = s.pending

/-- Executing `i` on `s` answers a next state of which `P` holds. -/
def Ends (i : Instr) (s : State) (P : State → Prop) : Prop := ∃ t, exec i s = .next t ∧ P t

/-! ## Values in closed form -/

/-- A magnitude of `n` digits with the sign `neg`, a zero non-negative (R11, R145). -/
def signedDigits (w : DigitWidth) (neg : Bool) (n v : Nat) : Value :=
  { neg := neg && decide (v ≠ 0), mag := fromNat w n v }

/-- The integer `z` as a sign and `n` digits (R11). -/
def ofInt (w : DigitWidth) (n : Nat) (z : Int) : Value := { neg := decide (z < 0), mag := fromNat w n z.natAbs }

/-- The signed number in register `r` (R11). -/
def State.num (s : State) (r : Reg) : Int := sval s.cfg.width (s.reg r)

/-- The number the digits of register `r` stand for, its sign ignored (R9). -/
def State.nat (s : State) (r : Reg) : Nat := val s.cfg.width (s.mag r)

/-- The commands that write `T` (R30). -/
def isTest : Instr → Bool
  | .pisz _ | .pisone _ | .peven _ | .podd _ | .phsb _ | .plsb _ => true
  | .vlt _ _ | .vgt _ _ | .vle _ _ | .vge _ _ | .veq _ _ | .vne _ _ | .vbool _ => true
  | _ => false

/-- The command that writes `CMP` (R31). -/
def isCompare : Instr → Bool
  | .pcmp _ _ => true
  | _ => false

end Sys2Proof.Machine
end

