-- ==== Sys2Proof/Certificates/Slice0/Obligations.lean ====
section
/-! DEFINITION. The statements for the provers. `Ends i s P`: executing `i` on `s` answers a next state of which `P` holds.
`Wrote`, `WroteBoth`, `WroteTruth`, `WroteCmp`, `WroteNothing` and `Raised` (Sys2Proof/Safety.lean) each say the whole
next state: what was written, and that every other register, flag and field is as before. -/

open Sys2Proof Sys2Proof.Machine

/-! ## Decoding and encoding -/

/-- R57 to R60: words written out from the formats decode to the commands they stand for, one or more of each format. -/
def Obligations.WordsOfTheSpecDecode : Prop :=
  decode ⟨0x00000000#32, []⟩ = .ok .nop ∧
  decode ⟨0x01180002#32, [0x38, 0x22]⟩ = .ok (.ldd 1 true [0x38, 0x22]) ∧
  decode ⟨0x02001A03#32, []⟩ = .ok (.ldi 0 0x1A03#16) ∧
  decode ⟨0x04070000#32, []⟩ = .ok (.rdv 7) ∧
  decode ⟨0x14423500#32, []⟩ = .ok (.pdivrem 4 5 2 3) ∧
  decode ⟨0x16000000#32, []⟩ = .ok (.pdec 0) ∧
  decode ⟨0x3A100011#32, []⟩ = .ok (.prol 1 0 0x0011#16) ∧
  decode ⟨0x40441000#32, []⟩ = .ok (.vadd 4 4 1) ∧
  decode ⟨0x5004A000#32, []⟩ = .ok (.vlt 4 10) ∧
  decode ⟨0x63100000#32, []⟩ = .ok (.vnot 1 0)

/-- R57 to R61: no bit of an encoding is dropped. Every well-formed command of every instance is read back from
the word and payload it is encoded as. -/
def Obligations.DecodeUndoesEncode : Prop :=
  ∀ (w : DigitWidth) (i : Instr), i.wf w = true → decode (encode i) = .ok i

/-- R61: each word with each payload is one command only: a command that decodes to `i` is the encoding of `i`. -/
def Obligations.EncodeUndoesDecode : Prop :=
  ∀ (c : Command) (i : Instr), decode c = .ok i → encode i = c

/-- R60: a word is a row's command exactly when `(word and mask) = match`: what decodes matches its row, and a word
that matches a row, with the payload that R61 asks for and different destinations, decodes to a command of that row. -/
def Obligations.DecodingFollowsTheOpcodeMap : Prop :=
  (∀ (c : Command) (i : Instr), decode c = .ok i → c.word &&& i.row.mask = i.row.pattern) ∧
  ∀ (c : Command) (i : Instr), c.word &&& i.row.mask = i.row.pattern →
    (if opcodeOf c.word = 0x01#8 then c.payload.length = countOf c.word else c.payload = []) →
    (opcodeOf c.word = 0x14#8 ∨ opcodeOf c.word = 0x45#8 → rdOf c.word ≠ reOf c.word) →
    ∃ j, decode c = .ok j ∧ j.row = i.row

/-- R63: every one of the 204 reserved opcodes is rejected, whatever the other bits and the payload, and no other
opcode is rejected for that reason. -/
def Obligations.ReservedOpcodesAreRejected : Prop :=
  ∀ c : Command, decode c = .error .reservedOpcode ↔
    let op := (opcodeOf c.word).toNat
    (0x05 ≤ op ∧ op ≤ 0x0F) ∨ (0x18 ≤ op ∧ op ≤ 0x1F) ∨ (0x26 ≤ op ∧ op ≤ 0x2F) ∨ (0x3C ≤ op ∧ op ≤ 0x3F) ∨
      (0x48 ≤ op ∧ op ≤ 0x4F) ∨ (0x57 ≤ op ∧ op ≤ 0x5F) ∨ 0x66 ≤ op

/-! ## The step -/

/-- R16, R61: when the host's next input is a command that decodes to `i`, the step is the execution of `i` on the
state with that input taken. (The list of inputs is the model's own field, log entry 3.) -/
def Obligations.StepRunsTheDecodedCommand : Prop :=
  ∀ (s : State) (c : Command) (rest : List HostEvent) (i : Instr),
    s.pending = .command c :: rest → decode c = .ok i → step s = exec i { s with pending := rest }

/-- R61, R223: when the host's next input is a command the decoder rejects, for any of its reasons, the step is the
error entry of `IllegalCommand`, and nothing else. (That inputs stand in a list is the model's choice, log entry 3.) -/
def Obligations.RejectedCommandsRaiseIllegalCommand : Prop :=
  ∀ (s : State) (c : Command) (rest : List HostEvent) (r : Reject),
    s.pending = .command c :: rest → decode c = .error r →
      ∃ t, step s = .next t ∧ Raised { s with pending := rest } t .illegalCommand

/-- R245: the reset event empties every register, clears all of `STATUS`, and gives no response; the instance and what
the host has still to send stay (log entries 1 and 3). -/
def Obligations.ResetEventClearsTheMachine : Prop :=
  ∀ (s : State) (rest : List HostEvent), s.pending = .reset :: rest →
    ∃ t, step s = .next t ∧ (∀ r, t.reg r = { neg := false, mag := [] }) ∧ t.status = 0#32 ∧ t.response = none ∧
      t.cfg = s.cfg ∧ t.pending = rest

/-- R36: after reset every register is the empty, non-negative value and every field of `STATUS` is 0, for every
instance. -/
def Obligations.ResetStateHoldsTheStatedValues : Prop :=
  ∀ c : Config, (∀ r, (State.resetOf c).reg r = { neg := false, mag := [] }) ∧ (State.resetOf c).err = 0#3 ∧
    (State.resetOf c).truth = false ∧ (State.resetOf c).cmp = 0b00#2 ∧ (State.resetOf c).ferr = 0#3 ∧
    (State.resetOf c).reserved = 0#23

/-- The model's choice (log entry 3), which R232 backs: with nothing sent by the host, nothing changes. -/
def Obligations.WithoutInputNothingChanges : Prop :=
  ∀ s : State, s.pending = [] → step s = .next s

/-! ## The whole machine -/

/-- The reset state of every instance that can be built is sound (R23, R36). -/
def Obligations.ResetIsSound : Prop :=
  (∀ c : Config, c.valid = true → (State.resetOf c).Inv) ∧ State.reset.Inv

/-- R23, R27, R220: every step keeps the invariant: registers normalised, digits in range, no register longer than
`MAXD`, reserved bits 0, only the codes that exist, an error recorded. From every sound state, not only from reset. -/
def Obligations.EveryStepKeepsSoundness : Prop :=
  ∀ s t : State, s.Inv → step s = .next t → t.Inv

/-- R17: every command terminates with an answer: on every state, a command whose payload a port of the instance can
carry has a next state. It never stops the machine. -/
def Obligations.EveryCommandCompletes : Prop :=
  ∀ (i : Instr) (s : State), i.payloadFits s.cfg.width = true → ∃ t, exec i s = .next t

/-- R16: the step is total on sound states: it neither faults nor refuses. -/
def Obligations.StepIsTotalOnSoundStates : Prop :=
  ∀ s : State, s.Inv → ∃ t, step s = .next t

/-- R29: `FERR` takes the error code of the command when `FERR` was 0 (and stays 0 when there is none), and keeps its
value otherwise. For every command, rejected ones included. -/
def Obligations.FerrKeepsTheFirstError : Prop :=
  ∀ (c : Command) (s t : State), s.issue c = .next t → t.ferr = if s.ferr = 0#3 then t.err else s.ferr

/-- R225: a command that raises an error, whichever it is, writes no value register, and leaves `T` and `CMP` unchanged. -/
def Obligations.FailedCommandsWriteNothing : Prop :=
  ∀ (c : Command) (s t : State), s.issue c = .next t → t.err ≠ 0#3 →
    (∀ r, t.reg r = s.reg r) ∧ t.truth = s.truth ∧ t.cmp = s.cmp

/-- R30: every command but the tests, and every command that raises an error, leaves `T` unchanged. -/
def Obligations.OnlyTestsWriteTruth : Prop :=
  ∀ (c : Command) (s t : State), s.issue c = .next t →
    (∀ i, decode c = .ok i → isTest i = false) ∨ t.err ≠ 0#3 → t.truth = s.truth

/-- R31: every command but `PCMP`, and every command that raises an error, leaves `CMP` unchanged. -/
def Obligations.OnlyPcmpWritesCmp : Prop :=
  ∀ (c : Command) (s t : State), s.issue c = .next t →
    (∀ i, decode c = .ok i → isCompare i = false) ∨ t.err ≠ 0#3 → t.cmp = s.cmp

/-- R62: every response carries `STATUS` as it stands after the command, and a value for `RDV` alone (which never
fails, R152): the register read. -/
def Obligations.ResponseCarriesStatus : Prop :=
  ∀ (c : Command) (s t : State), s.issue c = .next t →
    ∃ v, t.response = some { status := t.status, value := v } ∧
      ((∀ ra, decode c ≠ .ok (.rdv ra)) → v = none) ∧ ∀ ra, decode c = .ok (.rdv ra) → v = some (t.reg ra)

/-- R26: no command reads a field of `STATUS` as an operand: whatever `STATUS` holds before, the same command on the same
registers raises the same error or none, and writes the same registers, the same `T` and the same `CMP`. -/
def Obligations.StatusIsNeverAnOperand : Prop :=
  ∀ (i : Instr) (s t t' : State) (st : Word), exec i s = .next t → exec i { s with status := st } = .next t' →
    t'.err = t.err ∧ (∀ r, t'.reg r = t.reg r) ∧ (isTest i = true → t'.truth = t.truth) ∧
      (isCompare i = true → t'.cmp = t.cmp)

/-- R20, R27: no command changes the instance or the reserved bits of `STATUS`.
The clause on `pending` is the model's own, and no rule's: the list of inputs is a field the model adds, which no command
reads or changes (log entry 3). That the instance is kept in the state at all is the model's too (log entry 1). -/
def Obligations.InstanceAndReservedBitsStay : Prop :=
  ∀ (i : Instr) (s t : State), exec i s = .next t →
    t.cfg = s.cfg ∧ t.reserved = s.reserved ∧ t.pending = s.pending

/-! ## Data movement

Each of the statements below on a command says its encoding (format and opcode, R57, R60) beside its effect. -/

/-- R150: `NOP` writes `ERR <- 0` and nothing else. -/
def Obligations.NopOnlyClearsErr : Prop :=
  encodeWord .nop = 0x00000000#32 ∧ ∀ s : State, Ends .nop s fun t => WroteNothing s t none

/-- R147: `LDD` loads the payload, leading zeros kept, with the sign `s` unless the payload is zero;
`CapacityExceeded` when `count > MAXD`. -/
def Obligations.LddLoadsThroughTheNormaliser : Prop :=
  ∀ (s : State) (rd : Reg) (neg : Bool) (p : Digits),
    encode (.ldd rd neg p) = { word := wordL 0x01#8 rd neg p.length, payload := p } ∧
    (digitsFit s.cfg.width p = true →
      if s.fits p.length then
        Ends (.ldd rd neg p) s fun t => Wrote s t rd { neg := neg && decide (val s.cfg.width p ≠ 0), mag := p }
      else Ends (.ldd rd neg p) s fun t => Raised s t .capacityExceeded)

/-- The model's choice (log entry 5): a payload with a number that no `W`-bit port can carry, which R148 says cannot
occur, stops the model. -/
def Obligations.LddStopsOnAPayloadNoPortCarries : Prop :=
  ∀ (s : State) (rd : Reg) (neg : Bool) (p : Digits), digitsFit s.cfg.width p = false →
    exec (.ldd rd neg p) s = .fault .payloadNotDigits

/-- R149: `LDI` loads the immediate as two digits for `W = 8` and as one digit for `W = 16` and `W = 32`. -/
def Obligations.LdiLoadsTheImmediate : Prop :=
  ∀ (s : State) (rd : Reg) (imm : Imm16), encodeWord (.ldi rd imm) = wordDI 0x02#8 rd imm ∧
    Ends (.ldi rd imm) s fun t =>
      Wrote s t rd { neg := false,
                     mag := if s.cfg.width = .w8 then [imm.toNat / 256, imm.toNat % 256] else [imm.toNat] }

/-- R151: `MOV` copies sign, length and every digit. -/
def Obligations.MovCopies : Prop :=
  ∀ (s : State) (rd ra : Reg), encodeWord (.mov rd ra) = wordR2 0x03#8 rd ra ∧
    Ends (.mov rd ra) s fun t => Wrote s t rd (s.reg ra)

/-- R152: `RDV` puts the register into the response exactly as stored and changes no register. -/
def Obligations.RdvReadsOut : Prop :=
  ∀ (s : State) (ra : Reg), encodeWord (.rdv ra) = wordS1 0x04#8 ra ∧
    Ends (.rdv ra) s fun t => WroteNothing s t (some (s.reg ra))

/-! ## Primitive arithmetic -/

/-- R84: `PADD` writes the sum of the magnitudes in `max(la, lb) + 1` digits. -/
def Obligations.PaddAdds : Prop :=
  ∀ (s : State) (rd ra rb : Reg), encodeWord (.padd rd ra rb) = wordR3 0x10#8 rd ra rb ∧
    if s.fits (max (s.len ra) (s.len rb) + 1) then
      Ends (.padd rd ra rb) s fun t =>
        Wrote s t rd { neg := false, mag := fromNat s.cfg.width (max (s.len ra) (s.len rb) + 1) (s.nat ra + s.nat rb) }
    else Ends (.padd rd ra rb) s fun t => Raised s t .capacityExceeded

/-- R86: `PSUB` writes the difference in `max(la, lb)` digits, or raises `PreconditionViolation` when the minuend is
the smaller. -/
def Obligations.PsubSubtracts : Prop :=
  ∀ (s : State) (rd ra rb : Reg), s.InRange → encodeWord (.psub rd ra rb) = wordR3 0x11#8 rd ra rb ∧
    if s.nat ra < s.nat rb then Ends (.psub rd ra rb) s fun t => Raised s t .preconditionViolation
    else
      Ends (.psub rd ra rb) s fun t =>
        Wrote s t rd { neg := false, mag := fromNat s.cfg.width (max (s.len ra) (s.len rb)) (s.nat ra - s.nat rb) }

/-- R88: `PMUL` writes the product in `la + lb` digits. -/
def Obligations.PmulMultiplies : Prop :=
  ∀ (s : State) (rd ra rb : Reg), s.InRange → encodeWord (.pmul rd ra rb) = wordR3 0x12#8 rd ra rb ∧
    if s.fits (s.len ra + s.len rb) then
      Ends (.pmul rd ra rb) s fun t =>
        Wrote s t rd { neg := false, mag := fromNat s.cfg.width (s.len ra + s.len rb) (s.nat ra * s.nat rb) }
    else Ends (.pmul rd ra rb) s fun t => Raised s t .capacityExceeded

/-- R90: `PMULD` multiplies by the least significant digit of `rb` alone (0 when `rb` is empty), in `la + 1` digits. -/
def Obligations.PmuldMultipliesByOneDigit : Prop :=
  ∀ (s : State) (rd ra rb : Reg), s.InRange → encodeWord (.pmuld rd ra rb) = wordR3 0x13#8 rd ra rb ∧
    if s.fits (s.len ra + 1) then
      Ends (.pmuld rd ra rb) s fun t =>
        Wrote s t rd
          { neg := false, mag := fromNat s.cfg.width (s.len ra + 1) (s.nat ra * (s.nat rb % s.cfg.width.radix)) }
    else Ends (.pmuld rd ra rb) s fun t => Raised s t .capacityExceeded

/-- R94: `PINC` adds one in place, or raises `PreconditionViolation` when the carry would leave the buffer (the register
is empty or every digit is `R-1`). -/
def Obligations.PincIncrements : Prop :=
  ∀ (s : State) (rd : Reg), s.InRange → encodeWord (.pinc rd) = wordD1 0x15#8 rd ∧
    if s.nat rd + 1 = s.cfg.width.radix ^ s.len rd then
      Ends (.pinc rd) s fun t => Raised s t .preconditionViolation
    else
      Ends (.pinc rd) s fun t => Wrote s t rd { neg := false, mag := fromNat s.cfg.width (s.len rd) (s.nat rd + 1) }

/-- R95: `PDEC` subtracts one in place, or raises `PreconditionViolation` on zero. -/
def Obligations.PdecDecrements : Prop :=
  ∀ (s : State) (rd : Reg), s.InRange → encodeWord (.pdec rd) = wordD1 0x16#8 rd ∧
    if s.nat rd = 0 then Ends (.pdec rd) s fun t => Raised s t .preconditionViolation
    else
      Ends (.pdec rd) s fun t => Wrote s t rd { neg := false, mag := fromNat s.cfg.width (s.len rd) (s.nat rd - 1) }

/-- R93: `PCMP` writes the order of the magnitudes into `CMP`, signs ignored. -/
def Obligations.PcmpComparesMagnitudes : Prop :=
  ∀ (s : State) (ra rb : Reg), s.InRange → encodeWord (.pcmp ra rb) = wordS2 0x17#8 ra rb ∧
    Ends (.pcmp ra rb) s fun t =>
      WroteCmp s t (if s.nat ra < s.nat rb then 0b11#2 else if s.nat rb < s.nat ra then 0b01#2 else 0b00#2)

/-- R96, R83: no result of the primitive arithmetic is reduced modulo anything: on every state with digits in range,
whatever one of these commands writes without error has exactly the value of the operation. -/
def Obligations.PrimitiveArithmeticIsExact : Prop :=
  ∀ (s t : State) (rd ra rb : Reg), s.InRange → t.err = 0#3 →
    (exec (.padd rd ra rb) s = .next t → t.nat rd = s.nat ra + s.nat rb) ∧
    (exec (.psub rd ra rb) s = .next t → t.nat rd + s.nat rb = s.nat ra) ∧
    (exec (.pmul rd ra rb) s = .next t → t.nat rd = s.nat ra * s.nat rb) ∧
    (exec (.pmuld rd ra rb) s = .next t → t.nat rd = s.nat ra * (s.nat rb % s.cfg.width.radix)) ∧
    (exec (.pinc rd) s = .next t → t.nat rd = s.nat rd + 1) ∧
    (exec (.pdec rd) s = .next t → t.nat rd + 1 = s.nat rd)

/-! ## Division -/

/-- R135: `search_digit` returns the digit `Down` in `[0, R)` with `Down * val(B) <= val(w) < (Down + 1) * val(B)`,
for every window the loop presents (`val(w) < R * val(B)`). -/
def Obligations.SearchFindsTheQuotientDigit : Prop :=
  ∀ (w : DigitWidth) (x b : Digits), digitsFit w x = true → digitsFit w b = true →
    val w x < w.radix * val w b →
      searchDigit w x b < w.radix ∧ searchDigit w x b * val w b ≤ val w x ∧
        val w x < (searchDigit w x b + 1) * val w b

/-- R137: the division engine (strip, window, binary search for each digit) meets its closed form on every dividend
and every divisor that is not zero. -/
def Obligations.DivisionEngineMeetsItsClosedForm : Prop :=
  ∀ (w : DigitWidth) (a b : Digits), digitsFit w a = true → digitsFit w b = true → val w b ≠ 0 →
    divRem w a b = (strip (fromNat w a.length (val w a / val w b)), fromNat w (eff b) (val w a % val w b))

/-- R139: `PDIVREM` writes the quotient without leading zeros and the remainder in `eff(b)` digits, together; a zero
divisor raises `DivisionByZero`, and `rd = re` is `IllegalCommand`. -/
def Obligations.PdivremDivides : Prop :=
  ∀ (s : State) (rd re ra rb : Reg), s.InRange → encodeWord (.pdivrem rd re ra rb) = wordR4 0x14#8 rd re ra rb ∧
    if rd = re then Ends (.pdivrem rd re ra rb) s fun t => Raised s t .illegalCommand
    else if s.nat rb = 0 then Ends (.pdivrem rd re ra rb) s fun t => Raised s t .divisionByZero
    else
      Ends (.pdivrem rd re ra rb) s fun t =>
        WroteBoth s t rd { neg := false, mag := strip (fromNat s.cfg.width (s.len ra) (s.nat ra / s.nat rb)) }
          re { neg := false, mag := fromNat s.cfg.width (eff (s.mag rb)) (s.nat ra % s.nat rb) }

/-- R251: a division command with `rd = re` is not well formed: the decoder rejects it and issuing it raises
`IllegalCommand` and writes nothing, for either command and every register. -/
def Obligations.SameDestinationsAreIllegal : Prop :=
  ∀ (s : State) (rd ra rb : Reg),
    decode (encode (.pdivrem rd rd ra rb)) = .error .sameDestinations ∧
    decode (encode (.vdivrem rd rd ra rb)) = .error .sameDestinations ∧
    (∃ t, s.issue (encode (.pdivrem rd rd ra rb)) = .next t ∧ Raised s t .illegalCommand) ∧
    (∃ t, s.issue (encode (.vdivrem rd rd ra rb)) = .next t ∧ Raised s t .illegalCommand)

/-! ## Primitive tests -/

/-- R101 to R104: `PISZ`, `PISONE`, `PEVEN` and `PODD` write whether the magnitude is zero, one, even, odd. -/
def Obligations.ZeroOneAndParityTests : Prop :=
  ∀ (s : State) (ra : Reg), s.InRange →
    (encodeWord (.pisz ra) = wordS1 0x20#8 ra ∧ encodeWord (.pisone ra) = wordS1 0x21#8 ra ∧
      encodeWord (.peven ra) = wordS1 0x22#8 ra ∧ encodeWord (.podd ra) = wordS1 0x23#8 ra) ∧
    Ends (.pisz ra) s (fun t => WroteTruth s t (decide (s.nat ra = 0))) ∧
    Ends (.pisone ra) s (fun t => WroteTruth s t (decide (s.nat ra = 1))) ∧
    Ends (.peven ra) s (fun t => WroteTruth s t (decide (s.nat ra % 2 = 0))) ∧
    Ends (.podd ra) s (fun t => WroteTruth s t (decide (s.nat ra % 2 = 1)))

/-- R105, R106: `PHSB` writes the top bit of the buffer, bit `W * len - 1`, and `PLSB` its bit 0; both are false on
the empty sequence. -/
def Obligations.BoundaryBitProbes : Prop :=
  ∀ (s : State) (ra : Reg), s.InRange →
    (encodeWord (.phsb ra) = wordS1 0x24#8 ra ∧ encodeWord (.plsb ra) = wordS1 0x25#8 ra) ∧
    Ends (.phsb ra) s (fun t =>
      WroteTruth s t (decide (0 < s.len ra) && (s.nat ra).testBit (s.cfg.width.bits * s.len ra - 1))) ∧
    Ends (.plsb ra) s (fun t => WroteTruth s t (decide (0 < s.len ra) && (s.nat ra).testBit 0))

/-! ## Primitive bitwise, shift and rotate -/

/-- R108 to R111: `PAND`, `POR`, `PXOR` act bit by bit on the values in `max(la, lb)` digits, and `PNOT` inverts every
bit of the `la` digits. -/
def Obligations.BitwiseOnMagnitudes : Prop :=
  ∀ (s : State) (rd ra rb : Reg), s.InRange →
    let w := s.cfg.width
    let n := max (s.len ra) (s.len rb)
    (encodeWord (.pand rd ra rb) = wordR3 0x30#8 rd ra rb ∧ encodeWord (.por rd ra rb) = wordR3 0x31#8 rd ra rb ∧
      encodeWord (.pxor rd ra rb) = wordR3 0x32#8 rd ra rb ∧ encodeWord (.pnot rd ra) = wordR2 0x33#8 rd ra) ∧
    Ends (.pand rd ra rb) s (fun t => Wrote s t rd { neg := false, mag := fromNat w n (s.nat ra &&& s.nat rb) }) ∧
    Ends (.por rd ra rb) s (fun t => Wrote s t rd { neg := false, mag := fromNat w n (s.nat ra ||| s.nat rb) }) ∧
    Ends (.pxor rd ra rb) s (fun t => Wrote s t rd { neg := false, mag := fromNat w n (s.nat ra ^^^ s.nat rb) }) ∧
    Ends (.pnot rd ra) s (fun t =>
      Wrote s t rd { neg := false, mag := fromNat w (s.len ra) (w.radix ^ s.len ra - 1 - s.nat ra) })

/-- R112 to R116: the one-bit shifts and rotates in values, over the buffer's `N = W * la` bits, length kept
(so an empty register stays empty). -/
def Obligations.OneBitShiftsAndRotates : Prop :=
  ∀ (s : State) (rd ra : Reg), s.InRange →
    let w := s.cfg.width
    let n := s.len ra
    let N := w.bits * n
    let a := s.nat ra
    (encodeWord (.pshl1 rd ra) = wordR2 0x34#8 rd ra ∧ encodeWord (.pshr1 rd ra) = wordR2 0x35#8 rd ra ∧
      encodeWord (.prol1 rd ra) = wordR2 0x36#8 rd ra ∧ encodeWord (.pror1 rd ra) = wordR2 0x37#8 rd ra) ∧
    Ends (.pshl1 rd ra) s (fun t => Wrote s t rd { neg := false, mag := fromNat w n (2 * a % 2 ^ N) }) ∧
    Ends (.pshr1 rd ra) s (fun t => Wrote s t rd { neg := false, mag := fromNat w n (a / 2) }) ∧
    Ends (.prol1 rd ra) s (fun t =>
      Wrote s t rd { neg := false, mag := fromNat w n (2 * a % 2 ^ N + a / 2 ^ (N - 1)) }) ∧
    Ends (.pror1 rd ra) s (fun t =>
      Wrote s t rd { neg := false, mag := fromNat w n (a / 2 + a % 2 * 2 ^ (N - 1)) })

/-- R118 to R121, with the definition of R117: the shifts and rotates by `n` bits are the one-bit functions applied `n` times, for every count.
(The model computes them in closed form, log entry 7; this says the two are the same.) -/
def Obligations.NBitShiftsRepeatOneBit : Prop :=
  ∀ (s : State) (rd ra : Reg) (imm : Imm16), s.InRange →
    let w := s.cfg.width
    (encodeWord (.pshl rd ra imm) = wordI 0x38#8 rd ra imm ∧ encodeWord (.pshr rd ra imm) = wordI 0x39#8 rd ra imm ∧
      encodeWord (.prol rd ra imm) = wordI 0x3A#8 rd ra imm ∧ encodeWord (.pror rd ra imm) = wordI 0x3B#8 rd ra imm) ∧
    Ends (.pshl rd ra imm) s (fun t => Wrote s t rd { neg := false, mag := (shl1 w)^[imm.toNat] (s.mag ra) }) ∧
    Ends (.pshr rd ra imm) s (fun t => Wrote s t rd { neg := false, mag := (shr1 w)^[imm.toNat] (s.mag ra) }) ∧
    Ends (.prol rd ra imm) s (fun t => Wrote s t rd { neg := false, mag := (rol1 w)^[imm.toNat] (s.mag ra) }) ∧
    Ends (.pror rd ra imm) s (fun t => Wrote s t rd { neg := false, mag := (ror1 w)^[imm.toNat] (s.mag ra) })

/-! ## Value arithmetic -/

/-- R163: `VADD` writes the exact sum; `max(la, lb) + 1` digits when the signs match, `max(la, lb)` when they differ;
`CapacityExceeded` on the adding branch alone. -/
def Obligations.VaddAddsExactly : Prop :=
  ∀ (s : State) (rd ra rb : Reg), s.InRange → encodeWord (.vadd rd ra rb) = wordR3 0x40#8 rd ra rb ∧
    let m := max (s.len ra) (s.len rb)
    if (s.reg ra).neg = (s.reg rb).neg then
      if s.fits (m + 1) then
        Ends (.vadd rd ra rb) s fun t => Wrote s t rd (ofInt s.cfg.width (m + 1) (s.num ra + s.num rb))
      else Ends (.vadd rd ra rb) s fun t => Raised s t .capacityExceeded
    else Ends (.vadd rd ra rb) s fun t => Wrote s t rd (ofInt s.cfg.width m (s.num ra + s.num rb))

/-- R164: `VSUB` writes the exact difference; the magnitudes are added when the signs differ. -/
def Obligations.VsubSubtractsExactly : Prop :=
  ∀ (s : State) (rd ra rb : Reg), s.InRange → encodeWord (.vsub rd ra rb) = wordR3 0x41#8 rd ra rb ∧
    let m := max (s.len ra) (s.len rb)
    if (s.reg ra).neg ≠ (s.reg rb).neg then
      if s.fits (m + 1) then
        Ends (.vsub rd ra rb) s fun t => Wrote s t rd (ofInt s.cfg.width (m + 1) (s.num ra - s.num rb))
      else Ends (.vsub rd ra rb) s fun t => Raised s t .capacityExceeded
    else Ends (.vsub rd ra rb) s fun t => Wrote s t rd (ofInt s.cfg.width m (s.num ra - s.num rb))

/-- R165: `VMUL` writes the exact product (so its sign is the XOR of the signs unless it is zero) in `la + lb` digits. -/
def Obligations.VmulMultipliesExactly : Prop :=
  ∀ (s : State) (rd ra rb : Reg), s.InRange → encodeWord (.vmul rd ra rb) = wordR3 0x42#8 rd ra rb ∧
    if s.fits (s.len ra + s.len rb) then
      Ends (.vmul rd ra rb) s fun t => Wrote s t rd (ofInt s.cfg.width (s.len ra + s.len rb) (s.num ra * s.num rb))
    else Ends (.vmul rd ra rb) s fun t => Raised s t .capacityExceeded

/-- R167, R168: `VDIV` writes the quotient of the magnitudes without leading zeros and `VREM` the remainder in `eff(b)`
digits, each with the XOR of the signs unless it is zero; a zero divisor raises `DivisionByZero`. -/
def Obligations.VdivAndVremTakeTheXorSign : Prop :=
  ∀ (s : State) (rd ra rb : Reg), s.InRange →
    (encodeWord (.vdiv rd ra rb) = wordR3 0x43#8 rd ra rb ∧ encodeWord (.vrem rd ra rb) = wordR3 0x44#8 rd ra rb) ∧
    let w := s.cfg.width
    let x := (s.reg ra).neg ^^ (s.reg rb).neg
    let q := s.nat ra / s.nat rb
    if s.nat rb = 0 then
      Ends (.vdiv rd ra rb) s (fun t => Raised s t .divisionByZero) ∧
      Ends (.vrem rd ra rb) s (fun t => Raised s t .divisionByZero)
    else
      Ends (.vdiv rd ra rb) s
        (fun t => Wrote s t rd { neg := x && decide (q ≠ 0), mag := strip (fromNat w (s.len ra) q) }) ∧
      Ends (.vrem rd ra rb) s
        (fun t => Wrote s t rd (signedDigits w x (eff (s.mag rb)) (s.nat ra % s.nat rb)))

/-- R169: `VDIVREM` writes both halves together; `rd = re` is `IllegalCommand`. -/
def Obligations.VdivremWritesBoth : Prop :=
  ∀ (s : State) (rd re ra rb : Reg), s.InRange → encodeWord (.vdivrem rd re ra rb) = wordR4 0x45#8 rd re ra rb ∧
    let w := s.cfg.width
    let x := (s.reg ra).neg ^^ (s.reg rb).neg
    let q := s.nat ra / s.nat rb
    if rd = re then Ends (.vdivrem rd re ra rb) s fun t => Raised s t .illegalCommand
    else if s.nat rb = 0 then Ends (.vdivrem rd re ra rb) s fun t => Raised s t .divisionByZero
    else
      Ends (.vdivrem rd re ra rb) s fun t =>
        WroteBoth s t rd { neg := x && decide (q ≠ 0), mag := strip (fromNat w (s.len ra) q) }
          re (signedDigits w x (eff (s.mag rb)) (s.nat ra % s.nat rb))

/-- R173: the division law, with the XOR sign of the remainder: `Q * b + Rm` is `a` when `b` is not negative or the
remainder is zero, and `a - 2 * sgn(a) * |Rm|` otherwise; on magnitudes the law always holds. -/
def Obligations.DivisionLawUnderTheXorSign : Prop :=
  ∀ (s t : State) (rd re ra rb : Reg), s.InRange → s.Normalised →
    exec (.vdivrem rd re ra rb) s = .next t → t.err = 0#3 →
      (t.num rd * s.num rb + t.num re =
        if 0 ≤ s.num rb ∨ t.num re = 0 then s.num ra
        else s.num ra - 2 * (if s.num ra < 0 then -1 else 1) * |t.num re|) ∧
      |t.num rd| * |s.num rb| + |t.num re| = |s.num ra| ∧ |t.num re| < |s.num rb|

/-- R170: `VINC` adds one to the magnitude and keeps the sign; the buffer grows by a digit only when the carry would
leave it, and only then can `CapacityExceeded` be raised. -/
def Obligations.VincIncrementsTheMagnitude : Prop :=
  ∀ (s : State) (rd ra : Reg), s.InRange → encodeWord (.vinc rd ra) = wordR2 0x46#8 rd ra ∧
    if s.nat ra + 1 = s.cfg.width.radix ^ s.len ra then
      if s.fits (s.len ra + 1) then
        Ends (.vinc rd ra) s fun t =>
          Wrote s t rd { neg := (s.reg ra).neg, mag := fromNat s.cfg.width (s.len ra + 1) (s.nat ra + 1) }
      else Ends (.vinc rd ra) s fun t => Raised s t .capacityExceeded
    else
      Ends (.vinc rd ra) s fun t =>
        Wrote s t rd { neg := (s.reg ra).neg, mag := fromNat s.cfg.width (s.len ra) (s.nat ra + 1) }

/-- R171: `VDEC` subtracts one from the magnitude and keeps the sign unless the result is zero; zero raises
`PreconditionViolation`. -/
def Obligations.VdecDecrementsTheMagnitude : Prop :=
  ∀ (s : State) (rd ra : Reg), s.InRange → encodeWord (.vdec rd ra) = wordR2 0x47#8 rd ra ∧
    if s.nat ra = 0 then Ends (.vdec rd ra) s fun t => Raised s t .preconditionViolation
    else
      Ends (.vdec rd ra) s fun t =>
        Wrote s t rd (signedDigits s.cfg.width (s.reg ra).neg (s.len ra) (s.nat ra - 1))

/-- R172: "(a + b) - b == a": after `VADD c, a, b`, `VSUB d, c, b` without error, `VEQ d, a` writes `T = 1`, for all
register contents and whatever registers are named, as long as the operands still stand. -/
def Obligations.SubtractionUndoesAddition : Prop :=
  ∀ (s t u v : State) (c d a b : Reg), s.InRange → s.Normalised → c ≠ a → c ≠ b → d ≠ a →
    exec (.vadd c a b) s = .next t → t.err = 0#3 → exec (.vsub d c b) t = .next u → u.err = 0#3 →
      exec (.veq d a) u = .next v → v.truth = true

/-! ## Value tests -/

/-- R182 to R187: the six comparisons write the order of the signed numbers. -/
def Obligations.ComparisonsOrderSignedNumbers : Prop :=
  ∀ (s : State) (ra rb : Reg), s.InRange → s.Normalised →
    (encodeWord (.vlt ra rb) = wordS2 0x50#8 ra rb ∧ encodeWord (.vgt ra rb) = wordS2 0x51#8 ra rb ∧
      encodeWord (.vle ra rb) = wordS2 0x52#8 ra rb ∧ encodeWord (.vge ra rb) = wordS2 0x53#8 ra rb ∧
      encodeWord (.veq ra rb) = wordS2 0x54#8 ra rb ∧ encodeWord (.vne ra rb) = wordS2 0x55#8 ra rb) ∧
    Ends (.vlt ra rb) s (fun t => WroteTruth s t (decide (s.num ra < s.num rb))) ∧
    Ends (.vgt ra rb) s (fun t => WroteTruth s t (decide (s.num ra > s.num rb))) ∧
    Ends (.vle ra rb) s (fun t => WroteTruth s t (decide (s.num ra ≤ s.num rb))) ∧
    Ends (.vge ra rb) s (fun t => WroteTruth s t (decide (s.num ra ≥ s.num rb))) ∧
    Ends (.veq ra rb) s (fun t => WroteTruth s t (decide (s.num ra = s.num rb))) ∧
    Ends (.vne ra rb) s (fun t => WroteTruth s t (decide (s.num ra ≠ s.num rb)))

/-- R188: `VBOOL` writes whether the magnitude is not zero. -/
def Obligations.VboolTestsForNonzero : Prop :=
  ∀ (s : State) (ra : Reg), encodeWord (.vbool ra) = wordS1 0x56#8 ra ∧
    Ends (.vbool ra) s fun t => WroteTruth s t (decide (s.nat ra ≠ 0))

/-- R189: for every pair of registers of every state (sound or not) exactly one of `VLT`, `VEQ`, `VGT` writes 1. -/
def Obligations.ComparisonIsTotal : Prop :=
  ∀ (s t u v : State) (ra rb : Reg),
    exec (.vlt ra rb) s = .next t → exec (.veq ra rb) s = .next u → exec (.vgt ra rb) s = .next v →
      t.truth.toNat + u.truth.toNat + v.truth.toNat = 1

/-! ## Value bitwise and shift -/

/-- R191 to R194: the value operators act on the magnitudes as the primitives do, take the sign of the first source,
and give a non-negative zero. -/
def Obligations.ValueBitwiseKeepsTheFirstSign : Prop :=
  ∀ (s : State) (rd ra rb : Reg), s.InRange →
    let w := s.cfg.width
    let n := max (s.len ra) (s.len rb)
    let g := (s.reg ra).neg
    (encodeWord (.vand rd ra rb) = wordR3 0x60#8 rd ra rb ∧ encodeWord (.vor rd ra rb) = wordR3 0x61#8 rd ra rb ∧
      encodeWord (.vxor rd ra rb) = wordR3 0x62#8 rd ra rb ∧ encodeWord (.vnot rd ra) = wordR2 0x63#8 rd ra) ∧
    Ends (.vand rd ra rb) s (fun t => Wrote s t rd (signedDigits w g n (s.nat ra &&& s.nat rb))) ∧
    Ends (.vor rd ra rb) s (fun t => Wrote s t rd (signedDigits w g n (s.nat ra ||| s.nat rb))) ∧
    Ends (.vxor rd ra rb) s (fun t => Wrote s t rd (signedDigits w g n (s.nat ra ^^^ s.nat rb))) ∧
    Ends (.vnot rd ra) s (fun t =>
      Wrote s t rd (signedDigits w g (s.len ra) (w.radix ^ s.len ra - 1 - s.nat ra)))

/-- R195, R196: `VSHL` and `VSHR` shift the magnitude logically within the buffer, keep the sign, and give a
non-negative zero. -/
def Obligations.ValueShiftsKeepTheSign : Prop :=
  ∀ (s : State) (rd ra : Reg) (imm : Imm16), s.InRange →
    let w := s.cfg.width
    let g := (s.reg ra).neg
    (encodeWord (.vshl rd ra imm) = wordI 0x64#8 rd ra imm ∧ encodeWord (.vshr rd ra imm) = wordI 0x65#8 rd ra imm) ∧
    Ends (.vshl rd ra imm) s (fun t =>
      Wrote s t rd (signedDigits w g (s.len ra) (s.nat ra * 2 ^ imm.toNat % 2 ^ (w.bits * s.len ra)))) ∧
    Ends (.vshr rd ra imm) s (fun t => Wrote s t rd (signedDigits w g (s.len ra) (s.nat ra / 2 ^ imm.toNat)))

/-! ## Every width -/

/-- R96: the digit width never changes what the primitive arithmetic computes. Two states of instances of any widths whose
registers stand for the same numbers have the same numbers after `PADD`, `PSUB`, `PMUL`, `PDIVREM`, `PINC` and `PDEC`, and
after `PMULD` where the multiplying digit is the same number at both widths, wherever the command succeeds on both.
(Nothing is said of `PNOT`, the shifts and the rotates, whose results depend on the width.) -/
def Obligations.ValuesDoNotDependOnTheWidth : Prop :=
  ∀ (s t s' t' : State) (i : Instr) (rd re ra rb : Reg),
    i = .padd rd ra rb ∨ i = .psub rd ra rb ∨ i = .pmul rd ra rb ∨ i = .pdivrem rd re ra rb ∨ i = .pinc rd ∨ i = .pdec rd ∨
      (i = .pmuld rd ra rb ∧ s.nat rb % s.cfg.width.radix = t.nat rb % t.cfg.width.radix) →
    s.InRange → t.InRange → (∀ r, s.nat r = t.nat r) →
    exec i s = .next s' → s'.err = 0#3 → exec i t = .next t' → t'.err = 0#3 → ∀ r, s'.nat r = t'.nat r
end

