-- ==== Sys2Proof/Laws/Digits.lean ====
section
/-! SUPPORT. Digit sequences and the numbers they stand for: a sequence of digits is known by its length and its value. -/

namespace Sys2Proof.Machine

/-! ## The radix -/

theorem bits_pos (w : DigitWidth) : 0 < w.bits := by cases w <;> decide

theorem radix_pos (w : DigitWidth) : 0 < w.radix := Nat.two_pow_pos _

theorem one_lt_radix (w : DigitWidth) : 1 < w.radix := by cases w <;> decide

/-- Half the radix, the weight of a digit's top bit. -/
theorem radix_eq_two_mul (w : DigitWidth) : w.radix = 2 * 2 ^ (w.bits - 1) := by cases w <;> decide

theorem radix_pow (w : DigitWidth) (n : Nat) : w.radix ^ n = 2 ^ (w.bits * n) := by
  rw [DigitWidth.radix, pow_mul]

/-! ## Digits of the instance -/

theorem digitsFit_iff {w : DigitWidth} {a : Digits} : digitsFit w a = true ↔ ∀ d ∈ a, d < w.radix := by
  simp [digitsFit]

@[simp] theorem digitsFit_nil (w : DigitWidth) : digitsFit w [] = true := rfl

@[simp] theorem digitsFit_cons {w : DigitWidth} {d : Nat} {a : Digits} :
    digitsFit w (d :: a) = true ↔ d < w.radix ∧ digitsFit w a = true := by simp [digitsFit]

@[simp] theorem digitsFit_append {w : DigitWidth} {a b : Digits} :
    digitsFit w (a ++ b) = true ↔ digitsFit w a = true ∧ digitsFit w b = true := by
  simp only [digitsFit_iff, List.mem_append]
  exact ⟨fun h => ⟨fun d hd => h d (.inl hd), fun d hd => h d (.inr hd)⟩, fun h d hd => hd.elim (h.1 d) (h.2 d)⟩

@[simp] theorem digitsFit_reverse {w : DigitWidth} {a : Digits} : digitsFit w a.reverse = digitsFit w a := by
  simp [digitsFit]

theorem digitsFit_zeros (w : DigitWidth) (n : Nat) : digitsFit w (zeros n) = true := by
  simp only [digitsFit_iff, zeros, List.mem_replicate]
  rintro d ⟨-, rfl⟩
  exact radix_pos w

theorem digitsFit_sub {w : DigitWidth} {a b : Digits} (h : digitsFit w a = true) (hs : b ⊆ a) :
    digitsFit w b = true := digitsFit_iff.2 fun d hd => digitsFit_iff.1 h d (hs hd)

/-! ## The value of a sequence (R9) -/

@[simp] theorem val_nil (w : DigitWidth) : val w [] = 0 := rfl

theorem val_concat (w : DigitWidth) (a : Digits) (d : Nat) : val w (a ++ [d]) = val w a * w.radix + d := by
  simp [val, List.foldl_append]

/-- The upper part counts `R` to the length of the lower one. -/
theorem val_append (w : DigitWidth) (a b : Digits) : val w (a ++ b) = val w a * w.radix ^ b.length + val w b := by
  induction b using List.reverseRecOn with
  | nil => simp
  | append_singleton b d ih =>
    rw [← List.append_assoc, val_concat, val_concat, ih, List.length_append, List.length_singleton, pow_succ]
    ring

theorem val_singleton (w : DigitWidth) (d : Nat) : val w [d] = d := by simp [val]

theorem val_cons (w : DigitWidth) (d : Nat) (a : Digits) :
    val w (d :: a) = d * w.radix ^ a.length + val w a := by
  rw [← List.singleton_append, val_append, val_singleton]

/-- Read from the least significant end: the head of the reversed sequence is the lowest digit. -/
theorem val_reverse_cons (w : DigitWidth) (d : Nat) (t : Digits) :
    val w (d :: t).reverse = w.radix * val w t.reverse + d := by
  rw [List.reverse_cons, val_concat, Nat.mul_comm]

@[simp] theorem val_zeros (w : DigitWidth) (n : Nat) : val w (zeros n) = 0 := by
  induction n with
  | zero => rfl
  | succ n ih => rw [zeros, List.replicate_succ, val_cons]; simpa [zeros] using ih

@[simp] theorem length_zeros (n : Nat) : (zeros n).length = n := by simp [zeros]

theorem val_zeros_append (w : DigitWidth) (n : Nat) (a : Digits) : val w (zeros n ++ a) = val w a := by
  rw [val_append, val_zeros, Nat.zero_mul, Nat.zero_add]

/-- `n` digits count less than `R^n`. -/
theorem val_lt {w : DigitWidth} {a : Digits} (h : digitsFit w a = true) : val w a < w.radix ^ a.length := by
  induction a with
  | nil => simp
  | cons d t ih =>
    obtain ⟨hd, ht⟩ := digitsFit_cons.1 h
    have := ih ht
    rw [val_cons, List.length_cons, pow_succ]
    calc d * w.radix ^ t.length + val w t < d * w.radix ^ t.length + w.radix ^ t.length := by omega
      _ = (d + 1) * w.radix ^ t.length := by ring
      _ ≤ w.radix * w.radix ^ t.length := Nat.mul_le_mul_right _ hd
      _ = w.radix ^ t.length * w.radix := Nat.mul_comm _ _

/-! ## `from_nat` (R10) -/

@[simp] theorem length_lowDigits (w : DigitWidth) (n v : Nat) : (lowDigits w n v).length = n := by
  induction n generalizing v with
  | zero => rfl
  | succ n ih => simp [lowDigits, ih]

@[simp] theorem length_fromNat (w : DigitWidth) (n v : Nat) : (fromNat w n v).length = n := by simp [fromNat]

theorem digitsFit_lowDigits (w : DigitWidth) (n v : Nat) : digitsFit w (lowDigits w n v) = true := by
  induction n generalizing v with
  | zero => rfl
  | succ n ih => simp [lowDigits, ih, Nat.mod_lt _ (radix_pos w)]

@[simp] theorem digitsFit_fromNat (w : DigitWidth) (n v : Nat) : digitsFit w (fromNat w n v) = true := by
  simp [fromNat, digitsFit_lowDigits]

/-- `val(from_nat(n, v)) = v mod R^n`. -/
theorem val_fromNat (w : DigitWidth) (n v : Nat) : val w (fromNat w n v) = v % w.radix ^ n := by
  induction n generalizing v with
  | zero => simp [fromNat, lowDigits, Nat.mod_one]
  | succ n ih =>
    have := ih (v / w.radix)
    simp only [fromNat] at this
    rw [fromNat, lowDigits, val_reverse_cons, this, pow_succ, Nat.mul_comm (w.radix ^ n), Nat.mod_mul]
    omega

/-- A sequence is known by its length and its value. -/
theorem eq_of_val_eq {w : DigitWidth} {a b : Digits} (ha : digitsFit w a = true) (hb : digitsFit w b = true)
    (hl : a.length = b.length) (hv : val w a = val w b) : a = b := by
  induction a generalizing b with
  | nil => cases b <;> simp_all
  | cons d t ih =>
    cases b with
    | nil => simp at hl
    | cons e u =>
      simp only [digitsFit_cons] at ha hb
      simp only [List.length_cons, Nat.add_right_cancel_iff] at hl
      rw [val_cons, val_cons, hl] at hv
      have h1 := val_lt ha.2
      have h2 := val_lt hb.2
      rw [hl] at h1
      have hde : d = e := by
        rcases Nat.lt_trichotomy d e with h | h | h
        · have : (d + 1) * w.radix ^ u.length ≤ e * w.radix ^ u.length := Nat.mul_le_mul_right _ h
          have : (d + 1) * w.radix ^ u.length = d * w.radix ^ u.length + w.radix ^ u.length := by ring
          omega
        · exact h
        · have : (e + 1) * w.radix ^ u.length ≤ d * w.radix ^ u.length := Nat.mul_le_mul_right _ h
          have : (e + 1) * w.radix ^ u.length = e * w.radix ^ u.length + w.radix ^ u.length := by ring
          omega
      subst hde
      rw [ih ha.2 hb.2 hl (by omega)]

/-- To show what a digit function returns, it is enough to know the length and the value of the result. -/
theorem eq_fromNat {w : DigitWidth} {a : Digits} {n v : Nat} (ha : digitsFit w a = true) (hl : a.length = n)
    (hv : val w a = v % w.radix ^ n) : a = fromNat w n v :=
  eq_of_val_eq ha (digitsFit_fromNat w n v) (by simp [hl]) (by rw [val_fromNat, hv])

/-- Only the number modulo `R^n` matters (R10). -/
theorem fromNat_mod (w : DigitWidth) (n v : Nat) : fromNat w n (v % w.radix ^ n) = fromNat w n v :=
  eq_fromNat (by simp) (by simp) (by rw [val_fromNat, Nat.mod_mod])

theorem fromNat_congr {w : DigitWidth} {n u v : Nat} (h : u % w.radix ^ n = v % w.radix ^ n) :
    fromNat w n u = fromNat w n v := by
  rw [← fromNat_mod, h, fromNat_mod]

theorem fromNat_val {w : DigitWidth} {a : Digits} (ha : digitsFit w a = true) : fromNat w a.length (val w a) = a :=
  (eq_fromNat ha rfl (Nat.mod_eq_of_lt (val_lt ha)).symm).symm

/-! ## Zero (R9) -/

theorem isZero_iff {w : DigitWidth} {a : Digits} : isZero a = true ↔ val w a = 0 := by
  induction a with
  | nil => simp [isZero]
  | cons d t ih =>
    have hp : w.radix ^ t.length ≠ 0 := (Nat.pow_pos (radix_pos w)).ne'
    rw [val_cons, Nat.add_eq_zero_iff, Nat.mul_eq_zero, ← ih, or_iff_left hp]
    simp [isZero]

theorem isZero_eq (w : DigitWidth) (a : Digits) : isZero a = decide (val w a = 0) := by
  rw [Bool.eq_iff_iff, isZero_iff (w := w), decide_eq_true_iff]

theorem isZero_fromNat (w : DigitWidth) (n v : Nat) : isZero (fromNat w n v) = decide (v % w.radix ^ n = 0) := by
  rw [isZero_eq w, val_fromNat]

/-! ## Stripping (R10) -/

theorem strip_cons_zero (a : Digits) : strip (0 :: a) = strip a := by simp [strip]

theorem strip_cons_pos {d : Nat} (a : Digits) (h : d ≠ 0) : strip (d :: a) = d :: a := by simp [strip, h]

theorem strip_sublist (a : Digits) : (strip a).Sublist a := List.dropWhile_sublist _

theorem digitsFit_strip {w : DigitWidth} {a : Digits} (h : digitsFit w a = true) : digitsFit w (strip a) = true :=
  digitsFit_sub h (strip_sublist a).subset

@[simp] theorem val_strip (w : DigitWidth) (a : Digits) : val w (strip a) = val w a := by
  induction a with
  | nil => rfl
  | cons d t ih =>
    by_cases h : d = 0
    · subst h; rw [strip_cons_zero, ih, val_cons]; simp
    · rw [strip_cons_pos t h]

@[simp] theorem strip_strip (a : Digits) : strip (strip a) = strip a := by
  induction a with
  | nil => rfl
  | cons d t ih =>
    by_cases h : d = 0
    · subst h; rw [strip_cons_zero, ih]
    · rw [strip_cons_pos t h, strip_cons_pos t h]

theorem eff_le_length (a : Digits) : eff a ≤ a.length := (strip_sublist a).length_le

/-- A stripped sequence that is not empty starts with a digit that is not 0, so its value has its length. -/
theorem le_val_strip {w : DigitWidth} {a : Digits} (h : 0 < eff a) : w.radix ^ (eff a - 1) ≤ val w a := by
  induction a with
  | nil => simp [eff, strip] at h
  | cons d t ih =>
    by_cases hd : d = 0
    · subst hd
      rw [eff, strip_cons_zero] at h ⊢
      have := ih h
      rwa [val_cons, Nat.zero_mul, Nat.zero_add]
    · rw [eff, strip_cons_pos t hd, List.length_cons, Nat.add_sub_cancel, val_cons]
      have : 1 * w.radix ^ t.length ≤ d * w.radix ^ t.length := Nat.mul_le_mul_right _ (Nat.pos_of_ne_zero hd)
      omega

theorem val_lt_eff {w : DigitWidth} {a : Digits} (h : digitsFit w a = true) : val w a < w.radix ^ eff a := by
  simpa [eff] using val_lt (digitsFit_strip h)

theorem eff_eq_zero_iff {w : DigitWidth} {a : Digits} : eff a = 0 ↔ val w a = 0 := by
  constructor
  · intro h
    have : strip a = [] := List.length_eq_zero_iff.1 h
    rw [← val_strip, this, val_nil]
  · intro h
    by_contra hne
    have := le_val_strip (w := w) (Nat.pos_of_ne_zero hne)
    have hp : 0 < w.radix ^ (eff a - 1) := Nat.pow_pos (radix_pos w)
    omega

theorem eq_zeros_of_isZero {a : Digits} (h : isZero a = true) : a = zeros a.length := by
  simp only [isZero, List.all_eq_true, beq_iff_eq] at h
  exact List.eq_replicate_iff.2 ⟨rfl, h⟩

/-! ## Places from the least significant end (R10) -/

theorem lsd_of_lt {a : Digits} {k : Nat} (h : k < a.length) : lsd a k = a[a.length - 1 - k] := by
  rw [lsd, List.getD_eq_getElem _ _ (by simpa using h), List.getElem_reverse]

theorem lsd_of_le {a : Digits} {k : Nat} (h : a.length ≤ k) : lsd a k = 0 := by
  rw [lsd, List.getD_eq_default _ _ (by simpa using h)]

@[simp] theorem lsd_nil (k : Nat) : lsd [] k = 0 := by simp [lsd]

theorem lsd_lt {w : DigitWidth} {a : Digits} (h : digitsFit w a = true) (k : Nat) : lsd a k < w.radix := by
  by_cases hk : k < a.length
  · rw [lsd_of_lt hk]; exact digitsFit_iff.1 h _ (List.getElem_mem _)
  · rw [lsd_of_le (by omega)]; exact radix_pos w

/-- The places of a sequence, to a length that holds it, are its digits from the least significant end, then zeros. -/
theorem lsd_range {a : Digits} {n : Nat} (h : a.length ≤ n) :
    (List.range n).map (lsd a) = (zeros (n - a.length) ++ a).reverse := by
  apply List.ext_getElem
  · simp; omega
  · intro i h1 h2
    simp only [List.getElem_map, List.getElem_range, List.reverse_append]
    by_cases hi : i < a.length
    · rw [List.getElem_append_left (by simpa using hi), List.getElem_reverse, lsd_of_lt hi]
    · rw [List.getElem_append_right (by simpa using hi), lsd_of_le (by omega)]
      simp [zeros]

theorem length_places (a b : Digits) (n : Nat) : (places a b n).length = n := by simp [places]

theorem places_fst {a b : Digits} {n : Nat} (h : a.length ≤ n) (w : DigitWidth) :
    val w ((places a b n).map Prod.fst).reverse = val w a := by
  have : (places a b n).map Prod.fst = (List.range n).map (lsd a) := by simp [places]
  rw [this, lsd_range h, List.reverse_reverse, val_zeros_append]

theorem places_snd {a b : Digits} {n : Nat} (h : b.length ≤ n) (w : DigitWidth) :
    val w ((places a b n).map Prod.snd).reverse = val w b := by
  have : (places a b n).map Prod.snd = (List.range n).map (lsd b) := by simp [places]
  rw [this, lsd_range h, List.reverse_reverse, val_zeros_append]

theorem places_fit {w : DigitWidth} {a b : Digits} (ha : digitsFit w a = true) (hb : digitsFit w b = true) (n : Nat) :
    ∀ p ∈ places a b n, p.1 < w.radix ∧ p.2 < w.radix := by
  simp only [places, List.mem_map]
  rintro p ⟨k, -, rfl⟩
  exact ⟨lsd_lt ha k, lsd_lt hb k⟩

/-- The least significant digit is the value modulo the radix. -/
theorem lsd_zero_eq_mod {w : DigitWidth} {a : Digits} (h : digitsFit w a = true) : lsd a 0 = val w a % w.radix := by
  induction a using List.reverseRecOn with
  | nil => simp
  | append_singleton a d _ =>
    have hd : d < w.radix := (digitsFit_cons.1 (digitsFit_append.1 h).2).1
    rw [val_concat, Nat.mul_add_mod_self_right, Nat.mod_eq_of_lt hd]
    simp [lsd]

/-- A stripped sequence of value `v` is the digits of `v` without leading zeros, whatever the length they are cut from. -/
theorem eq_strip_fromNat {w : DigitWidth} {q : Digits} {n v : Nat} (hq : digitsFit w q = true) (hl : q.length ≤ n)
    (hv : val w q = v) (hs : strip q = q) : q = strip (fromNat w n v) := by
  have e : fromNat w n v = zeros (n - q.length) ++ q := by
    symm
    apply eq_fromNat
    · simp [digitsFit_zeros, hq]
    · simp; omega
    · rw [val_zeros_append, hv, Nat.mod_eq_of_lt]
      rw [← hv]
      exact lt_of_lt_of_le (val_lt hq) (Nat.pow_le_pow_right (radix_pos w) hl)
  rw [e]
  clear e
  conv_lhs => rw [← hs]
  generalize n - q.length = k
  induction k with
  | zero => simp [zeros]
  | succ k ih =>
    rw [ih, show zeros (k + 1) ++ q = 0 :: (zeros k ++ q) by simp [zeros, List.replicate_succ], strip_cons_zero]

/-- A stripped sequence that is not empty begins with a digit that is not 0. -/
theorem head_ne_zero_of_stripped {a : Digits} (hs : strip a = a) (h : 0 < a.length) : ∃ d t, a = d :: t ∧ d ≠ 0 := by
  cases a with
  | nil => simp at h
  | cons d t =>
    refine ⟨d, t, rfl, ?_⟩
    rintro rfl
    rw [strip_cons_zero] at hs
    have := (strip_sublist t).length_le
    rw [hs] at this
    simp at this

end Sys2Proof.Machine
end

