-- ==== Sys2Proof/Laws/Arith.lean ====
section
/-! SUPPORT. What each arithmetic function on digit sequences returns: its length and its value, so the very digits. -/

namespace Sys2Proof.Machine

/-! ## Addition (R82) -/

@[simp] theorem length_addLoop (w : DigitWidth) (c : Nat) (l : List (Nat × Nat)) :
    (addLoop w c l).length = l.length := by
  induction l generalizing c with
  | nil => rfl
  | cons p t ih => simp [addLoop, ih]

theorem digitsFit_addLoop (w : DigitWidth) (c : Nat) (l : List (Nat × Nat)) : digitsFit w (addLoop w c l) = true := by
  induction l generalizing c with
  | nil => rfl
  | cons p t ih => simp [addLoop, ih, Nat.mod_lt _ (radix_pos w)]

theorem val_addLoop (w : DigitWidth) (c : Nat) (l : List (Nat × Nat)) :
    val w (addLoop w c l).reverse =
      (val w (l.map Prod.fst).reverse + val w (l.map Prod.snd).reverse + c) % w.radix ^ l.length := by
  induction l generalizing c with
  | nil => simp [addLoop, Nat.mod_one]
  | cons p t ih =>
    obtain ⟨x, y⟩ := p
    rw [addLoop, val_reverse_cons, ih, List.map_cons, List.map_cons, val_reverse_cons, val_reverse_cons,
      List.length_cons, pow_succ, Nat.mul_comm (w.radix ^ t.length), Nat.mod_mul]
    have e : w.radix * val w (t.map Prod.fst).reverse + x + (w.radix * val w (t.map Prod.snd).reverse + y) + c =
        (x + y + c) + w.radix * (val w (t.map Prod.fst).reverse + val w (t.map Prod.snd).reverse) := by ring
    rw [e, Nat.add_mul_mod_self_left, Nat.add_mul_div_left _ _ (radix_pos w)]
    rw [Nat.add_comm ((x + y + c) / w.radix), Nat.add_comm]

/-- `add`: exact, of `max(la, lb) + 1` digits (R82, R83). -/
theorem add_eq {w : DigitWidth} {a b : Digits} :
    add w a b = fromNat w (max a.length b.length + 1) (val w a + val w b) := by
  refine eq_fromNat (by simp [add, digitsFit_addLoop]) (by simp [add, length_places]) ?_
  rw [add, val_addLoop, places_fst (by omega), places_snd (by omega), length_places, Nat.add_zero]

theorem val_add {w : DigitWidth} {a b : Digits} (ha : digitsFit w a = true) (hb : digitsFit w b = true) :
    val w (add w a b) = val w a + val w b := by
  rw [add_eq, val_fromNat, Nat.mod_eq_of_lt]
  have h1 : val w a < w.radix ^ max a.length b.length :=
    (val_lt ha).trans_le (Nat.pow_le_pow_right (radix_pos w) (le_max_left _ _))
  have h2 : val w b < w.radix ^ max a.length b.length :=
    (val_lt hb).trans_le (Nat.pow_le_pow_right (radix_pos w) (le_max_right _ _))
  have h3 : w.radix ^ max a.length b.length * 2 ≤ w.radix ^ max a.length b.length * w.radix :=
    Nat.mul_le_mul_left _ (one_lt_radix w)
  rw [pow_succ]
  omega

/-! ## Subtraction (R85) -/

@[simp] theorem length_subLoop (w : DigitWidth) (bw : Nat) (l : List (Nat × Nat)) :
    (subLoop w bw l).length = l.length := by
  induction l generalizing bw with
  | nil => rfl
  | cons p t ih => rw [subLoop]; split <;> simp [ih]

theorem digitsFit_subLoop {w : DigitWidth} {bw : Nat} {l : List (Nat × Nat)}
    (h : ∀ p ∈ l, p.1 < w.radix ∧ p.2 < w.radix) : digitsFit w (subLoop w bw l) = true := by
  induction l generalizing bw with
  | nil => rfl
  | cons p t ih =>
    have hp := h p (by simp)
    have ht := fun bw => ih (bw := bw) fun q hq => h q (by simp [hq])
    rw [subLoop]
    split
    · simp only [digitsFit_cons, ht, and_true]; omega
    · simp only [digitsFit_cons, ht, and_true]; omega

/-- When the subtrahend and the borrow fit, the loop ends without a borrow and the difference is exact. -/
theorem val_subLoop {w : DigitWidth} {bw : Nat} {l : List (Nat × Nat)} (hbw : bw ≤ 1)
    (h : ∀ p ∈ l, p.1 < w.radix ∧ p.2 < w.radix)
    (hle : val w (l.map Prod.snd).reverse + bw ≤ val w (l.map Prod.fst).reverse) :
    val w (subLoop w bw l).reverse + (val w (l.map Prod.snd).reverse + bw) = val w (l.map Prod.fst).reverse := by
  induction l generalizing bw with
  | nil => simpa [subLoop] using hle
  | cons p t ih =>
    obtain ⟨x, y⟩ := p
    have hp := h (x, y) (by simp)
    have ht : ∀ q ∈ t, q.1 < w.radix ∧ q.2 < w.radix := fun q hq => h q (by simp [hq])
    simp only [List.map_cons, val_reverse_cons] at hle ⊢
    generalize hX : val w (t.map Prod.fst).reverse = X at *
    generalize hY : val w (t.map Prod.snd).reverse = Y at *
    rw [subLoop]
    split
    · rename_i hlt
      have hlt' : w.radix * Y < w.radix * X := by omega
      have hYX : Y + 1 ≤ X := Nat.lt_of_mul_lt_mul_left hlt'
      have := ih (bw := 1) (by omega) ht hYX
      rw [val_reverse_cons]
      have e : w.radix * X = w.radix * val w (subLoop w 1 t).reverse + w.radix * Y + w.radix := by
        rw [← this]; ring
      omega
    · rename_i hge
      have hYX : Y ≤ X := by
        by_contra hc
        have : w.radix * (X + 1) ≤ w.radix * Y := Nat.mul_le_mul_left _ (by omega)
        rw [Nat.mul_add] at this
        omega
      have := ih (bw := 0) (by omega) ht (by omega)
      rw [val_reverse_cons]
      have e : w.radix * X = w.radix * val w (subLoop w 0 t).reverse + w.radix * Y := by
        rw [← this]; ring
      omega

@[simp] theorem length_sub (w : DigitWidth) (a b : Digits) : (sub w a b).length = max a.length b.length := by
  simp [sub, length_places]

theorem digitsFit_sub_fn {w : DigitWidth} {a b : Digits} (ha : digitsFit w a = true) (hb : digitsFit w b = true) :
    digitsFit w (sub w a b) = true := by
  simp only [sub, digitsFit_reverse]
  exact digitsFit_subLoop (places_fit ha hb _)

theorem val_sub {w : DigitWidth} {a b : Digits} (ha : digitsFit w a = true) (hb : digitsFit w b = true)
    (hle : val w b ≤ val w a) : val w (sub w a b) = val w a - val w b := by
  have h1 := places_fst (b := b) (le_max_left a.length b.length) w
  have h2 := places_snd (a := a) (le_max_right a.length b.length) w
  have := val_subLoop (w := w) (bw := 0) (by omega) (places_fit ha hb (max a.length b.length)) (by omega)
  rw [sub]
  omega

/-- `sub`: exact under its precondition, of `max(la, lb)` digits (R85). -/
theorem sub_eq {w : DigitWidth} {a b : Digits} (ha : digitsFit w a = true) (hb : digitsFit w b = true)
    (hle : val w b ≤ val w a) : sub w a b = fromNat w (max a.length b.length) (val w a - val w b) := by
  refine eq_fromNat (digitsFit_sub_fn ha hb) (by simp) ?_
  rw [val_sub ha hb hle, Nat.mod_eq_of_lt]
  have := val_lt (digitsFit_sub_fn ha hb)
  rwa [val_sub ha hb hle, length_sub] at this

/-! ## Multiplication (R87, R89) -/

@[simp] theorem length_mulRow (w : DigitWidth) (x c : Nat) (t r : Digits) :
    (mulRow w x c t r).length = t.length + 1 := by
  induction t generalizing c r with
  | nil => rfl
  | cons d t ih => simp [mulRow, ih]

theorem val_mulRow (w : DigitWidth) (x c : Nat) (t r : Digits) (h : r.length = t.length) :
    val w (mulRow w x c t r).reverse = val w t.reverse * x + val w r.reverse + c := by
  induction t generalizing c r with
  | nil =>
    have : r = [] := List.length_eq_zero_iff.1 h
    subst this
    simp [mulRow, val_singleton]
  | cons d t ih =>
    cases r with
    | nil => simp at h
    | cons e r =>
      simp only [List.length_cons, Nat.add_right_cancel_iff] at h
      rw [mulRow, val_reverse_cons, val_reverse_cons, val_reverse_cons, List.headD_cons, List.tail_cons, ih _ _ h]
      have := Nat.div_add_mod (d * x + e + c) w.radix
      generalize (d * x + e + c) / w.radix = q at *
      generalize (d * x + e + c) % w.radix = m at *
      calc w.radix * (val w t.reverse * x + val w r.reverse + q) + m
          = w.radix * val w t.reverse * x + w.radix * val w r.reverse + (w.radix * q + m) := by ring
        _ = w.radix * val w t.reverse * x + w.radix * val w r.reverse + (d * x + e + c) := by rw [this]
        _ = (w.radix * val w t.reverse + d) * x + (w.radix * val w r.reverse + e) + c := by ring

theorem digitsFit_mulRow {w : DigitWidth} {x c : Nat} {t r : Digits} (hx : x < w.radix) (hc : c < w.radix)
    (ht : digitsFit w t = true) (hr : digitsFit w r = true) : digitsFit w (mulRow w x c t r) = true := by
  induction t generalizing c r with
  | nil => simp [mulRow, hc]
  | cons d t ih =>
    obtain ⟨hd, ht⟩ := digitsFit_cons.1 ht
    have hh : r.headD 0 < w.radix := by
      cases r with
      | nil => exact radix_pos w
      | cons e r => exact (digitsFit_cons.1 hr).1
    have htl : digitsFit w r.tail = true := digitsFit_sub hr (List.tail_subset r)
    rw [mulRow, digitsFit_cons]
    refine ⟨Nat.mod_lt _ (radix_pos w), ih ?_ ht htl⟩
    rw [Nat.div_lt_iff_lt_mul (radix_pos w)]
    have h1 : d * x ≤ (w.radix - 1) * (w.radix - 1) := Nat.mul_le_mul (by omega) (by omega)
    have h2 : (w.radix - 1) * (w.radix - 1) + 2 * (w.radix - 1) + 1 = w.radix * w.radix := by
      obtain ⟨k, hk⟩ : ∃ k, w.radix = k + 1 := ⟨w.radix - 1, by have := radix_pos w; omega⟩
      rw [hk, Nat.add_sub_cancel]; ring
    omega

@[simp] theorem length_mulLoop (w : DigitWidth) (a b r : Digits) (h : r.length = a.length) :
    (mulLoop w a b r).length = b.length + a.length := by
  induction b generalizing r with
  | nil => simp [mulLoop, h]
  | cons x t ih => rw [mulLoop, List.length_cons, ih _ (by simp), List.length_cons]; omega

theorem val_mulLoop (w : DigitWidth) (a b r : Digits) (h : r.length = a.length) :
    val w (mulLoop w a b r).reverse = val w a.reverse * val w b.reverse + val w r.reverse := by
  induction b generalizing r with
  | nil => simp [mulLoop]
  | cons x t ih =>
    rw [mulLoop, val_reverse_cons, val_reverse_cons, ih _ (by simp)]
    have hrow := val_mulRow w x 0 a r h
    cases hm : mulRow w x 0 a r with
    | nil => have := length_mulRow w x 0 a r; rw [hm] at this; simp at this
    | cons e s =>
      rw [hm, val_reverse_cons] at hrow
      rw [List.headD_cons, List.tail_cons]
      calc w.radix * (val w a.reverse * val w t.reverse + val w s.reverse) + e
          = w.radix * val w a.reverse * val w t.reverse + (w.radix * val w s.reverse + e) := by ring
        _ = w.radix * val w a.reverse * val w t.reverse + (val w a.reverse * x + val w r.reverse + 0) := by rw [hrow]
        _ = val w a.reverse * (w.radix * val w t.reverse + x) + val w r.reverse := by ring

theorem digitsFit_mulLoop {w : DigitWidth} {a b r : Digits} (ha : digitsFit w a = true) (hb : digitsFit w b = true)
    (hr : digitsFit w r = true) : digitsFit w (mulLoop w a b r) = true := by
  induction b generalizing r with
  | nil => simpa [mulLoop] using hr
  | cons x t ih =>
    obtain ⟨hx, ht⟩ := digitsFit_cons.1 hb
    have hrow := digitsFit_mulRow hx (radix_pos w) ha hr
    rw [mulLoop, digitsFit_cons]
    refine ⟨?_, ih ht (digitsFit_sub hrow (List.tail_subset _))⟩
    cases hm : mulRow w x 0 a r with
    | nil => exact radix_pos w
    | cons e s => rw [hm] at hrow; exact (digitsFit_cons.1 hrow).1

/-- `mul`: exact, of `la + lb` digits (R87). -/
theorem mul_eq {w : DigitWidth} {a b : Digits} (ha : digitsFit w a = true) (hb : digitsFit w b = true) :
    mul w a b = fromNat w (a.length + b.length) (val w a * val w b) := by
  have hfit : digitsFit w (mul w a b) = true := by
    rw [mul, digitsFit_reverse]
    exact digitsFit_mulLoop (by simpa using ha) (by simpa using hb) (digitsFit_zeros w _)
  have hlen : (mul w a b).length = a.length + b.length := by simp [mul, Nat.add_comm]
  have hval : val w (mul w a b) = val w a * val w b := by
    rw [mul, val_mulLoop _ _ _ _ (by simp)]
    have : (zeros a.length).reverse = zeros a.length := by simp [zeros]
    simp [this]
  refine eq_fromNat hfit hlen ?_
  have := val_lt hfit
  rw [hlen] at this
  rw [← hval, Nat.mod_eq_of_lt this]

/-- `mul_digit`: exact, of `la + 1` digits (R89). -/
theorem mulDigit_eq {w : DigitWidth} {a : Digits} {x : Nat} (ha : digitsFit w a = true) (hx : x < w.radix) :
    mulDigit w a x = fromNat w (a.length + 1) (val w a * x) := by
  have hfit : digitsFit w (mulDigit w a x) = true := by
    rw [mulDigit, digitsFit_reverse]
    exact digitsFit_mulRow hx (radix_pos w) (by simpa using ha) (digitsFit_zeros w _)
  have hlen : (mulDigit w a x).length = a.length + 1 := by simp [mulDigit]
  have hval : val w (mulDigit w a x) = val w a * x := by
    rw [mulDigit, val_mulRow _ _ _ _ _ (by simp)]
    have : (zeros a.length).reverse = zeros a.length := by simp [zeros]
    simp [this]
  refine eq_fromNat hfit hlen ?_
  have := val_lt hfit
  rw [hlen] at this
  rw [← hval, Nat.mod_eq_of_lt this]

/-! ## Compare (R92) -/

theorem lexCompare_eq {w : DigitWidth} {a b : Digits} (ha : digitsFit w a = true) (hb : digitsFit w b = true)
    (hl : a.length = b.length) : lexCompare a b = compare (val w a) (val w b) := by
  induction a generalizing b with
  | nil => cases b <;> simp_all [lexCompare]
  | cons d t ih =>
    cases b with
    | nil => simp at hl
    | cons e u =>
      simp only [digitsFit_cons] at ha hb
      simp only [List.length_cons, Nat.add_right_cancel_iff] at hl
      have h1 := val_lt ha.2
      have h2 := val_lt hb.2
      rw [hl] at h1
      rw [val_cons, val_cons, hl, lexCompare]
      split
      · rename_i h
        have : (d + 1) * w.radix ^ u.length ≤ e * w.radix ^ u.length := Nat.mul_le_mul_right _ h
        rw [Nat.add_mul] at this
        exact (Nat.compare_eq_lt.2 (by omega)).symm
      · split
        · rename_i h
          have : (e + 1) * w.radix ^ u.length ≤ d * w.radix ^ u.length := Nat.mul_le_mul_right _ h
          rw [Nat.add_mul] at this
          exact (Nat.compare_eq_gt.2 (by omega)).symm
        · have hde : d = e := by omega
          subst hde
          rw [ih ha.2 hb.2 hl]
          rcases Nat.lt_trichotomy (val w t) (val w u) with h | h | h
          · rw [Nat.compare_eq_lt.2 h, Nat.compare_eq_lt.2 (by omega)]
          · rw [h, Nat.compare_eq_eq.2 rfl, Nat.compare_eq_eq.2 rfl]
          · rw [Nat.compare_eq_gt.2 h, Nat.compare_eq_gt.2 (by omega)]

/-- A shorter effective length is a smaller value. -/
theorem val_lt_of_eff_lt {w : DigitWidth} {a b : Digits} (ha : digitsFit w a = true) (h : eff a < eff b) :
    val w a < val w b :=
  (val_lt_eff ha).trans_le
    ((Nat.pow_le_pow_right (radix_pos w) (by omega)).trans (le_val_strip (w := w) (a := b) (by omega)))

/-- `compare` is the order of the values (R92). -/
theorem compareMag_eq {w : DigitWidth} {a b : Digits} (ha : digitsFit w a = true) (hb : digitsFit w b = true) :
    compareMag a b = compare (val w a) (val w b) := by
  rw [compareMag]
  split
  · rename_i h; exact (Nat.compare_eq_lt.2 (val_lt_of_eff_lt ha h)).symm
  · split
    · rename_i h; exact (Nat.compare_eq_gt.2 (val_lt_of_eff_lt hb h)).symm
    · have := lexCompare_eq (digitsFit_strip ha) (digitsFit_strip hb) (by unfold eff at *; omega)
      simpa using this

theorem compareMag_lt_iff {w : DigitWidth} {a b : Digits} (ha : digitsFit w a = true) (hb : digitsFit w b = true) :
    compareMag a b = .lt ↔ val w a < val w b := by rw [compareMag_eq ha hb, Nat.compare_eq_lt]

/-! ## Increment and decrement (R91) -/

@[simp] theorem length_incLoop (w : DigitWidth) (l : Digits) : (incLoop w l).length = l.length := by
  induction l with
  | nil => rfl
  | cons d t ih => rw [incLoop]; split <;> simp [ih]

@[simp] theorem length_inc (w : DigitWidth) (a : Digits) : (inc w a).length = a.length := by simp [inc]

theorem digitsFit_incLoop {w : DigitWidth} {l : Digits} (h : digitsFit w l = true) : digitsFit w (incLoop w l) = true := by
  induction l with
  | nil => rfl
  | cons d t ih =>
    obtain ⟨hd, ht⟩ := digitsFit_cons.1 h
    rw [incLoop]
    split
    · simp [radix_pos w, ih ht]
    · simp only [digitsFit_cons, ht, and_true]; omega

theorem val_incLoop {w : DigitWidth} {l : Digits} (h : isFull w l = false) :
    val w (incLoop w l).reverse = val w l.reverse + 1 := by
  induction l with
  | nil => simp [isFull] at h
  | cons d t ih =>
    rw [incLoop]
    split
    · rename_i hd
      have ht : isFull w t = false := by simpa [isFull, hd] using h
      rw [val_reverse_cons, val_reverse_cons, ih ht, hd]
      have := radix_pos w
      rw [Nat.mul_add]; omega
    · rw [val_reverse_cons, val_reverse_cons]; omega

theorem isFull_reverse (w : DigitWidth) (a : Digits) : isFull w a.reverse = isFull w a := by simp [isFull]

theorem isZero_reverse (a : Digits) : isZero a.reverse = isZero a := by simp [isZero]

/-- Full is the greatest value of the length. -/
theorem isFull_iff {w : DigitWidth} {a : Digits} (h : digitsFit w a = true) :
    isFull w a = true ↔ val w a + 1 = w.radix ^ a.length := by
  induction a with
  | nil => simp [isFull]
  | cons d t ih =>
    obtain ⟨hd, ht⟩ := digitsFit_cons.1 h
    have hlt := val_lt ht
    have hstep : isFull w (d :: t) = true ↔ d = w.radix - 1 ∧ isFull w t = true := by simp [isFull]
    rw [hstep, ih ht, val_cons, List.length_cons, pow_succ]
    generalize w.radix ^ t.length = P at *
    have hr := radix_pos w
    constructor
    · rintro ⟨rfl, h2⟩
      obtain ⟨k, hk⟩ : ∃ k, w.radix = k + 1 := ⟨w.radix - 1, by omega⟩
      rw [hk, Nat.add_sub_cancel, Nat.mul_add, Nat.mul_comm P k]; omega
    · intro h2
      have hdk : d = w.radix - 1 := by
        by_contra hne
        have : (d + 2) * P ≤ w.radix * P := Nat.mul_le_mul_right _ (by omega)
        rw [Nat.add_mul, Nat.mul_comm w.radix] at this
        omega
      refine ⟨hdk, ?_⟩
      subst hdk
      obtain ⟨k, hk⟩ : ∃ k, w.radix = k + 1 := ⟨w.radix - 1, by omega⟩
      rw [hk, Nat.add_sub_cancel, Nat.mul_add, Nat.mul_comm P k] at h2; omega

/-- `inc`: one more, length kept (R91). -/
theorem inc_eq {w : DigitWidth} {a : Digits} (ha : digitsFit w a = true) (h : isFull w a = false) :
    inc w a = fromNat w a.length (val w a + 1) := by
  have hfit : digitsFit w (inc w a) = true := by
    rw [inc, digitsFit_reverse]; exact digitsFit_incLoop (by simpa using ha)
  have hval : val w (inc w a) = val w a + 1 := by
    rw [inc, val_incLoop (by rw [isFull_reverse]; exact h), List.reverse_reverse]
  refine eq_fromNat hfit (by simp) ?_
  have := val_lt hfit
  rw [length_inc] at this
  rw [← hval, Nat.mod_eq_of_lt this]

@[simp] theorem length_decLoop (w : DigitWidth) (l : Digits) : (decLoop w l).length = l.length := by
  induction l with
  | nil => rfl
  | cons d t ih => rw [decLoop]; split <;> simp [ih]

@[simp] theorem length_dec (w : DigitWidth) (a : Digits) : (dec w a).length = a.length := by simp [dec]

theorem digitsFit_decLoop {w : DigitWidth} {l : Digits} (h : digitsFit w l = true) : digitsFit w (decLoop w l) = true := by
  induction l with
  | nil => rfl
  | cons d t ih =>
    obtain ⟨hd, ht⟩ := digitsFit_cons.1 h
    have := radix_pos w
    rw [decLoop]
    split
    · simp only [digitsFit_cons, ih ht, and_true]; omega
    · simp only [digitsFit_cons, ht, and_true]; omega

theorem val_decLoop {w : DigitWidth} {l : Digits} (h : isZero l = false) :
    val w (decLoop w l).reverse + 1 = val w l.reverse := by
  induction l with
  | nil => simp [isZero] at h
  | cons d t ih =>
    rw [decLoop]
    split
    · rename_i hd
      have ht : isZero t = false := by simpa [isZero, hd] using h
      have hr := radix_pos w
      rw [val_reverse_cons, val_reverse_cons, ← ih ht, hd, Nat.mul_add]
      omega
    · rw [val_reverse_cons, val_reverse_cons]; omega

/-- `dec`: one less, length kept (R91). -/
theorem dec_eq {w : DigitWidth} {a : Digits} (ha : digitsFit w a = true) (h : isZero a = false) :
    dec w a = fromNat w a.length (val w a - 1) := by
  have hfit : digitsFit w (dec w a) = true := by
    rw [dec, digitsFit_reverse]; exact digitsFit_decLoop (by simpa using ha)
  have hval : val w (dec w a) = val w a - 1 := by
    have := val_decLoop (w := w) (l := a.reverse) (by rw [isZero_reverse]; exact h)
    rw [List.reverse_reverse] at this
    rw [dec]; omega
  refine eq_fromNat hfit (by simp) ?_
  have := val_lt hfit
  rw [length_dec] at this
  rw [← hval, Nat.mod_eq_of_lt this]

end Sys2Proof.Machine
end

