-- ==== Sys2Proof/Laws/Bits.lean ====
section
/-! SUPPORT. What each bitwise, shift and rotate function on digit sequences returns: its length and its value. -/

namespace Sys2Proof.Machine

/-! ## Bitwise functions digit by digit (R107) -/

/-- A bitwise function on naturals: bit by bit, and 0 where both arguments have no bits. -/
def BitByBit (f : Nat → Nat → Nat) : Prop :=
  ∃ g : Bool → Bool → Bool, g false false = false ∧ ∀ x y i, (f x y).testBit i = g (x.testBit i) (y.testBit i)

theorem land_bitByBit : BitByBit Nat.land := ⟨and, rfl, Nat.testBit_and⟩

theorem lor_bitByBit : BitByBit Nat.lor := ⟨or, rfl, Nat.testBit_or⟩

theorem xor_bitByBit : BitByBit Nat.xor := ⟨xor, rfl, Nat.testBit_xor⟩

theorem BitByBit.zero {f : Nat → Nat → Nat} (h : BitByBit f) : f 0 0 = 0 := by
  obtain ⟨g, hg, hf⟩ := h
  exact Nat.eq_of_testBit_eq fun i => by simp [hf, hg]

theorem BitByBit.lt {f : Nat → Nat → Nat} (h : BitByBit f) {x y n : Nat} (hx : x < 2 ^ n) (hy : y < 2 ^ n) :
    f x y < 2 ^ n := by
  obtain ⟨g, hg, hf⟩ := h
  refine Nat.lt_pow_two_of_testBit _ fun i hi => ?_
  rw [hf, Nat.testBit_lt_two_pow (hx.trans_le (Nat.pow_le_pow_right (by omega) hi)),
    Nat.testBit_lt_two_pow (hy.trans_le (Nat.pow_le_pow_right (by omega) hi)), hg]

/-- The function acts on the low bits and on the bits above them apart. -/
theorem BitByBit.split {f : Nat → Nat → Nat} (h : BitByBit f) {n x y : Nat} (X Y : Nat) (hx : x < 2 ^ n)
    (hy : y < 2 ^ n) : f (2 ^ n * X + x) (2 ^ n * Y + y) = 2 ^ n * f X Y + f x y := by
  have hlt := h.lt hx hy
  obtain ⟨g, hg, hf⟩ := h
  refine Nat.eq_of_testBit_eq fun i => ?_
  rw [hf, Nat.testBit_two_pow_mul_add _ hx, Nat.testBit_two_pow_mul_add _ hy, Nat.testBit_two_pow_mul_add _ hlt]
  split <;> rw [hf]

theorem val_map_bitByBit {f : Nat → Nat → Nat} (h : BitByBit f) {w : DigitWidth} {l : List (Nat × Nat)}
    (hl : ∀ p ∈ l, p.1 < w.radix ∧ p.2 < w.radix) :
    val w (l.map fun p => f p.1 p.2).reverse = f (val w (l.map Prod.fst).reverse) (val w (l.map Prod.snd).reverse) := by
  induction l with
  | nil => simp [h.zero]
  | cons p t ih =>
    have hp := hl p (by simp)
    rw [List.map_cons, List.map_cons, List.map_cons, val_reverse_cons, val_reverse_cons, val_reverse_cons,
      ih fun q hq => hl q (by simp [hq])]
    exact (h.split _ _ hp.1 hp.2).symm

/-- `bitop`: the function on the values, of `max(la, lb)` digits (R107). -/
theorem bitop_eq {f : Nat → Nat → Nat} (h : BitByBit f) {w : DigitWidth} {a b : Digits} (ha : digitsFit w a = true)
    (hb : digitsFit w b = true) : bitop f a b = fromNat w (max a.length b.length) (f (val w a) (val w b)) := by
  have hval : val w (bitop f a b) = f (val w a) (val w b) := by
    rw [bitop, val_map_bitByBit h (places_fit ha hb _), places_fst (le_max_left _ _), places_snd (le_max_right _ _)]
  have hlen : (bitop f a b).length = max a.length b.length := by simp [bitop, length_places]
  have hfit : digitsFit w (bitop f a b) = true := by
    simp only [bitop, digitsFit_reverse, digitsFit_iff, List.mem_map]
    rintro d ⟨p, hp, rfl⟩
    exact h.lt (places_fit ha hb _ p hp).1 (places_fit ha hb _ p hp).2
  refine eq_fromNat hfit hlen ?_
  have := val_lt hfit
  rw [hlen] at this
  rw [← hval, Nat.mod_eq_of_lt this]

/-- `bitnot`: `R^la - 1 - val(a)`, length kept (R111). -/
theorem bitnot_eq {w : DigitWidth} {a : Digits} (ha : digitsFit w a = true) :
    bitnot w a = fromNat w a.length (w.radix ^ a.length - 1 - val w a) := by
  have hr := radix_pos w
  have hval : val w (bitnot w a) + val w a + 1 = w.radix ^ a.length := by
    induction a with
    | nil => simp [bitnot]
    | cons d t ih =>
      obtain ⟨hd, ht⟩ := digitsFit_cons.1 ha
      have h := ih ht
      have hl : (bitnot w t).length = t.length := by simp [bitnot]
      have e : bitnot w (d :: t) = (w.radix - 1 - d) :: bitnot w t := rfl
      rw [e, val_cons, val_cons, hl, List.length_cons, pow_succ]
      generalize w.radix ^ t.length = P at *
      obtain ⟨k, hk⟩ : ∃ k, w.radix = d + k + 1 := ⟨w.radix - 1 - d, by omega⟩
      have e2 : w.radix - 1 - d = k := by omega
      rw [e2, hk]
      calc k * P + val w (bitnot w t) + (d * P + val w t) + 1
          = (d + k) * P + (val w (bitnot w t) + val w t + 1) := by ring
        _ = P * (d + k + 1) := by rw [h]; ring
  have hfit : digitsFit w (bitnot w a) = true := by
    simp only [bitnot, digitsFit_iff, List.mem_map]
    rintro d ⟨e, -, rfl⟩
    omega
  refine eq_fromNat hfit (by simp [bitnot]) ?_
  rw [Nat.mod_eq_of_lt (by omega)]
  omega

/-! ## The boundary bits (R105, R106) -/

/-- The top bit of the buffer is bit `N - 1` of the value (R105). -/
theorem topBit_eq {w : DigitWidth} {a : Digits} (ha : digitsFit w a = true) :
    topBit w a = (!a.isEmpty && (val w a).testBit (bufferBits w a - 1)) := by
  cases a with
  | nil => rfl
  | cons d t =>
    obtain ⟨hd, ht⟩ := digitsFit_cons.1 ha
    have hlt := val_lt ht
    rw [radix_pow] at hlt
    have hb := bits_pos w
    rw [val_cons, radix_pow, Nat.mul_comm d, Nat.testBit_two_pow_mul_add _ hlt, bufferBits, List.length_cons, Nat.mul_succ]
    have h1 : ¬ (w.bits * t.length + w.bits - 1 < w.bits * t.length) := by omega
    have h2 : w.bits * t.length + w.bits - 1 - w.bits * t.length = w.bits - 1 := by omega
    rw [if_neg h1, h2]
    rfl

/-- Bit 0 of the least significant digit is the parity of the value (R103, R104, R106). -/
theorem lsd_testBit_zero {w : DigitWidth} {a : Digits} (ha : digitsFit w a = true) :
    (lsd a 0).testBit 0 = decide (val w a % 2 = 1) := by
  rw [lsd_zero_eq_mod ha, Nat.testBit_zero, radix_eq_two_mul, Nat.mod_mul_right_mod]

/-! ## By one bit (R112) -/

@[simp] theorem length_shl1Loop (w : DigitWidth) (c : Nat) (l : Digits) : (shl1Loop w c l).length = l.length := by
  induction l generalizing c with
  | nil => rfl
  | cons d t ih => simp [shl1Loop, ih]

theorem top_bit_le_one {w : DigitWidth} {d : Nat} (hd : d < w.radix) : d / 2 ^ (w.bits - 1) ≤ 1 := by
  rw [radix_eq_two_mul] at hd
  have := (Nat.div_lt_iff_lt_mul (Nat.two_pow_pos (w.bits - 1))).2 hd
  omega

theorem two_mul_mod_radix_add_lt {w : DigitWidth} {d c : Nat} (hc : c ≤ 1) : 2 * d % w.radix + c < w.radix := by
  have h := Nat.mod_lt (2 * d) (radix_pos w)
  rw [radix_eq_two_mul] at h ⊢
  rw [Nat.mul_mod_mul_left] at h ⊢
  omega

theorem two_mul_div_radix (w : DigitWidth) (d : Nat) : 2 * d / w.radix = d / 2 ^ (w.bits - 1) := by
  rw [radix_eq_two_mul, Nat.mul_div_mul_left _ _ (by omega)]

theorem digitsFit_shl1Loop {w : DigitWidth} {c : Nat} {l : Digits} (hc : c ≤ 1) (h : digitsFit w l = true) :
    digitsFit w (shl1Loop w c l) = true := by
  induction l generalizing c with
  | nil => rfl
  | cons d t ih =>
    obtain ⟨hd, ht⟩ := digitsFit_cons.1 h
    rw [shl1Loop, digitsFit_cons]
    exact ⟨two_mul_mod_radix_add_lt hc, ih (top_bit_le_one hd) ht⟩

theorem val_shl1Loop {w : DigitWidth} {c : Nat} {l : Digits} (hc : c ≤ 1) (h : digitsFit w l = true) :
    val w (shl1Loop w c l).reverse = (2 * val w l.reverse + c) % w.radix ^ l.length := by
  induction l generalizing c with
  | nil => simp [shl1Loop, Nat.mod_one]
  | cons d t ih =>
    obtain ⟨hd, ht⟩ := digitsFit_cons.1 h
    rw [shl1Loop, val_reverse_cons, val_reverse_cons, ih (top_bit_le_one hd) ht, List.length_cons, pow_succ,
      Nat.mul_comm (w.radix ^ t.length), Nat.mod_mul]
    have hdm := Nat.div_add_mod (2 * d) w.radix
    have hlt := two_mul_mod_radix_add_lt (w := w) (d := d) hc
    rw [← two_mul_div_radix]
    generalize 2 * d / w.radix = q at *
    generalize 2 * d % w.radix = m at *
    have e : 2 * (w.radix * val w t.reverse + d) + c = (m + c) + w.radix * (2 * val w t.reverse + q) := by
      calc 2 * (w.radix * val w t.reverse + d) + c = 2 * d + c + w.radix * (2 * val w t.reverse) := by ring
        _ = (w.radix * q + m) + c + w.radix * (2 * val w t.reverse) := by rw [hdm]
        _ = (m + c) + w.radix * (2 * val w t.reverse + q) := by ring
    rw [e, Nat.add_mul_mod_self_left, Nat.add_mul_div_left _ _ (radix_pos w), Nat.mod_eq_of_lt hlt,
      Nat.div_eq_of_lt hlt, Nat.zero_add, Nat.add_comm]

/-- The first digit's top bit is the value's bit `N - 1` (R112). -/
theorem head_top_bit {w : DigitWidth} {a : Digits} (ha : digitsFit w a = true) :
    a.headD 0 / 2 ^ (w.bits - 1) = val w a / 2 ^ (bufferBits w a - 1) := by
  cases a with
  | nil => simp
  | cons d t =>
    obtain ⟨hd, ht⟩ := digitsFit_cons.1 ha
    have hlt := val_lt ht
    have hb := bits_pos w
    have e : bufferBits w (d :: t) - 1 = w.bits * t.length + (w.bits - 1) := by
      rw [bufferBits, List.length_cons, Nat.mul_add]; omega
    rw [e, pow_add, ← radix_pow, ← Nat.div_div_eq_div_mul, val_cons, Nat.add_comm,
      Nat.add_mul_div_right _ _ (Nat.pow_pos (radix_pos w)), Nat.div_eq_of_lt hlt, Nat.zero_add, List.headD_cons]

/-- `shl1`: twice the value modulo `2^N` (R112). -/
theorem shl1_eq {w : DigitWidth} {a : Digits} (ha : digitsFit w a = true) :
    shl1 w a = fromNat w a.length (2 * val w a) := by
  have ha' : digitsFit w a.reverse = true := by simpa using ha
  refine eq_fromNat ?_ (by simp [shl1]) ?_
  · simpa [shl1] using digitsFit_shl1Loop (Nat.zero_le 1) ha'
  · rw [shl1, val_shl1Loop (Nat.zero_le 1) ha']; simp

/-- `rol1`: the bit that leaves at the top enters at bit 0 (R112). -/
theorem rol1_eq {w : DigitWidth} {a : Digits} (ha : digitsFit w a = true) :
    rol1 w a = fromNat w a.length (2 * val w a + val w a / 2 ^ (bufferBits w a - 1)) := by
  have ha' : digitsFit w a.reverse = true := by simpa using ha
  have hc : a.headD 0 / 2 ^ (w.bits - 1) ≤ 1 := by
    cases a with
    | nil => simp
    | cons d t => exact top_bit_le_one (digitsFit_cons.1 ha).1
  refine eq_fromNat ?_ (by simp [rol1]) ?_
  · simpa [rol1] using digitsFit_shl1Loop hc ha'
  · rw [rol1, val_shl1Loop hc ha', head_top_bit ha]; simp

@[simp] theorem length_shr1Loop (w : DigitWidth) (c : Nat) (l : Digits) : (shr1Loop w c l).length = l.length := by
  induction l generalizing c with
  | nil => rfl
  | cons d t ih => simp [shr1Loop, ih]

theorem digitsFit_shr1Loop {w : DigitWidth} {c : Nat} {l : Digits} (hc : c ≤ 1) (h : digitsFit w l = true) :
    digitsFit w (shr1Loop w c l) = true := by
  induction l generalizing c with
  | nil => rfl
  | cons d t ih =>
    obtain ⟨hd, ht⟩ := digitsFit_cons.1 h
    rw [shr1Loop, digitsFit_cons]
    refine ⟨?_, ih (by omega) ht⟩
    rw [radix_eq_two_mul] at hd ⊢
    have : c * 2 ^ (w.bits - 1) ≤ 1 * 2 ^ (w.bits - 1) := Nat.mul_le_mul_right _ hc
    omega

theorem val_shr1Loop {w : DigitWidth} {c : Nat} (hc : c ≤ 1) (l : Digits) :
    val w (shr1Loop w c l) = (val w l + c * w.radix ^ l.length) / 2 := by
  induction l generalizing c with
  | nil => simp [shr1Loop]; omega
  | cons d t ih =>
    rw [shr1Loop, val_cons, val_cons, ih (by omega), length_shr1Loop, List.length_cons, pow_succ]
    have hdm := Nat.div_add_mod d 2
    generalize d / 2 = q at *
    generalize d % 2 = m at *
    generalize w.radix ^ t.length = P
    rw [radix_eq_two_mul]
    generalize 2 ^ (w.bits - 1) = H
    have e : d * P + val w t + c * (P * (2 * H)) = (val w t + m * P) + 2 * ((q + c * H) * P) := by
      rw [← hdm]; ring
    rw [e, Nat.add_mul_div_left _ _ (by omega), Nat.add_comm]

/-- `shr1`: half the value (R112). -/
theorem shr1_eq {w : DigitWidth} {a : Digits} (ha : digitsFit w a = true) :
    shr1 w a = fromNat w a.length (val w a / 2) := by
  refine eq_fromNat (digitsFit_shr1Loop (Nat.zero_le 1) ha) (by simp [shr1]) ?_
  rw [shr1, val_shr1Loop (Nat.zero_le 1), Nat.zero_mul, Nat.add_zero, Nat.mod_eq_of_lt]
  have := val_lt ha
  omega

/-- `ror1`: the bit that leaves at bit 0 enters at the top (R112). -/
theorem ror1_eq {w : DigitWidth} {a : Digits} (ha : digitsFit w a = true) :
    ror1 w a = fromNat w a.length (val w a / 2 + val w a % 2 * 2 ^ (bufferBits w a - 1)) := by
  have hm : lsd a 0 % 2 = val w a % 2 := by
    rw [lsd_zero_eq_mod ha, radix_eq_two_mul, Nat.mod_mul_right_mod]
  have hfit := digitsFit_shr1Loop (w := w) (c := val w a % 2) (by omega) ha
  refine eq_fromNat (by rw [ror1, hm]; exact hfit) (by simp [ror1]) ?_
  have hlt := val_lt hfit
  rw [length_shr1Loop] at hlt
  rw [ror1, hm]
  cases a with
  | nil => simp [shr1Loop, Nat.mod_one]
  | cons d t =>
    have hb := bits_pos w
    have e : w.radix ^ (d :: t).length = 2 * 2 ^ (bufferBits w (d :: t) - 1) := by
      rw [radix_pow, ← bufferBits, ← pow_succ']
      congr 1
      rw [bufferBits, List.length_cons, Nat.mul_add]; omega
    have hv : val w (shr1Loop w (val w (d :: t) % 2) (d :: t)) =
        val w (d :: t) / 2 + val w (d :: t) % 2 * 2 ^ (bufferBits w (d :: t) - 1) := by
      rw [val_shr1Loop (by omega), e]
      have e2 : val w (d :: t) % 2 * (2 * 2 ^ (bufferBits w (d :: t) - 1)) =
          2 * (val w (d :: t) % 2 * 2 ^ (bufferBits w (d :: t) - 1)) := by ring
      rw [e2, Nat.add_mul_div_left _ _ (by omega)]
    rw [← hv, Nat.mod_eq_of_lt hlt]

/-! ## By n bits (R117) -/

/-- A count above the width of the buffer shifts everything out, so the cap on the count does not show. -/
theorem shl_eq (w : DigitWidth) (a : Digits) (n : Nat) : shl w a n = fromNat w a.length (val w a * 2 ^ n) := by
  unfold shl
  apply fromNat_congr
  rw [radix_pow]
  rcases le_total n (bufferBits w a) with hle | hle
  · rw [min_eq_left hle]
  · rw [min_eq_right hle]
    unfold bufferBits at *
    obtain ⟨k, hk⟩ := Nat.exists_eq_add_of_le hle
    rw [hk, Nat.pow_add, Nat.mul_mod_left, Nat.mul_left_comm, Nat.mul_mod_right]

theorem shr_eq {w : DigitWidth} {a : Digits} (ha : digitsFit w a = true) (n : Nat) :
    shr w a n = fromNat w a.length (val w a / 2 ^ n) := by
  unfold shr
  congr 1
  have lt := val_lt ha
  have hN : 2 ^ bufferBits w a = w.radix ^ a.length := (radix_pow _ _).symm
  rcases le_total n (bufferBits w a) with hle | hle
  · rw [min_eq_left hle]
  · rw [min_eq_right hle, Nat.div_eq_of_lt (by rw [hN]; exact lt)]
    symm
    apply Nat.div_eq_of_lt
    exact lt_of_lt_of_le lt (by rw [← hN]; exact Nat.pow_le_pow_right (by norm_num) hle)

end Sys2Proof.Machine
end

