-- ==== Sys2Proof/Laws/Decode.lean ====
section
/-! SUPPORT. Reading the fields of a word back: what each format's word holds, and that a word is its fields. -/

namespace Sys2Proof

/-! ## Fields -/

/-- A field is read back from its own place. -/
theorem fieldAt_same {n lo : Nat} (v : BitVec n) (h : lo + n ≤ 32) : (fieldAt v lo).extractLsb' lo n = v := by
  ext i hi
  have : lo + i < 32 := by omega
  simp [fieldAt, this, BitVec.getLsbD_eq_getElem hi]

/-- A field leaves every other place 0. -/
theorem fieldAt_other {n lo lo' n' : Nat} (v : BitVec n) (h : lo' + n' ≤ lo ∨ lo + n ≤ lo') :
    (fieldAt v lo).extractLsb' lo' n' = 0#n' := by
  ext i hi
  rw [BitVec.getElem_extractLsb']
  simp only [fieldAt, BitVec.getLsbD_shiftLeft, BitVec.getLsbD_setWidth]
  by_cases hlt : lo' + i < lo
  · simp [hlt]
  · simp [BitVec.getLsbD_of_ge v (lo' + i - lo) (by omega)]

theorem regBits_regAt (w : Word) (lo : Nat) : regBits (regAt w lo) = w.extractLsb' lo 4 := rfl

theorem regAt_eq {w : Word} {lo : Nat} {r : Reg} (h : w.extractLsb' lo 4 = regBits r) : regAt w lo = r := by
  simp [regAt, h, regBits]

theorem zeroAt_iff {w : Word} {lo n : Nat} : zeroAt w lo n = true ↔ w.extractLsb' lo n = 0#n := by simp [zeroAt]

/-- A bit inside a must-be-zero field is 0. -/
theorem getLsbD_of_zeroAt {w : Word} {lo n k : Nat} (h : zeroAt w lo n = true) (hk : lo ≤ k ∧ k < lo + n) :
    w.getLsbD k = false := by
  have := congrArg (fun v => v.getLsbD (k - lo)) (zeroAt_iff.1 h)
  simp only [BitVec.getLsbD_extractLsb', BitVec.getLsbD_zero] at this
  have h2 : k - lo < n := by omega
  have h3 : lo + (k - lo) = k := by omega
  simpa [h2, h3] using this

/-- Steps 2 and 3 of R61 pass only words with their must-be-zero bits 0 and an empty payload. -/
theorem checked_ok {z : Bool} {p : Digits} {i j : Instr} (h : checked z p i = .ok j) : z = true ∧ p = [] ∧ j = i := by
  unfold checked at h
  cases z <;> cases p <;> simp_all

/-- Steps 2 and 3 of R61 never reject for the opcode. -/
theorem checked_ne_reserved {z : Bool} {p : Digits} {i : Instr} : checked z p i ≠ .error .reservedOpcode := by
  unfold checked
  cases z <;> cases p <;> simp

/-! ## A word is its fields (R57): one lemma per format -/

section Back

variable {w : Word}

theorem wordZ_fields (h : zeroAt w 0 24 = true) : wordZ (opcodeOf w) = w := by
  unfold wordZ opcodeOf
  ext i hi
  have z := getLsbD_of_zeroAt (k := i) h
  interval_cases i <;> simp [fieldAt] at z ⊢ <;> exact z

theorem wordL_fields (h : zeroAt w 16 3 = true) : wordL (opcodeOf w) (rdOf w) (signOf w) (countOf w) = w := by
  unfold wordL rdOf signOf countOf opcodeOf
  simp only [regBits_regAt, BitVec.ofNat_toNat, BitVec.setWidth_eq]
  ext i hi
  have z := getLsbD_of_zeroAt (k := i) h
  interval_cases i <;> simp [fieldAt] at z ⊢ <;> exact z

theorem wordDI_fields (h : zeroAt w 16 4 = true) : wordDI (opcodeOf w) (rdOf w) (immOf w) = w := by
  unfold wordDI rdOf immOf opcodeOf
  simp only [regBits_regAt]
  ext i hi
  have z := getLsbD_of_zeroAt (k := i) h
  interval_cases i <;> simp [fieldAt] at z ⊢ <;> exact z

theorem wordI_fields : wordI (opcodeOf w) (rdOf w) (raOf w) (immOf w) = w := by
  unfold wordI rdOf raOf immOf opcodeOf
  simp only [regBits_regAt]
  ext i hi
  interval_cases i <;> simp [fieldAt]

theorem wordR3_fields (h : zeroAt w 0 12 = true) : wordR3 (opcodeOf w) (rdOf w) (raOf w) (rbOf w) = w := by
  unfold wordR3 rdOf raOf rbOf opcodeOf
  simp only [regBits_regAt]
  ext i hi
  have z := getLsbD_of_zeroAt (k := i) h
  interval_cases i <;> simp [fieldAt] at z ⊢ <;> exact z

theorem wordR4_fields (h : zeroAt w 0 8 = true) : wordR4 (opcodeOf w) (rdOf w) (reOf w) (raOf w) (rbOf w) = w := by
  unfold wordR4 rdOf raOf rbOf reOf opcodeOf
  simp only [regBits_regAt]
  ext i hi
  have z := getLsbD_of_zeroAt (k := i) h
  interval_cases i <;> simp [fieldAt] at z ⊢ <;> exact z

theorem wordR2_fields (h : zeroAt w 0 16 = true) : wordR2 (opcodeOf w) (rdOf w) (raOf w) = w := by
  unfold wordR2 rdOf raOf opcodeOf
  simp only [regBits_regAt]
  ext i hi
  have z := getLsbD_of_zeroAt (k := i) h
  interval_cases i <;> simp [fieldAt] at z ⊢ <;> exact z

theorem wordD1_fields (h : zeroAt w 0 20 = true) : wordD1 (opcodeOf w) (rdOf w) = w := by
  unfold wordD1 rdOf opcodeOf
  simp only [regBits_regAt]
  ext i hi
  have z := getLsbD_of_zeroAt (k := i) h
  interval_cases i <;> simp [fieldAt] at z ⊢ <;> exact z

theorem wordS2_fields (h : zeroAt w 20 4 = true) (h' : zeroAt w 0 12 = true) : wordS2 (opcodeOf w) (raOf w) (rbOf w) = w := by
  unfold wordS2 raOf rbOf opcodeOf
  simp only [regBits_regAt]
  ext i hi
  have z := getLsbD_of_zeroAt (k := i) h
  have z' := getLsbD_of_zeroAt (k := i) h'
  interval_cases i <;> simp [fieldAt] at z z' ⊢ <;> first | exact z | exact z'

theorem wordS1_fields (h : zeroAt w 20 4 = true) (h' : zeroAt w 0 16 = true) : wordS1 (opcodeOf w) (raOf w) = w := by
  unfold wordS1 raOf opcodeOf
  simp only [regBits_regAt]
  ext i hi
  have z := getLsbD_of_zeroAt (k := i) h
  have z' := getLsbD_of_zeroAt (k := i) h'
  interval_cases i <;> simp [fieldAt] at z z' ⊢ <;> first | exact z | exact z'

end Back

/-! ## The fields of a format's word: its opcode, and that the format reads it back -/

section Forth

variable (op : BitVec 8) (rd ra rb re : Reg) (imm : Imm16) (neg : Bool) (p : Digits)

theorem opcodeOf_wordZ : opcodeOf (wordZ op) = op := by
  simp [wordZ, opcodeOf, fieldAt_same]

theorem opcodeOf_wordL (n : Nat) : opcodeOf (wordL op rd neg n) = op := by
  simp [wordL, opcodeOf, BitVec.extractLsb'_or, fieldAt_same, fieldAt_other]

theorem opcodeOf_wordDI : opcodeOf (wordDI op rd imm) = op := by
  simp [wordDI, opcodeOf, BitVec.extractLsb'_or, fieldAt_same, fieldAt_other]

theorem opcodeOf_wordI : opcodeOf (wordI op rd ra imm) = op := by
  simp [wordI, opcodeOf, BitVec.extractLsb'_or, fieldAt_same, fieldAt_other]

theorem opcodeOf_wordR3 : opcodeOf (wordR3 op rd ra rb) = op := by
  simp [wordR3, opcodeOf, BitVec.extractLsb'_or, fieldAt_same, fieldAt_other]

theorem opcodeOf_wordR4 : opcodeOf (wordR4 op rd re ra rb) = op := by
  simp [wordR4, opcodeOf, BitVec.extractLsb'_or, fieldAt_same, fieldAt_other]

theorem opcodeOf_wordR2 : opcodeOf (wordR2 op rd ra) = op := by
  simp [wordR2, opcodeOf, BitVec.extractLsb'_or, fieldAt_same, fieldAt_other]

theorem opcodeOf_wordD1 : opcodeOf (wordD1 op rd) = op := by
  simp [wordD1, opcodeOf, BitVec.extractLsb'_or, fieldAt_same, fieldAt_other]

theorem opcodeOf_wordS2 : opcodeOf (wordS2 op ra rb) = op := by
  simp [wordS2, opcodeOf, BitVec.extractLsb'_or, fieldAt_same, fieldAt_other]

theorem opcodeOf_wordS1 : opcodeOf (wordS1 op ra) = op := by
  simp [wordS1, opcodeOf, BitVec.extractLsb'_or, fieldAt_same, fieldAt_other]

theorem formatZ_wordZ (i : Instr) : formatZ { word := wordZ op, payload := [] } i = .ok i := by
  simp [formatZ, checked, wordZ, zeroAt, fieldAt_other]

theorem formatL_wordL (k : Reg → Bool → Digits → Instr) (h : p.length < 2 ^ 16) :
    formatL { word := wordL op rd neg p.length, payload := p } k = .ok (k rd neg p) := by
  have d : rdOf (wordL op rd neg p.length) = rd :=
    regAt_eq (by simp [wordL, BitVec.extractLsb'_or, fieldAt_same, fieldAt_other])
  have s : signOf (wordL op rd neg p.length) = neg := by simp [wordL, signOf, fieldAt]
  have c : countOf (wordL op rd neg p.length) = p.length := by
    simp [countOf, wordL, BitVec.extractLsb'_or, fieldAt_same, fieldAt_other]
    exact h
  have z : zeroAt (wordL op rd neg p.length) 16 3 = true := by
    simp [zeroAt, wordL, BitVec.extractLsb'_or, fieldAt_other]
  simp [formatL, d, s, c, z]

theorem formatDI_wordDI (k : Reg → Imm16 → Instr) :
    formatDI { word := wordDI op rd imm, payload := [] } k = .ok (k rd imm) := by
  have d : rdOf (wordDI op rd imm) = rd :=
    regAt_eq (by simp [wordDI, BitVec.extractLsb'_or, fieldAt_same, fieldAt_other])
  have z : zeroAt (wordDI op rd imm) 16 4 = true := by
    simp [zeroAt, wordDI, BitVec.extractLsb'_or, fieldAt_other]
  have n : immOf (wordDI op rd imm) = imm := by
    simp [immOf, wordDI, BitVec.extractLsb'_or, fieldAt_same, fieldAt_other]
  simp [formatDI, checked, d, z, n]

theorem formatI_wordI (k : Reg → Reg → Imm16 → Instr) :
    formatI { word := wordI op rd ra imm, payload := [] } k = .ok (k rd ra imm) := by
  have d : rdOf (wordI op rd ra imm) = rd :=
    regAt_eq (by simp [wordI, BitVec.extractLsb'_or, fieldAt_same, fieldAt_other])
  have a : raOf (wordI op rd ra imm) = ra :=
    regAt_eq (by simp [wordI, BitVec.extractLsb'_or, fieldAt_same, fieldAt_other])
  have n : immOf (wordI op rd ra imm) = imm := by
    simp [immOf, wordI, BitVec.extractLsb'_or, fieldAt_same, fieldAt_other]
  simp [formatI, checked, d, a, n]

theorem formatR3_wordR3 (k : Reg → Reg → Reg → Instr) :
    formatR3 { word := wordR3 op rd ra rb, payload := [] } k = .ok (k rd ra rb) := by
  have d : rdOf (wordR3 op rd ra rb) = rd :=
    regAt_eq (by simp [wordR3, BitVec.extractLsb'_or, fieldAt_same, fieldAt_other])
  have a : raOf (wordR3 op rd ra rb) = ra :=
    regAt_eq (by simp [wordR3, BitVec.extractLsb'_or, fieldAt_same, fieldAt_other])
  have b : rbOf (wordR3 op rd ra rb) = rb :=
    regAt_eq (by simp [wordR3, BitVec.extractLsb'_or, fieldAt_same, fieldAt_other])
  have z : zeroAt (wordR3 op rd ra rb) 0 12 = true := by
    simp [zeroAt, wordR3, BitVec.extractLsb'_or, fieldAt_other]
  simp [formatR3, checked, d, a, b, z]

/-- Format R4, up to step 5 of R61. -/
theorem formatR4_wordR4 (k : Reg → Reg → Reg → Reg → Instr) :
    formatR4 { word := wordR4 op rd re ra rb, payload := [] } k =
      if rd = re then .error .sameDestinations else .ok (k rd re ra rb) := by
  have d : rdOf (wordR4 op rd re ra rb) = rd :=
    regAt_eq (by simp [wordR4, BitVec.extractLsb'_or, fieldAt_same, fieldAt_other])
  have a : raOf (wordR4 op rd re ra rb) = ra :=
    regAt_eq (by simp [wordR4, BitVec.extractLsb'_or, fieldAt_same, fieldAt_other])
  have b : rbOf (wordR4 op rd re ra rb) = rb :=
    regAt_eq (by simp [wordR4, BitVec.extractLsb'_or, fieldAt_same, fieldAt_other])
  have e : reOf (wordR4 op rd re ra rb) = re :=
    regAt_eq (by simp [wordR4, BitVec.extractLsb'_or, fieldAt_same, fieldAt_other])
  have z : zeroAt (wordR4 op rd re ra rb) 0 8 = true := by
    simp [zeroAt, wordR4, BitVec.extractLsb'_or, fieldAt_other]
  simp [formatR4, d, a, b, e, z]

theorem formatR2_wordR2 (k : Reg → Reg → Instr) :
    formatR2 { word := wordR2 op rd ra, payload := [] } k = .ok (k rd ra) := by
  have d : rdOf (wordR2 op rd ra) = rd :=
    regAt_eq (by simp [wordR2, BitVec.extractLsb'_or, fieldAt_same, fieldAt_other])
  have a : raOf (wordR2 op rd ra) = ra :=
    regAt_eq (by simp [wordR2, BitVec.extractLsb'_or, fieldAt_same, fieldAt_other])
  have z : zeroAt (wordR2 op rd ra) 0 16 = true := by
    simp [zeroAt, wordR2, BitVec.extractLsb'_or, fieldAt_other]
  simp [formatR2, checked, d, a, z]

theorem formatD1_wordD1 (k : Reg → Instr) :
    formatD1 { word := wordD1 op rd, payload := [] } k = .ok (k rd) := by
  have d : rdOf (wordD1 op rd) = rd :=
    regAt_eq (by simp [wordD1, BitVec.extractLsb'_or, fieldAt_same, fieldAt_other])
  have z : zeroAt (wordD1 op rd) 0 20 = true := by
    simp [zeroAt, wordD1, BitVec.extractLsb'_or, fieldAt_other]
  simp [formatD1, checked, d, z]

theorem formatS2_wordS2 (k : Reg → Reg → Instr) :
    formatS2 { word := wordS2 op ra rb, payload := [] } k = .ok (k ra rb) := by
  have a : raOf (wordS2 op ra rb) = ra :=
    regAt_eq (by simp [wordS2, BitVec.extractLsb'_or, fieldAt_same, fieldAt_other])
  have b : rbOf (wordS2 op ra rb) = rb :=
    regAt_eq (by simp [wordS2, BitVec.extractLsb'_or, fieldAt_same, fieldAt_other])
  have z : zeroAt (wordS2 op ra rb) 20 4 = true := by
    simp [zeroAt, wordS2, BitVec.extractLsb'_or, fieldAt_other]
  have z2 : zeroAt (wordS2 op ra rb) 0 12 = true := by
    simp [zeroAt, wordS2, BitVec.extractLsb'_or, fieldAt_other]
  simp [formatS2, checked, a, b, z, z2]

theorem formatS1_wordS1 (k : Reg → Instr) :
    formatS1 { word := wordS1 op ra, payload := [] } k = .ok (k ra) := by
  have a : raOf (wordS1 op ra) = ra :=
    regAt_eq (by simp [wordS1, BitVec.extractLsb'_or, fieldAt_same, fieldAt_other])
  have z : zeroAt (wordS1 op ra) 20 4 = true := by
    simp [zeroAt, wordS1, BitVec.extractLsb'_or, fieldAt_other]
  have z2 : zeroAt (wordS1 op ra) 0 16 = true := by
    simp [zeroAt, wordS1, BitVec.extractLsb'_or, fieldAt_other]
  simp [formatS1, checked, a, z, z2]

end Forth

/-! ## Masks (R60) -/

/-- A word under a mask that keeps the opcode has the opcode of the pattern. -/
theorem opcodeOf_of_mask {w m p : Word} {op : BitVec 8} (h : w &&& m = p) (hm : m.extractLsb' 24 8 = 0xFF#8)
    (hp : p.extractLsb' 24 8 = op) : opcodeOf w = op := by
  unfold opcodeOf
  rw [← hp, ← h, BitVec.extractLsb'_and, hm]
  ext i hi
  interval_cases i <;> simp

/-- A word under a mask that keeps a field in which the pattern is 0 has that field 0. -/
theorem zeroAt_of_mask {w m p : Word} {lo n : Nat} (h : w &&& m = p) (hm : m.extractLsb' lo n = BitVec.allOnes n)
    (hp : p.extractLsb' lo n = 0#n) : zeroAt w lo n = true := by
  rw [zeroAt_iff, ← hp, ← h, BitVec.extractLsb'_and, hm, BitVec.and_allOnes]

end Sys2Proof
end

