-- ==== Sys2Proof/Laws/Division.lean ====
section
/-! SUPPORT. The steps of the division engine: one trial product, widening the window, one subtraction. -/

namespace Sys2Proof.Machine

variable {w : DigitWidth}

/-- A trial product has exactly its value (R89). -/
theorem val_mulDigit {b : Digits} (hb : digitsFit w b = true) {m : Nat} (hm : m < w.radix) :
    val w (mulDigit w b m) = m * val w b := by
  rw [mulDigit_eq hb hm, val_fromNat, Nat.mod_eq_of_lt, mul_comm]
  rw [pow_succ]
  exact Nat.mul_lt_mul'' (val_lt hb) hm

theorem digitsFit_mulDigit {b : Digits} (hb : digitsFit w b = true) {m : Nat} (hm : m < w.radix) :
    digitsFit w (mulDigit w b m) = true := by
  rw [mulDigit_eq hb hm]
  exact digitsFit_fromNat _ _ _

/-- A window less than the divisor takes in the next digit (R134 step 5a). -/
theorem Window.extend_of_lt {x : Window} {b : Digits} {d : Nat} {t : Digits} (hx : digitsFit w x.window = true)
    (hb : digitsFit w b = true) (hr : x.rest = d :: t) (h : val w x.window < val w b) :
    x.extend b = { window := x.window ++ [d], rest := t } := by
  unfold Window.extend
  rw [if_pos ((compareMag_lt_iff hx hb).2 h), hr]
  rfl

/-- Any other window stays as it is. -/
theorem Window.extend_of_le {x : Window} {b : Digits} (hx : digitsFit w x.window = true) (hb : digitsFit w b = true)
    (h : val w b ≤ val w x.window) : x.extend b = x := by
  unfold Window.extend
  rw [if_neg]
  rw [compareMag_lt_iff hx hb]
  omega

/-- Step 5c keeps the window's length and takes the multiple off its value (R134, R138 (d)). -/
theorem Window.subtract_window {x : Window} {b : Digits} {m : Nat} (hx : digitsFit w x.window = true)
    (hb : digitsFit w b = true) (hm : m < w.radix) (hle : m * val w b ≤ val w x.window) :
    (x.subtract w b m).window = fromNat w x.window.length (val w x.window - m * val w b) := by
  have f := digitsFit_mulDigit hb hm
  have v := val_mulDigit hb hm
  have e := val_sub hx f (by rw [v]; exact hle)
  have ff := digitsFit_sub_fn hx f
  have l := length_sub w x.window (mulDigit w b m)
  simp only [Window.subtract]
  set t := sub w x.window (mulDigit w b m) with ht
  have hlen : (t.drop (t.length - x.window.length)).length = x.window.length := by rw [List.length_drop]; omega
  have fd : digitsFit w (t.drop (t.length - x.window.length)) = true := digitsFit_sub ff (List.drop_subset _ _)
  apply eq_fromNat fd hlen
  have hsplit := val_append w (t.take (t.length - x.window.length)) (t.drop (t.length - x.window.length))
  rw [List.take_append_drop, hlen, e, v] at hsplit
  have lt := val_lt fd
  rw [hlen] at lt
  rw [hsplit, Nat.mul_add_mod_self_right, Nat.mod_eq_of_lt lt]

@[simp] theorem Window.subtract_rest (x : Window) (b : Digits) (m : Nat) : (x.subtract w b m).rest = x.rest := rfl

end Sys2Proof.Machine
end

