-- ==== Sys2Proof/Laws/State.lean ====
section
/-! SUPPORT. What each update of the state leaves in each field: one small lemma per field per update. -/

namespace Sys2Proof.Machine

/-! ## STATUS put together from its fields (R27) -/

section Pack

variable (z : BitVec 23) (f : BitVec 3) (c : BitVec 2) (t : Bool) (e : BitVec 3)

@[simp] theorem statusErr_pack : statusErr (statusPack z f c t e) = e := by
  unfold statusErr statusPack fieldAt; ext i hi; interval_cases i <;> simp

@[simp] theorem statusT_pack : statusT (statusPack z f c t e) = t := by
  simp [statusT, statusPack, fieldAt]

@[simp] theorem statusCmp_pack : statusCmp (statusPack z f c t e) = c := by
  unfold statusCmp statusPack fieldAt; ext i hi; interval_cases i <;> simp

@[simp] theorem statusFerr_pack : statusFerr (statusPack z f c t e) = f := by
  unfold statusFerr statusPack fieldAt; ext i hi; interval_cases i <;> simp

@[simp] theorem statusReserved_pack : statusReserved (statusPack z f c t e) = z := by
  unfold statusReserved statusPack fieldAt; ext i hi; interval_cases i <;> simp

end Pack

/-- The five fields are the whole of `STATUS` (R27). -/
theorem statusPack_fields (st : Word) :
    statusPack (statusReserved st) (statusFerr st) (statusCmp st) (statusT st) (statusErr st) = st := by
  unfold statusPack statusReserved statusFerr statusCmp statusT statusErr fieldAt
  ext i hi; interval_cases i <;> simp

/-! ## Writing one field of STATUS -/

section Setters

variable (s : State)

@[simp] theorem State.setErr_cfg (e : BitVec 3) : (s.setErr e).cfg = s.cfg := rfl
@[simp] theorem State.setErr_regs (e : BitVec 3) : (s.setErr e).regs = s.regs := rfl
@[simp] theorem State.setErr_pending (e : BitVec 3) : (s.setErr e).pending = s.pending := rfl
@[simp] theorem State.setErr_response (e : BitVec 3) : (s.setErr e).response = s.response := rfl
@[simp] theorem State.setErr_reg (e : BitVec 3) (r : Reg) : (s.setErr e).reg r = s.reg r := rfl
@[simp] theorem State.setErr_fits (e : BitVec 3) (n : Nat) : (s.setErr e).fits n = s.fits n := rfl
@[simp] theorem State.setErr_err (e : BitVec 3) : (s.setErr e).err = e := by simp [State.setErr, State.err]
@[simp] theorem State.setErr_truth (e : BitVec 3) : (s.setErr e).truth = s.truth := by simp [State.setErr, State.truth]
@[simp] theorem State.setErr_cmp (e : BitVec 3) : (s.setErr e).cmp = s.cmp := by simp [State.setErr, State.cmp]
@[simp] theorem State.setErr_ferr (e : BitVec 3) : (s.setErr e).ferr = s.ferr := by simp [State.setErr, State.ferr]
@[simp] theorem State.setErr_reserved (e : BitVec 3) : (s.setErr e).reserved = s.reserved := by simp [State.setErr, State.reserved]

@[simp] theorem State.setTruth_cfg (b : Bool) : (s.setTruth b).cfg = s.cfg := rfl
@[simp] theorem State.setTruth_regs (b : Bool) : (s.setTruth b).regs = s.regs := rfl
@[simp] theorem State.setTruth_pending (b : Bool) : (s.setTruth b).pending = s.pending := rfl
@[simp] theorem State.setTruth_response (b : Bool) : (s.setTruth b).response = s.response := rfl
@[simp] theorem State.setTruth_reg (b : Bool) (r : Reg) : (s.setTruth b).reg r = s.reg r := rfl
@[simp] theorem State.setTruth_fits (b : Bool) (n : Nat) : (s.setTruth b).fits n = s.fits n := rfl
@[simp] theorem State.setTruth_err (b : Bool) : (s.setTruth b).err = s.err := by simp [State.setTruth, State.err]
@[simp] theorem State.setTruth_truth (b : Bool) : (s.setTruth b).truth = b := by simp [State.setTruth, State.truth]
@[simp] theorem State.setTruth_cmp (b : Bool) : (s.setTruth b).cmp = s.cmp := by simp [State.setTruth, State.cmp]
@[simp] theorem State.setTruth_ferr (b : Bool) : (s.setTruth b).ferr = s.ferr := by simp [State.setTruth, State.ferr]
@[simp] theorem State.setTruth_reserved (b : Bool) : (s.setTruth b).reserved = s.reserved := by simp [State.setTruth, State.reserved]

@[simp] theorem State.setCmp_cfg (c : BitVec 2) : (s.setCmp c).cfg = s.cfg := rfl
@[simp] theorem State.setCmp_regs (c : BitVec 2) : (s.setCmp c).regs = s.regs := rfl
@[simp] theorem State.setCmp_pending (c : BitVec 2) : (s.setCmp c).pending = s.pending := rfl
@[simp] theorem State.setCmp_response (c : BitVec 2) : (s.setCmp c).response = s.response := rfl
@[simp] theorem State.setCmp_reg (c : BitVec 2) (r : Reg) : (s.setCmp c).reg r = s.reg r := rfl
@[simp] theorem State.setCmp_fits (c : BitVec 2) (n : Nat) : (s.setCmp c).fits n = s.fits n := rfl
@[simp] theorem State.setCmp_err (c : BitVec 2) : (s.setCmp c).err = s.err := by simp [State.setCmp, State.err]
@[simp] theorem State.setCmp_truth (c : BitVec 2) : (s.setCmp c).truth = s.truth := by simp [State.setCmp, State.truth]
@[simp] theorem State.setCmp_cmp (c : BitVec 2) : (s.setCmp c).cmp = c := by simp [State.setCmp, State.cmp]
@[simp] theorem State.setCmp_ferr (c : BitVec 2) : (s.setCmp c).ferr = s.ferr := by simp [State.setCmp, State.ferr]
@[simp] theorem State.setCmp_reserved (c : BitVec 2) : (s.setCmp c).reserved = s.reserved := by simp [State.setCmp, State.reserved]

@[simp] theorem State.setFerr_cfg (e : BitVec 3) : (s.setFerr e).cfg = s.cfg := rfl
@[simp] theorem State.setFerr_regs (e : BitVec 3) : (s.setFerr e).regs = s.regs := rfl
@[simp] theorem State.setFerr_pending (e : BitVec 3) : (s.setFerr e).pending = s.pending := rfl
@[simp] theorem State.setFerr_response (e : BitVec 3) : (s.setFerr e).response = s.response := rfl
@[simp] theorem State.setFerr_reg (e : BitVec 3) (r : Reg) : (s.setFerr e).reg r = s.reg r := rfl
@[simp] theorem State.setFerr_fits (e : BitVec 3) (n : Nat) : (s.setFerr e).fits n = s.fits n := rfl
@[simp] theorem State.setFerr_err (e : BitVec 3) : (s.setFerr e).err = s.err := by simp [State.setFerr, State.err]
@[simp] theorem State.setFerr_truth (e : BitVec 3) : (s.setFerr e).truth = s.truth := by simp [State.setFerr, State.truth]
@[simp] theorem State.setFerr_cmp (e : BitVec 3) : (s.setFerr e).cmp = s.cmp := by simp [State.setFerr, State.cmp]
@[simp] theorem State.setFerr_ferr (e : BitVec 3) : (s.setFerr e).ferr = e := by simp [State.setFerr, State.ferr]
@[simp] theorem State.setFerr_reserved (e : BitVec 3) : (s.setFerr e).reserved = s.reserved := by simp [State.setFerr, State.reserved]

end Setters

/-! ## Writing a register (R22) -/

section Registers

variable (s : State) (r : Reg) (v : Value)

@[simp] theorem State.setReg_cfg : (s.setReg r v).cfg = s.cfg := rfl
@[simp] theorem State.setReg_status : (s.setReg r v).status = s.status := rfl
@[simp] theorem State.setReg_pending : (s.setReg r v).pending = s.pending := rfl
@[simp] theorem State.setReg_response : (s.setReg r v).response = s.response := rfl
@[simp] theorem State.setReg_err : (s.setReg r v).err = s.err := rfl
@[simp] theorem State.setReg_truth : (s.setReg r v).truth = s.truth := rfl
@[simp] theorem State.setReg_cmp : (s.setReg r v).cmp = s.cmp := rfl
@[simp] theorem State.setReg_ferr : (s.setReg r v).ferr = s.ferr := rfl
@[simp] theorem State.setReg_reserved : (s.setReg r v).reserved = s.reserved := rfl
@[simp] theorem State.setReg_regs : (s.setReg r v).regs = s.regs.set r v := rfl
@[simp] theorem State.setReg_fits (n : Nat) : (s.setReg r v).fits n = s.fits n := rfl

/-- The register written reads as the value; every other one as before. -/
theorem State.setReg_reg (q : Reg) : (s.setReg r v).reg q = if q = r then v else s.reg q := by
  by_cases h : q = r
  · subst h; simp [State.reg, State.setReg]
  · have h' : r.val ≠ q.val := fun e => h (Fin.ext e.symm)
    simp [State.reg, State.setReg, h, h']

@[simp] theorem State.setReg_reg_same : (s.setReg r v).reg r = v := by simp [State.setReg_reg]

theorem State.setReg_reg_other {q : Reg} (h : q ≠ r) : (s.setReg r v).reg q = s.reg q := by
  simp [State.setReg_reg, h]

end Registers

/-! ## The response (R62) -/

section Responding

variable (s : State) (v : Option Value)

@[simp] theorem State.respond_cfg : (s.respond v).cfg = s.cfg := rfl
@[simp] theorem State.respond_regs : (s.respond v).regs = s.regs := rfl
@[simp] theorem State.respond_status : (s.respond v).status = s.status := rfl
@[simp] theorem State.respond_pending : (s.respond v).pending = s.pending := rfl
@[simp] theorem State.respond_err : (s.respond v).err = s.err := rfl
@[simp] theorem State.respond_truth : (s.respond v).truth = s.truth := rfl
@[simp] theorem State.respond_cmp : (s.respond v).cmp = s.cmp := rfl
@[simp] theorem State.respond_ferr : (s.respond v).ferr = s.ferr := rfl
@[simp] theorem State.respond_reserved : (s.respond v).reserved = s.reserved := rfl
@[simp] theorem State.respond_reg (r : Reg) : (s.respond v).reg r = s.reg r := rfl
@[simp] theorem State.respond_response :
    (s.respond v).response = some { status := (s.respond v).status, value := v } := rfl

end Responding

/-! ## The success and the error sequence (R226) -/

section Ends

variable (s : State)

@[simp] theorem State.complete_cfg (v : Option Value) : (s.complete v).cfg = s.cfg := rfl
@[simp] theorem State.complete_regs (v : Option Value) : (s.complete v).regs = s.regs := rfl
@[simp] theorem State.complete_pending (v : Option Value) : (s.complete v).pending = s.pending := rfl
@[simp] theorem State.complete_reg (v : Option Value) (r : Reg) : (s.complete v).reg r = s.reg r := rfl
@[simp] theorem State.complete_err (v : Option Value) : (s.complete v).err = 0#3 := by simp [State.complete]
@[simp] theorem State.complete_truth (v : Option Value) : (s.complete v).truth = s.truth := by simp [State.complete]
@[simp] theorem State.complete_cmp (v : Option Value) : (s.complete v).cmp = s.cmp := by simp [State.complete]
@[simp] theorem State.complete_ferr (v : Option Value) : (s.complete v).ferr = s.ferr := by simp [State.complete]
@[simp] theorem State.complete_reserved (v : Option Value) : (s.complete v).reserved = s.reserved := by simp [State.complete]
@[simp] theorem State.complete_response (v : Option Value) :
    (s.complete v).response = some { status := (s.complete v).status, value := v } := rfl

@[simp] theorem State.raise_cfg (e : Error) : (s.raise e).cfg = s.cfg := by
  simp [State.raise, apply_ite State.cfg]
@[simp] theorem State.raise_regs (e : Error) : (s.raise e).regs = s.regs := by
  simp [State.raise, apply_ite State.regs]
@[simp] theorem State.raise_pending (e : Error) : (s.raise e).pending = s.pending := by
  simp [State.raise, apply_ite State.pending]
@[simp] theorem State.raise_reg (e : Error) (r : Reg) : (s.raise e).reg r = s.reg r := by
  simp [State.reg]
@[simp] theorem State.raise_truth (e : Error) : (s.raise e).truth = s.truth := by
  simp [State.raise, apply_ite State.truth]
@[simp] theorem State.raise_cmp (e : Error) : (s.raise e).cmp = s.cmp := by
  simp [State.raise, apply_ite State.cmp]
@[simp] theorem State.raise_reserved (e : Error) : (s.raise e).reserved = s.reserved := by
  simp [State.raise, apply_ite State.reserved]
@[simp] theorem State.raise_err (e : Error) : (s.raise e).err = e.code := by simp [State.raise]
/-- `FERR` keeps the first code since reset (R29). -/
@[simp] theorem State.raise_ferr (e : Error) : (s.raise e).ferr = if s.ferr = 0#3 then e.code else s.ferr := by
  simp only [State.raise, State.respond_ferr, State.setErr_ferr, apply_ite State.ferr, State.setFerr_ferr]
@[simp] theorem State.raise_response (e : Error) :
    (s.raise e).response = some { status := (s.raise e).status, value := none } := rfl

end Ends

/-- A state is known by its fields, `STATUS` by its own. -/
theorem State.ext_fields {s t : State} (h1 : s.cfg = t.cfg) (h2 : s.regs = t.regs) (h3 : s.err = t.err)
    (h4 : s.truth = t.truth) (h5 : s.cmp = t.cmp) (h6 : s.ferr = t.ferr) (h7 : s.reserved = t.reserved)
    (h8 : s.pending = t.pending) (h9 : s.response = t.response) : s = t := by
  have h : s.status = t.status := by
    rw [← statusPack_fields s.status, ← statusPack_fields t.status]
    simp only [State.err, State.truth, State.cmp, State.ferr, State.reserved] at h3 h4 h5 h6 h7
    rw [h3, h4, h5, h6, h7]
  cases s; cases t; simp_all

/-! ## The reset event (R245) -/

@[simp] theorem State.resetOf_reg (c : Config) (r : Reg) : (State.resetOf c).reg r = {} := by
  simp [State.reg, State.resetOf]

@[simp] theorem State.resetEvent_cfg (s : State) : s.resetEvent.cfg = s.cfg := rfl
@[simp] theorem State.resetEvent_pending (s : State) : s.resetEvent.pending = s.pending := rfl
@[simp] theorem State.resetEvent_status (s : State) : s.resetEvent.status = 0#32 := rfl
@[simp] theorem State.resetEvent_response (s : State) : s.resetEvent.response = none := rfl
@[simp] theorem State.resetEvent_reg (s : State) (r : Reg) : s.resetEvent.reg r = {} := State.resetOf_reg s.cfg r

end Sys2Proof.Machine
end

