-- ==== Sys2Proof/Laws/Ops.lean ====
section
/-! SUPPORT. Each way a command can end, said once: what the next state holds, and what it leaves unchanged. -/

namespace Sys2Proof.Machine

theorem complete_succeeds (s t : State) (v : Option Value) (hf : s.ferr = t.ferr) (hr : s.reserved = t.reserved)
    (hc : s.cfg = t.cfg) (hp : s.pending = t.pending) : Succeeded t (s.complete v) v :=
  { err := by simp, ferr := by simp [hf], reserved := by simp [hr], response := rfl, cfg := hc, pending := hp }

/-- The error entry (R225, R226). -/
theorem fail_raises (s : State) (e : Error) : ∃ t, fail s e = .next t ∧ Raised s t e :=
  ⟨_, rfl, { err := by simp, ferr := by simp, truth := by simp, cmp := by simp, reserved := by simp,
             regs := fun r => by simp, response := rfl, cfg := by simp, pending := by simp }⟩

theorem finish_writes_nothing (s : State) : ∃ t, finish s = .next t ∧ WroteNothing s t none :=
  ⟨_, rfl, complete_succeeds _ _ _ rfl rfl rfl rfl, by simp, by simp, fun r => by simp⟩

theorem setReg_complete_wrote (s : State) (rd : Reg) (v : Value) : Wrote s ((s.setReg rd v).complete none) rd v :=
  ⟨complete_succeeds _ _ _ rfl rfl rfl rfl, by simp, by simp, fun r => by simp [State.setReg_reg]⟩

/-- One register (R22). -/
theorem finish_setReg_writes (s : State) (rd : Reg) (v : Value) :
    ∃ t, finish (s.setReg rd v) = .next t ∧ Wrote s t rd v := ⟨_, rfl, setReg_complete_wrote s rd v⟩

/-- One magnitude (R81). -/
theorem writeMag_writes (s : State) (rd : Reg) (m : Digits) :
    ∃ t, writeMag s rd m = .next t ∧ Wrote s t rd { neg := false, mag := m } := finish_setReg_writes s rd _

/-- One value, normalised (R146). -/
theorem writeValue_writes (s : State) (rd : Reg) (v : Value) :
    ∃ t, writeValue s rd v = .next t ∧ Wrote s t rd (normalise v) := finish_setReg_writes s rd _

/-- Two registers, together (R47). -/
theorem finish_setReg_setReg_writes (s : State) (rd : Reg) (v : Value) (re : Reg) (u : Value) :
    ∃ t, finish ((s.setReg rd v).setReg re u) = .next t ∧ WroteBoth s t rd v re u :=
  ⟨_, rfl, complete_succeeds _ _ _ rfl rfl rfl rfl, by simp, by simp, fun r => by simp [State.setReg_reg]⟩

theorem writeMags_writes (s : State) (rd : Reg) (m : Digits) (re : Reg) (k : Digits) :
    ∃ t, writeMags s rd m re k = .next t ∧ WroteBoth s t rd { neg := false, mag := m } re { neg := false, mag := k } :=
  finish_setReg_setReg_writes s rd _ re _

theorem writeValues_writes (s : State) (rd : Reg) (v : Value) (re : Reg) (u : Value) :
    ∃ t, writeValues s rd v re u = .next t ∧ WroteBoth s t rd (normalise v) re (normalise u) :=
  finish_setReg_setReg_writes s rd _ re _

/-- The truth flag (R30). -/
theorem writeTruth_writes (s : State) (b : Bool) : ∃ t, writeTruth s b = .next t ∧ WroteTruth s t b :=
  ⟨_, rfl, complete_succeeds _ _ _ (by simp) (by simp) rfl rfl, by simp, by simp, fun r => by simp⟩

/-- The three-way result (R31). -/
theorem writeCmp_writes (s : State) (o : Ordering) : ∃ t, writeCmp s o = .next t ∧ WroteCmp s t (cmpCode o) :=
  ⟨_, rfl, complete_succeeds _ _ _ (by simp) (by simp) rfl rfl, by simp, by simp, fun r => by simp⟩

/-- The capacity test (R224). -/
theorem ifFits_of_fits {s : State} {n : Nat} (h : s.fits n = true) (k : Result) : ifFits s n k = k := by
  simp [ifFits, h]

theorem ifFits_of_not_fits {s : State} {n : Nat} (h : s.fits n = false) (k : Result) :
    ifFits s n k = fail s .capacityExceeded := by simp [ifFits, h]

/-- A shorter result fits where a longer one does. -/
theorem fits_mono {s : State} {m n : Nat} (h : m ≤ n) (hn : s.fits n = true) : s.fits m = true := by
  unfold State.fits at *
  split at hn <;> simp_all
  omega

theorem fits_max {s : State} {m n : Nat} (hm : s.fits m = true) (hn : s.fits n = true) : s.fits (max m n) = true := by
  rcases max_choice m n with h | h <;> rw [h] <;> assumption

end Sys2Proof.Machine
end

