-- ==== Sys2Proof/Laws/Exec.lean ====
section
/-! SUPPORT. Everything the execution of a command can do to the flags, the response and the frame, said once. -/

namespace Sys2Proof.Machine

/-- The next state `t` of command `i` on `s`: either an error entry, or a success in which `T` changed only if `i` is a
test, `CMP` only if `i` is `PCMP`, and the response carries a value only if `i` is `RDV`. -/
def GoodEnd (i : Instr) (s t : State) : Prop :=
  (∃ e, Raised s t e) ∨
    ∃ v b c regs, SucceededWith s t v b c regs ∧ (isTest i = false → b = s.truth) ∧ (isCompare i = false → c = s.cmp) ∧
      (∀ ra, i = .rdv ra → v = some (s.reg ra) ∧ regs = s.reg) ∧ ((∀ ra, i ≠ .rdv ra) → v = none)

/-- Every next state a result can be is a good end of `i`. -/
def EndsWell (i : Instr) (s : State) (r : Result) : Prop := ∀ t, r = .next t → GoodEnd i s t

section Ends

variable {i : Instr} {s : State}

theorem endsWell_of {r : Result} (h : ∃ t, r = .next t ∧ GoodEnd i s t) : EndsWell i s r := by
  obtain ⟨t, rfl, ht⟩ := h
  rintro u ⟨⟩
  exact ht

theorem endsWell_fail (e : Error) : EndsWell i s (fail s e) := by
  obtain ⟨t, h, ht⟩ := fail_raises s e
  exact endsWell_of ⟨t, h, .inl ⟨e, ht⟩⟩

theorem endsWell_fault (f : Fault) : EndsWell i s (.fault f) := by rintro t ⟨⟩

theorem endsWell_ite {p : Prop} [Decidable p] {r q : Result} (hr : EndsWell i s r) (hq : EndsWell i s q) :
    EndsWell i s (if p then r else q) := by split <;> assumption

theorem endsWell_ifFits {n : Nat} {r : Result} (hr : EndsWell i s r) : EndsWell i s (ifFits s n r) :=
  endsWell_ite hr (endsWell_fail _)

theorem endsWell_finish_setReg (h : ∀ ra, i ≠ .rdv ra) (rd : Reg) (v : Value) :
    EndsWell i s (finish (s.setReg rd v)) := by
  obtain ⟨t, e, ht⟩ := finish_setReg_writes s rd v
  exact endsWell_of ⟨t, e, .inr ⟨_, _, _, _, ht, fun _ => rfl, fun _ => rfl, fun ra hra => absurd hra (h ra), fun _ => rfl⟩⟩

theorem endsWell_finish_setReg_setReg (h : ∀ ra, i ≠ .rdv ra) (rd : Reg) (v : Value) (re : Reg) (u : Value) :
    EndsWell i s (finish ((s.setReg rd v).setReg re u)) := by
  obtain ⟨t, e, ht⟩ := finish_setReg_setReg_writes s rd v re u
  exact endsWell_of ⟨t, e, .inr ⟨_, _, _, _, ht, fun _ => rfl, fun _ => rfl, fun ra hra => absurd hra (h ra), fun _ => rfl⟩⟩

theorem endsWell_finish (h : ∀ ra, i ≠ .rdv ra) : EndsWell i s (finish s) := by
  obtain ⟨t, e, ht⟩ := finish_writes_nothing s
  exact endsWell_of ⟨t, e, .inr ⟨_, _, _, _, ht, fun _ => rfl, fun _ => rfl, fun ra hra => absurd hra (h ra), fun _ => rfl⟩⟩

theorem endsWell_writeTruth (h : isTest i = true) (b : Bool) : EndsWell i s (writeTruth s b) := by
  obtain ⟨t, e, ht⟩ := writeTruth_writes s b
  refine endsWell_of ⟨t, e, .inr ⟨_, _, _, _, ht, fun hf => ?_, fun _ => rfl, fun ra hra => ?_, fun _ => rfl⟩⟩
  · rw [h] at hf; cases hf
  · subst hra; cases h

theorem endsWell_writeCmp (h : isCompare i = true) (o : Ordering) : EndsWell i s (writeCmp s o) := by
  obtain ⟨t, e, ht⟩ := writeCmp_writes s o
  refine endsWell_of ⟨t, e, .inr ⟨_, _, _, _, ht, fun _ => rfl, fun hf => ?_, fun ra hra => ?_, fun _ => rfl⟩⟩
  · rw [h] at hf; cases hf
  · subst hra; cases h

end Ends

theorem execRdv_endsWell (ra : Reg) (s : State) : EndsWell (.rdv ra) s (execRdv ra s) :=
  endsWell_of ⟨_, rfl, .inr ⟨_, _, _, s.reg, ⟨complete_succeeds _ _ _ rfl rfl rfl rfl, by simp, by simp, fun r => by simp⟩,
    fun _ => rfl, fun _ => rfl, by rintro q ⟨⟩; exact ⟨rfl, rfl⟩, fun h => absurd rfl (h ra)⟩⟩

/-- What one command can do (R28 to R31, R62, R225). -/
theorem exec_endsWell (i : Instr) (s : State) : EndsWell i s (exec i s) := by
  have reg : (∀ ra, i ≠ .rdv ra) → ∀ rd v, EndsWell i s (finish (s.setReg rd v)) := endsWell_finish_setReg
  have two : (∀ ra, i ≠ .rdv ra) → ∀ rd v re u, EndsWell i s (finish ((s.setReg rd v).setReg re u)) :=
    endsWell_finish_setReg_setReg
  cases i with
  | nop => exact endsWell_finish (by simp)
  | ldd rd neg p => exact endsWell_ite (endsWell_ifFits (reg (by simp) _ _)) (endsWell_fault _)
  | ldi rd imm => exact reg (by simp) _ _
  | mov rd ra => exact reg (by simp) _ _
  | rdv ra => exact execRdv_endsWell ra s
  | padd rd ra rb => exact endsWell_ifFits (reg (by simp) _ _)
  | psub rd ra rb => exact endsWell_ite (endsWell_fail _) (reg (by simp) _ _)
  | pmul rd ra rb => exact endsWell_ifFits (reg (by simp) _ _)
  | pmuld rd ra rb => exact endsWell_ifFits (reg (by simp) _ _)
  | pdivrem rd re ra rb =>
    exact endsWell_ite (endsWell_fail _) (endsWell_ite (endsWell_fail _) (two (by simp) _ _ _ _))
  | pinc rd => exact endsWell_ite (endsWell_fail _) (reg (by simp) _ _)
  | pdec rd => exact endsWell_ite (endsWell_fail _) (reg (by simp) _ _)
  | pcmp ra rb => exact endsWell_writeCmp rfl _
  | pisz ra => exact endsWell_writeTruth rfl _
  | pisone ra => exact endsWell_writeTruth rfl _
  | peven ra => exact endsWell_writeTruth rfl _
  | podd ra => exact endsWell_writeTruth rfl _
  | phsb ra => exact endsWell_writeTruth rfl _
  | plsb ra => exact endsWell_writeTruth rfl _
  | pand rd ra rb => exact reg (by simp) _ _
  | por rd ra rb => exact reg (by simp) _ _
  | pxor rd ra rb => exact reg (by simp) _ _
  | pnot rd ra => exact reg (by simp) _ _
  | pshl1 rd ra => exact reg (by simp) _ _
  | pshr1 rd ra => exact reg (by simp) _ _
  | prol1 rd ra => exact reg (by simp) _ _
  | pror1 rd ra => exact reg (by simp) _ _
  | pshl rd ra imm => exact reg (by simp) _ _
  | pshr rd ra imm => exact reg (by simp) _ _
  | prol rd ra imm => exact reg (by simp) _ _
  | pror rd ra imm => exact reg (by simp) _ _
  | vadd rd ra rb => exact endsWell_ite (endsWell_ifFits (reg (by simp) _ _)) (reg (by simp) _ _)
  | vsub rd ra rb => exact endsWell_ite (endsWell_ifFits (reg (by simp) _ _)) (reg (by simp) _ _)
  | vmul rd ra rb => exact endsWell_ifFits (reg (by simp) _ _)
  | vdiv rd ra rb => exact endsWell_ite (endsWell_fail _) (reg (by simp) _ _)
  | vrem rd ra rb => exact endsWell_ite (endsWell_fail _) (reg (by simp) _ _)
  | vdivrem rd re ra rb =>
    exact endsWell_ite (endsWell_fail _) (endsWell_ite (endsWell_fail _) (two (by simp) _ _ _ _))
  | vinc rd ra => exact endsWell_ite (endsWell_ifFits (reg (by simp) _ _)) (reg (by simp) _ _)
  | vdec rd ra => exact endsWell_ite (endsWell_fail _) (reg (by simp) _ _)
  | vlt ra rb => exact endsWell_writeTruth rfl _
  | vgt ra rb => exact endsWell_writeTruth rfl _
  | vle ra rb => exact endsWell_writeTruth rfl _
  | vge ra rb => exact endsWell_writeTruth rfl _
  | veq ra rb => exact endsWell_writeTruth rfl _
  | vne ra rb => exact endsWell_writeTruth rfl _
  | vbool ra => exact endsWell_writeTruth rfl _
  | vand rd ra rb => exact reg (by simp) _ _
  | vor rd ra rb => exact reg (by simp) _ _
  | vxor rd ra rb => exact reg (by simp) _ _
  | vnot rd ra => exact reg (by simp) _ _
  | vshl rd ra imm => exact reg (by simp) _ _
  | vshr rd ra imm => exact reg (by simp) _ _

/-- What issuing a command can do: it is executed, or rejected with the error entry of `IllegalCommand` (R61, R223). -/
theorem issue_cases {c : Command} {s t : State} (h : s.issue c = .next t) :
    (∃ i, decode c = .ok i ∧ exec i s = .next t) ∨ ((∃ r, decode c = .error r) ∧ Raised s t .illegalCommand) := by
  unfold State.issue at h
  split at h
  · rename_i i hd; exact .inl ⟨i, hd, h⟩
  · rename_i r hd
    obtain ⟨u, hu, ru⟩ := fail_raises s .illegalCommand
    rw [hu] at h; cases h
    exact .inr ⟨⟨r, hd⟩, ru⟩

/-- The code of an error is not 0 (R220). -/
theorem Error.code_ne_zero (e : Error) : e.code ≠ 0#3 := by cases e <;> decide

theorem Raised.err_ne_zero {s t : State} {e : Error} (h : Raised s t e) : t.err ≠ 0#3 := by
  rw [h.err]; exact e.code_ne_zero

end Sys2Proof.Machine
end

