-- ==== Sys2Proof/Laws/PerInstr.lean ====
section
/-! SUPPORT. For every instruction, as syntax: its word matches its row of the opcode map (30_encoding R60), and only `LDD` has a payload (R56). -/

namespace Sys2Proof

/-- A field under a mask that is 0 there. -/
theorem fieldAt_and_of_zero {n : Nat} (v : BitVec n) {m : Word} {lo : Nat} (h : m.extractLsb' lo n = 0#n) :
    fieldAt v lo &&& m = 0#32 := by
  ext i hi
  have hm : i - lo < n → lo ≤ i → m.getLsbD i = false := fun h1 h2 => by
    have := congrArg (fun x => x.getLsbD (i - lo)) h
    simpa [h1, Nat.add_sub_cancel' h2] using this
  by_cases hl : lo ≤ i
  · by_cases hn : i - lo < n
    · simp [fieldAt, ← BitVec.getLsbD_eq_getElem, hm hn hl]
    · have : v.getLsbD (i - lo) = false := BitVec.getLsbD_of_ge _ _ (by omega)
      simp [fieldAt, this]
  · simp [fieldAt, Nat.lt_of_not_le hl]

theorem wordL_and_mask (op : BitVec 8) (rd : Reg) (neg : Bool) (n : Nat) : wordL op rd neg n &&& 0xFF070000#32 = fieldAt op 24 &&& 0xFF070000#32 := by
  simp [wordL, BitVec.and_or_distrib_right, fieldAt_and_of_zero]

theorem wordDI_and_mask (op : BitVec 8) (rd : Reg) (imm : Imm16) : wordDI op rd imm &&& 0xFF0F0000#32 = fieldAt op 24 &&& 0xFF0F0000#32 := by
  simp [wordDI, BitVec.and_or_distrib_right, fieldAt_and_of_zero]

theorem wordI_and_mask (op : BitVec 8) (rd ra : Reg) (imm : Imm16) : wordI op rd ra imm &&& 0xFF000000#32 = fieldAt op 24 &&& 0xFF000000#32 := by
  simp [wordI, BitVec.and_or_distrib_right, fieldAt_and_of_zero]

theorem wordR3_and_mask (op : BitVec 8) (rd ra rb : Reg) : wordR3 op rd ra rb &&& 0xFF000FFF#32 = fieldAt op 24 &&& 0xFF000FFF#32 := by
  simp [wordR3, BitVec.and_or_distrib_right, fieldAt_and_of_zero]

theorem wordR4_and_mask (op : BitVec 8) (rd re ra rb : Reg) : wordR4 op rd re ra rb &&& 0xFF0000FF#32 = fieldAt op 24 &&& 0xFF0000FF#32 := by
  simp [wordR4, BitVec.and_or_distrib_right, fieldAt_and_of_zero]

theorem wordR2_and_mask (op : BitVec 8) (rd ra : Reg) : wordR2 op rd ra &&& 0xFF00FFFF#32 = fieldAt op 24 &&& 0xFF00FFFF#32 := by
  simp [wordR2, BitVec.and_or_distrib_right, fieldAt_and_of_zero]

theorem wordD1_and_mask (op : BitVec 8) (rd : Reg) : wordD1 op rd &&& 0xFF0FFFFF#32 = fieldAt op 24 &&& 0xFF0FFFFF#32 := by
  simp [wordD1, BitVec.and_or_distrib_right, fieldAt_and_of_zero]

theorem wordS2_and_mask (op : BitVec 8) (ra rb : Reg) : wordS2 op ra rb &&& 0xFFF00FFF#32 = fieldAt op 24 &&& 0xFFF00FFF#32 := by
  simp [wordS2, BitVec.and_or_distrib_right, fieldAt_and_of_zero]

theorem wordS1_and_mask (op : BitVec 8) (ra : Reg) : wordS1 op ra &&& 0xFFF0FFFF#32 = fieldAt op 24 &&& 0xFFF0FFFF#32 := by
  simp [wordS1, BitVec.and_or_distrib_right, fieldAt_and_of_zero]

namespace Laws.MatchesRow

/-- The word of `i` is a word of its row of R60, and it has no payload unless its opcode is that of `LDD`. -/
def Statement (i : Instr) : Prop :=
  encodeWord i &&& i.row.mask = i.row.pattern ∧ (opcodeOf i.row.pattern ≠ 0x01#8 → encodePayload i = [])

theorem nop : Statement .nop :=
  ⟨rfl, fun _ => rfl⟩

theorem ldd (rd : Reg) (neg : Bool) (payload : Digits) : Statement (.ldd rd neg payload) :=
  ⟨(wordL_and_mask 0x01#8 _ _ _).trans rfl, fun h => by simp [Instr.row, opcodeOf] at h⟩

theorem ldi (rd : Reg) (imm : Imm16) : Statement (.ldi rd imm) :=
  ⟨(wordDI_and_mask 0x02#8 _ _).trans rfl, fun _ => rfl⟩

theorem mov (rd : Reg) (ra : Reg) : Statement (.mov rd ra) :=
  ⟨(wordR2_and_mask 0x03#8 _ _).trans rfl, fun _ => rfl⟩

theorem rdv (ra : Reg) : Statement (.rdv ra) :=
  ⟨(wordS1_and_mask 0x04#8 _).trans rfl, fun _ => rfl⟩

theorem padd (rd : Reg) (ra : Reg) (rb : Reg) : Statement (.padd rd ra rb) :=
  ⟨(wordR3_and_mask 0x10#8 _ _ _).trans rfl, fun _ => rfl⟩

theorem psub (rd : Reg) (ra : Reg) (rb : Reg) : Statement (.psub rd ra rb) :=
  ⟨(wordR3_and_mask 0x11#8 _ _ _).trans rfl, fun _ => rfl⟩

theorem pmul (rd : Reg) (ra : Reg) (rb : Reg) : Statement (.pmul rd ra rb) :=
  ⟨(wordR3_and_mask 0x12#8 _ _ _).trans rfl, fun _ => rfl⟩

theorem pmuld (rd : Reg) (ra : Reg) (rb : Reg) : Statement (.pmuld rd ra rb) :=
  ⟨(wordR3_and_mask 0x13#8 _ _ _).trans rfl, fun _ => rfl⟩

theorem pdivrem (rd : Reg) (re : Reg) (ra : Reg) (rb : Reg) : Statement (.pdivrem rd re ra rb) :=
  ⟨(wordR4_and_mask 0x14#8 _ _ _ _).trans rfl, fun _ => rfl⟩

theorem pinc (rd : Reg) : Statement (.pinc rd) :=
  ⟨(wordD1_and_mask 0x15#8 _).trans rfl, fun _ => rfl⟩

theorem pdec (rd : Reg) : Statement (.pdec rd) :=
  ⟨(wordD1_and_mask 0x16#8 _).trans rfl, fun _ => rfl⟩

theorem pcmp (ra : Reg) (rb : Reg) : Statement (.pcmp ra rb) :=
  ⟨(wordS2_and_mask 0x17#8 _ _).trans rfl, fun _ => rfl⟩

theorem pisz (ra : Reg) : Statement (.pisz ra) :=
  ⟨(wordS1_and_mask 0x20#8 _).trans rfl, fun _ => rfl⟩

theorem pisone (ra : Reg) : Statement (.pisone ra) :=
  ⟨(wordS1_and_mask 0x21#8 _).trans rfl, fun _ => rfl⟩

theorem peven (ra : Reg) : Statement (.peven ra) :=
  ⟨(wordS1_and_mask 0x22#8 _).trans rfl, fun _ => rfl⟩

theorem podd (ra : Reg) : Statement (.podd ra) :=
  ⟨(wordS1_and_mask 0x23#8 _).trans rfl, fun _ => rfl⟩

theorem phsb (ra : Reg) : Statement (.phsb ra) :=
  ⟨(wordS1_and_mask 0x24#8 _).trans rfl, fun _ => rfl⟩

theorem plsb (ra : Reg) : Statement (.plsb ra) :=
  ⟨(wordS1_and_mask 0x25#8 _).trans rfl, fun _ => rfl⟩

theorem pand (rd : Reg) (ra : Reg) (rb : Reg) : Statement (.pand rd ra rb) :=
  ⟨(wordR3_and_mask 0x30#8 _ _ _).trans rfl, fun _ => rfl⟩

theorem por (rd : Reg) (ra : Reg) (rb : Reg) : Statement (.por rd ra rb) :=
  ⟨(wordR3_and_mask 0x31#8 _ _ _).trans rfl, fun _ => rfl⟩

theorem pxor (rd : Reg) (ra : Reg) (rb : Reg) : Statement (.pxor rd ra rb) :=
  ⟨(wordR3_and_mask 0x32#8 _ _ _).trans rfl, fun _ => rfl⟩

theorem pnot (rd : Reg) (ra : Reg) : Statement (.pnot rd ra) :=
  ⟨(wordR2_and_mask 0x33#8 _ _).trans rfl, fun _ => rfl⟩

theorem pshl1 (rd : Reg) (ra : Reg) : Statement (.pshl1 rd ra) :=
  ⟨(wordR2_and_mask 0x34#8 _ _).trans rfl, fun _ => rfl⟩

theorem pshr1 (rd : Reg) (ra : Reg) : Statement (.pshr1 rd ra) :=
  ⟨(wordR2_and_mask 0x35#8 _ _).trans rfl, fun _ => rfl⟩

theorem prol1 (rd : Reg) (ra : Reg) : Statement (.prol1 rd ra) :=
  ⟨(wordR2_and_mask 0x36#8 _ _).trans rfl, fun _ => rfl⟩

theorem pror1 (rd : Reg) (ra : Reg) : Statement (.pror1 rd ra) :=
  ⟨(wordR2_and_mask 0x37#8 _ _).trans rfl, fun _ => rfl⟩

theorem pshl (rd : Reg) (ra : Reg) (imm : Imm16) : Statement (.pshl rd ra imm) :=
  ⟨(wordI_and_mask 0x38#8 _ _ _).trans rfl, fun _ => rfl⟩

theorem pshr (rd : Reg) (ra : Reg) (imm : Imm16) : Statement (.pshr rd ra imm) :=
  ⟨(wordI_and_mask 0x39#8 _ _ _).trans rfl, fun _ => rfl⟩

theorem prol (rd : Reg) (ra : Reg) (imm : Imm16) : Statement (.prol rd ra imm) :=
  ⟨(wordI_and_mask 0x3A#8 _ _ _).trans rfl, fun _ => rfl⟩

theorem pror (rd : Reg) (ra : Reg) (imm : Imm16) : Statement (.pror rd ra imm) :=
  ⟨(wordI_and_mask 0x3B#8 _ _ _).trans rfl, fun _ => rfl⟩

theorem vadd (rd : Reg) (ra : Reg) (rb : Reg) : Statement (.vadd rd ra rb) :=
  ⟨(wordR3_and_mask 0x40#8 _ _ _).trans rfl, fun _ => rfl⟩

theorem vsub (rd : Reg) (ra : Reg) (rb : Reg) : Statement (.vsub rd ra rb) :=
  ⟨(wordR3_and_mask 0x41#8 _ _ _).trans rfl, fun _ => rfl⟩

theorem vmul (rd : Reg) (ra : Reg) (rb : Reg) : Statement (.vmul rd ra rb) :=
  ⟨(wordR3_and_mask 0x42#8 _ _ _).trans rfl, fun _ => rfl⟩

theorem vdiv (rd : Reg) (ra : Reg) (rb : Reg) : Statement (.vdiv rd ra rb) :=
  ⟨(wordR3_and_mask 0x43#8 _ _ _).trans rfl, fun _ => rfl⟩

theorem vrem (rd : Reg) (ra : Reg) (rb : Reg) : Statement (.vrem rd ra rb) :=
  ⟨(wordR3_and_mask 0x44#8 _ _ _).trans rfl, fun _ => rfl⟩

theorem vdivrem (rd : Reg) (re : Reg) (ra : Reg) (rb : Reg) : Statement (.vdivrem rd re ra rb) :=
  ⟨(wordR4_and_mask 0x45#8 _ _ _ _).trans rfl, fun _ => rfl⟩

theorem vinc (rd : Reg) (ra : Reg) : Statement (.vinc rd ra) :=
  ⟨(wordR2_and_mask 0x46#8 _ _).trans rfl, fun _ => rfl⟩

theorem vdec (rd : Reg) (ra : Reg) : Statement (.vdec rd ra) :=
  ⟨(wordR2_and_mask 0x47#8 _ _).trans rfl, fun _ => rfl⟩

theorem vlt (ra : Reg) (rb : Reg) : Statement (.vlt ra rb) :=
  ⟨(wordS2_and_mask 0x50#8 _ _).trans rfl, fun _ => rfl⟩

theorem vgt (ra : Reg) (rb : Reg) : Statement (.vgt ra rb) :=
  ⟨(wordS2_and_mask 0x51#8 _ _).trans rfl, fun _ => rfl⟩

theorem vle (ra : Reg) (rb : Reg) : Statement (.vle ra rb) :=
  ⟨(wordS2_and_mask 0x52#8 _ _).trans rfl, fun _ => rfl⟩

theorem vge (ra : Reg) (rb : Reg) : Statement (.vge ra rb) :=
  ⟨(wordS2_and_mask 0x53#8 _ _).trans rfl, fun _ => rfl⟩

theorem veq (ra : Reg) (rb : Reg) : Statement (.veq ra rb) :=
  ⟨(wordS2_and_mask 0x54#8 _ _).trans rfl, fun _ => rfl⟩

theorem vne (ra : Reg) (rb : Reg) : Statement (.vne ra rb) :=
  ⟨(wordS2_and_mask 0x55#8 _ _).trans rfl, fun _ => rfl⟩

theorem vbool (ra : Reg) : Statement (.vbool ra) :=
  ⟨(wordS1_and_mask 0x56#8 _).trans rfl, fun _ => rfl⟩

theorem vand (rd : Reg) (ra : Reg) (rb : Reg) : Statement (.vand rd ra rb) :=
  ⟨(wordR3_and_mask 0x60#8 _ _ _).trans rfl, fun _ => rfl⟩

theorem vor (rd : Reg) (ra : Reg) (rb : Reg) : Statement (.vor rd ra rb) :=
  ⟨(wordR3_and_mask 0x61#8 _ _ _).trans rfl, fun _ => rfl⟩

theorem vxor (rd : Reg) (ra : Reg) (rb : Reg) : Statement (.vxor rd ra rb) :=
  ⟨(wordR3_and_mask 0x62#8 _ _ _).trans rfl, fun _ => rfl⟩

theorem vnot (rd : Reg) (ra : Reg) : Statement (.vnot rd ra) :=
  ⟨(wordR2_and_mask 0x63#8 _ _).trans rfl, fun _ => rfl⟩

theorem vshl (rd : Reg) (ra : Reg) (imm : Imm16) : Statement (.vshl rd ra imm) :=
  ⟨(wordI_and_mask 0x64#8 _ _ _).trans rfl, fun _ => rfl⟩

theorem vshr (rd : Reg) (ra : Reg) (imm : Imm16) : Statement (.vshr rd ra imm) :=
  ⟨(wordI_and_mask 0x65#8 _ _ _).trans rfl, fun _ => rfl⟩

end Laws.MatchesRow

end Sys2Proof
end

