-- ==== Sys2Proof/Laws/Values.lean ====
section
/-! SUPPORT. The functions on signed values in closed form: the normaliser, negation, comparison. -/

namespace Sys2Proof.Machine

/-! ## The normaliser (R11, R145) -/

theorem normalise_eq (w : DigitWidth) (b : Bool) (m : Digits) :
    normalise { neg := b, mag := m } = { neg := b && decide (val w m ≠ 0), mag := m } := by
  unfold normalise
  rw [isZero_eq w]
  by_cases h : val w m = 0 <;> simp [h]

theorem normalise_fromNat {w : DigitWidth} (b : Bool) {n v : Nat} (h : v < w.radix ^ n) :
    normalise { neg := b, mag := fromNat w n v } = signedDigits w b n v := by
  rw [normalise_eq w, val_fromNat, Nat.mod_eq_of_lt h]
  rfl

/-- The number with sign `b` and magnitude `v`. -/
theorem signedDigits_eq_ofInt (w : DigitWidth) (b : Bool) (n v : Nat) :
    signedDigits w b n v = ofInt w n (if b then -(v : Int) else v) := by
  unfold signedDigits ofInt
  cases b
  · simp
  · by_cases h : v = 0
    · simp [h]
    · simp [h]
      omega

/-! ## Signed values (R11) -/

theorem natAbs_sval (w : DigitWidth) (v : Value) : (sval w v).natAbs = val w v.mag := by
  unfold sval
  split <;> simp

theorem sval_flipSign (w : DigitWidth) (v : Value) : sval w (flipSign v) = -sval w v := by
  rcases v with ⟨_ | _, m⟩ <;> simp [sval, flipSign]

theorem sval_ofInt {w : DigitWidth} {n : Nat} {z : Int} (h : z.natAbs < w.radix ^ n) : sval w (ofInt w n z) = z := by
  simp only [sval, ofInt, val_fromNat, Nat.mod_eq_of_lt h]
  by_cases hz : z < 0 <;> simp only [hz, decide_true, decide_false, if_true, if_false, Bool.false_eq_true] <;> omega

/-! ## Comparison (R181) -/

/-- `vcmp` is the order of the signed numbers, on normalised values. -/
theorem vcmp_eq {w : DigitWidth} {x y : Value} (hx : digitsFit w x.mag = true) (hy : digitsFit w y.mag = true)
    (nx : isZero x.mag = true → x.neg = false) (ny : isZero y.mag = true → y.neg = false) :
    vcmp x y = compare (sval w x) (sval w y) := by
  have px : x.neg = true → 0 < val w x.mag := fun h => by
    by_contra hc
    simpa [h] using nx ((isZero_iff (w := w)).2 (by omega))
  have py : y.neg = true → 0 < val w y.mag := fun h => by
    by_contra hc
    simpa [h] using ny ((isZero_iff (w := w)).2 (by omega))
  unfold vcmp sval
  rw [compareMag_eq hx hy]
  rcases hxn : x.neg with _ | _ <;> rcases hyn : y.neg with _ | _ <;> simp <;> symm
  · rcases lt_trichotomy (val w x.mag) (val w y.mag) with h | h | h
    · rw [Nat.compare_eq_lt.2 h, compare_lt_iff_lt]; omega
    · rw [h]; simp
    · rw [Nat.compare_eq_gt.2 h, compare_gt_iff_gt]; omega
  · rw [compare_gt_iff_gt]; have := py hyn; omega
  · rw [compare_lt_iff_lt]; have := px hxn; omega
  · rcases lt_trichotomy (val w x.mag) (val w y.mag) with h | h | h
    · rw [Nat.compare_eq_lt.2 h]; show compare _ _ = .gt; rw [compare_gt_iff_gt]; omega
    · rw [h]; simp
    · rw [Nat.compare_eq_gt.2 h]; show compare _ _ = .lt; rw [compare_lt_iff_lt]; omega

end Sys2Proof.Machine
end

