-- ==== Sys2Proof/Machine/Assembly.lean ====
section
/-! DEFINITION. The assembly notation of a command (spec 30_encoding R66). It is text for readers: the machine never sees it. -/

namespace Sys2Proof.Machine

/-- The digits of a number in base `base`, most significant first; `fuel` bounds their number. -/
def asmNumeral (base : Nat) : Nat → Nat → List Nat
  | 0, _ => []
  | fuel + 1, n => if n < base then [n] else asmNumeral base fuel (n / base) ++ [n % base]

/-- A number in decimal (R66). -/
def asmNumber (n : Nat) : String := String.ofList ((asmNumeral 10 20 n).map fun d => Char.ofNat (48 + d))

/-- A register, `v0` to `v15` (R66). -/
def asmReg (r : Reg) : String := "v" ++ asmNumber r.val

/-- An immediate (R66). -/
def asmImm (imm : Imm16) : String := asmNumber imm.toNat

/-- Operands separated by commas (R66). -/
def asmJoin : List String → String
  | [] => ""
  | [x] => x
  | x :: y :: rest => x ++ ", " ++ asmJoin (y :: rest)

/-- A digit list in braces (code points 123 and 125), most significant digit first, a leading `-` for the negative
flag; the field `count` is not written (R66). -/
def asmDigits (neg : Bool) (payload : Digits) : String :=
  (if neg then "-" else "") ++ String.ofList [Char.ofNat 123] ++ asmJoin (payload.map asmNumber)
    ++ String.ofList [Char.ofNat 125]

/-- The mnemonic of a command (R60). -/
def mnemonic : Instr → String
  | .nop => "NOP"
  | .ldd _ _ _ => "LDD"
  | .ldi _ _ => "LDI"
  | .mov _ _ => "MOV"
  | .rdv _ => "RDV"
  | .padd _ _ _ => "PADD"
  | .psub _ _ _ => "PSUB"
  | .pmul _ _ _ => "PMUL"
  | .pmuld _ _ _ => "PMULD"
  | .pdivrem _ _ _ _ => "PDIVREM"
  | .pinc _ => "PINC"
  | .pdec _ => "PDEC"
  | .pcmp _ _ => "PCMP"
  | .pisz _ => "PISZ"
  | .pisone _ => "PISONE"
  | .peven _ => "PEVEN"
  | .podd _ => "PODD"
  | .phsb _ => "PHSB"
  | .plsb _ => "PLSB"
  | .pand _ _ _ => "PAND"
  | .por _ _ _ => "POR"
  | .pxor _ _ _ => "PXOR"
  | .pnot _ _ => "PNOT"
  | .pshl1 _ _ => "PSHL1"
  | .pshr1 _ _ => "PSHR1"
  | .prol1 _ _ => "PROL1"
  | .pror1 _ _ => "PROR1"
  | .pshl _ _ _ => "PSHL"
  | .pshr _ _ _ => "PSHR"
  | .prol _ _ _ => "PROL"
  | .pror _ _ _ => "PROR"
  | .vadd _ _ _ => "VADD"
  | .vsub _ _ _ => "VSUB"
  | .vmul _ _ _ => "VMUL"
  | .vdiv _ _ _ => "VDIV"
  | .vrem _ _ _ => "VREM"
  | .vdivrem _ _ _ _ => "VDIVREM"
  | .vinc _ _ => "VINC"
  | .vdec _ _ => "VDEC"
  | .vlt _ _ => "VLT"
  | .vgt _ _ => "VGT"
  | .vle _ _ => "VLE"
  | .vge _ _ => "VGE"
  | .veq _ _ => "VEQ"
  | .vne _ _ => "VNE"
  | .vbool _ => "VBOOL"
  | .vand _ _ _ => "VAND"
  | .vor _ _ _ => "VOR"
  | .vxor _ _ _ => "VXOR"
  | .vnot _ _ => "VNOT"
  | .vshl _ _ _ => "VSHL"
  | .vshr _ _ _ => "VSHR"

/-- The operands of a command: destinations, then sources, then the immediate or the digits (R66). -/
def asmOperands : Instr → List String
  | .nop => []
  | .ldd rd neg payload => [asmReg rd, asmDigits neg payload]
  | .ldi rd imm => [asmReg rd, asmImm imm]
  | .mov rd ra => [asmReg rd, asmReg ra]
  | .rdv ra => [asmReg ra]
  | .padd rd ra rb => [asmReg rd, asmReg ra, asmReg rb]
  | .psub rd ra rb => [asmReg rd, asmReg ra, asmReg rb]
  | .pmul rd ra rb => [asmReg rd, asmReg ra, asmReg rb]
  | .pmuld rd ra rb => [asmReg rd, asmReg ra, asmReg rb]
  | .pdivrem rd re ra rb => [asmReg rd, asmReg re, asmReg ra, asmReg rb]
  | .pinc rd => [asmReg rd]
  | .pdec rd => [asmReg rd]
  | .pcmp ra rb => [asmReg ra, asmReg rb]
  | .pisz ra => [asmReg ra]
  | .pisone ra => [asmReg ra]
  | .peven ra => [asmReg ra]
  | .podd ra => [asmReg ra]
  | .phsb ra => [asmReg ra]
  | .plsb ra => [asmReg ra]
  | .pand rd ra rb => [asmReg rd, asmReg ra, asmReg rb]
  | .por rd ra rb => [asmReg rd, asmReg ra, asmReg rb]
  | .pxor rd ra rb => [asmReg rd, asmReg ra, asmReg rb]
  | .pnot rd ra => [asmReg rd, asmReg ra]
  | .pshl1 rd ra => [asmReg rd, asmReg ra]
  | .pshr1 rd ra => [asmReg rd, asmReg ra]
  | .prol1 rd ra => [asmReg rd, asmReg ra]
  | .pror1 rd ra => [asmReg rd, asmReg ra]
  | .pshl rd ra imm => [asmReg rd, asmReg ra, asmImm imm]
  | .pshr rd ra imm => [asmReg rd, asmReg ra, asmImm imm]
  | .prol rd ra imm => [asmReg rd, asmReg ra, asmImm imm]
  | .pror rd ra imm => [asmReg rd, asmReg ra, asmImm imm]
  | .vadd rd ra rb => [asmReg rd, asmReg ra, asmReg rb]
  | .vsub rd ra rb => [asmReg rd, asmReg ra, asmReg rb]
  | .vmul rd ra rb => [asmReg rd, asmReg ra, asmReg rb]
  | .vdiv rd ra rb => [asmReg rd, asmReg ra, asmReg rb]
  | .vrem rd ra rb => [asmReg rd, asmReg ra, asmReg rb]
  | .vdivrem rd re ra rb => [asmReg rd, asmReg re, asmReg ra, asmReg rb]
  | .vinc rd ra => [asmReg rd, asmReg ra]
  | .vdec rd ra => [asmReg rd, asmReg ra]
  | .vlt ra rb => [asmReg ra, asmReg rb]
  | .vgt ra rb => [asmReg ra, asmReg rb]
  | .vle ra rb => [asmReg ra, asmReg rb]
  | .vge ra rb => [asmReg ra, asmReg rb]
  | .veq ra rb => [asmReg ra, asmReg rb]
  | .vne ra rb => [asmReg ra, asmReg rb]
  | .vbool ra => [asmReg ra]
  | .vand rd ra rb => [asmReg rd, asmReg ra, asmReg rb]
  | .vor rd ra rb => [asmReg rd, asmReg ra, asmReg rb]
  | .vxor rd ra rb => [asmReg rd, asmReg ra, asmReg rb]
  | .vnot rd ra => [asmReg rd, asmReg ra]
  | .vshl rd ra imm => [asmReg rd, asmReg ra, asmImm imm]
  | .vshr rd ra imm => [asmReg rd, asmReg ra, asmImm imm]

/-- One command on one line (R66). -/
def assembly (i : Instr) : String :=
  match asmOperands i with
  | [] => mnemonic i
  | ops => mnemonic i ++ " " ++ asmJoin ops

end Sys2Proof.Machine
end

