-- ==== Sys2Proof/Machine/HostProcedures.lean ====
section
/-! DEFINITION. The host's side, which is no part of the hardware: runs, pseudo-instructions, hexadecimal text and the
number-theoretic procedures, each made of commands (spec 70 R259, R260; 30 R68; 48_host-procedures R205 to R213).
Nothing here adds state or a command (log entry 11). -/

namespace Sys2Proof.Machine

/-- Why a host procedure gives no result. -/
inductive HostFailure where
  /-- A character that is neither a hexadecimal digit nor a space (R206); no command has been issued. -/
  | formatError
  /-- The operands are outside the domain the spec defines the procedure on (R213). -/
  | outsideDomain
  /-- A command reported this error code in its response (R62, R226); the host stops there. -/
  | commandFailed (code : BitVec 3)
  /-- The host's loop did not end within its bound, or the model stopped; neither happens on sound states. -/
  | notFinished
  deriving DecidableEq, Repr

/-- What a host procedure answers. -/
abbrev HostResult (α : Type) := Except HostFailure α

/-! ## Issuing commands (R259, R260) -/

/-- Issue one command and read its response; go on only when it succeeded. -/
def State.send (s : State) (i : Instr) : HostResult State :=
  match s.issue (encode i) with
  | .next t => if t.err = 0#3 then .ok t else .error (.commandFailed t.err)
  | _ => .error .notFinished

/-- Issue a list of commands, each after the response to the one before it; go on only when each succeeds (R259). -/
def State.sendAll (s : State) : List Instr → HostResult State
  | [] => .ok s
  | i :: rest => (s.send i).bind fun t => t.sendAll rest

/-- The run of a list of commands: the final state, and the list of the responses (R49, R259). An error does not end it. -/
def State.run (s : State) : List Command → Host.Outcome (State × List (Option Response)) Fault Refusal
  | [] => .next (s, [])
  | c :: rest =>
    match s.issue c with
    | .next t =>
      match t.run rest with
      | .next (u, rs) => .next (u, t.response :: rs)
      | .fault f => .fault f
      | .refused r => .refused r
    | .fault f => .fault f
    | .refused r => .refused r

/-! ## Pseudo-instructions (R68) -/

/-- `VZERO vd`. -/
def vzero (vd : Reg) : List Instr := [.ldd vd false []]

/-- `VONE vd`. -/
def vone (vd : Reg) : List Instr := [.ldi vd 1#16]

/-- `VNEG vd, va, vt`, which needs `vt` different from `va` and overwrites it. -/
def vneg (vd va vt : Reg) : List Instr := [.ldd vt false [], .vsub vd vt va]

/-- `a++`: `vt` keeps the old value. -/
def postIncrement (va vt : Reg) : List Instr := [.mov vt va, .vinc va va]

/-- `a--`. -/
def postDecrement (va vt : Reg) : List Instr := [.mov vt va, .vdec va va]

/-! ## Hexadecimal text (R205 to R208) -/

/-- The value of a hexadecimal digit, of either case (R205). -/
def hexValue (c : Char) : Option Nat :=
  if '0' ≤ c ∧ c ≤ '9' then some (c.toNat - 48)
  else if 'A' ≤ c ∧ c ≤ 'F' then some (c.toNat - 55)
  else if 'a' ≤ c ∧ c ≤ 'f' then some (c.toNat - 87)
  else none

/-- The upper-case hexadecimal digit of a number below 16 (R207). -/
def hexChar (d : Nat) : Char := if d < 10 then Char.ofNat (48 + d) else Char.ofNat (55 + d)

/-- Every space (U+0020) removed, wherever it stands (R205). -/
def withoutSpaces (t : List Char) : List Char := t.filter fun c => c != ' '

/-- The text without a leading `-`, and whether there was one (R205). -/
def splitSign (t : List Char) : Bool × List Char :=
  match t with
  | [] => (false, [])
  | c :: rest => if c = '-' then (true, rest) else (false, c :: rest)

/-- The number whose base-16 numeral is `t`; none when a character is no hexadecimal digit. -/
def hexNumber (n : Nat) : List Char → Option Nat
  | [] => some n
  | c :: rest =>
    match hexValue c with
    | some d => hexNumber (16 * n + d) rest
    | none => none

/-- Hexadecimal characters of one digit (R205, R207). -/
def charsPerDigit (w : DigitWidth) : Nat := w.bits / 4

/-- `HEXPARSE(s, rd)`: the `LDD` that loads the number, as the shortest digit list (R205).
DESIGN CHOICE: for a digit list of more than 65535 digits, which `count` cannot tell (R59), the spec does not say what
the host does; the answer is still this `LDD`, and sending it ends in `IllegalCommand` (log entry 13). -/
def hexParse (w : DigitWidth) (rd : Reg) (s : List Char) : HostResult Instr :=
  match hexNumber 0 (splitSign (withoutSpaces s)).2 with
  | none => .error .formatError
  | some n =>
    .ok (.ldd rd (splitSign (withoutSpaces s)).1
      (strip (fromNat w
        (((splitSign (withoutSpaces s)).2.length + charsPerDigit w - 1) / charsPerDigit w) n)))

/-- The `k` hexadecimal characters of `d mod 16^k`, least significant first. -/
def hexLow : Nat → Nat → List Char
  | 0, _ => []
  | k + 1, d => hexChar (d % 16) :: hexLow k (d / 16)

/-- One digit, padded on the left with `0` to all its characters (R207). -/
def hexDigit (w : DigitWidth) (d : Nat) : List Char := (hexLow (charsPerDigit w) d).reverse

/-- Leading `0` characters removed. -/
def dropZeroChars (t : List Char) : List Char := t.dropWhile fun c => c == '0'

/-- `HEXRENDER(neg, mag)` (R207). -/
def hexRender (w : DigitWidth) (v : Value) : List Char :=
  match strip v.mag with
  | [] => ['0']
  | d :: rest => (if v.neg then ['-'] else []) ++ dropZeroChars (hexDigit w d) ++ rest.flatMap (hexDigit w)

/-- `canon(s)` (R208). -/
def canon (s : List Char) : List Char :=
  match (dropZeroChars (splitSign (withoutSpaces s)).2).map Char.toUpper with
  | [] => ['0']
  | c :: rest => (if (splitSign (withoutSpaces s)).1 then ['-'] else []) ++ c :: rest

/-! ## Greatest common divisor (R210) -/

/-- The loop of `GCD`, at most `n` turns. -/
def gcdLoop (x y q r : Reg) : Nat → State → HostResult State
  | 0, _ => .error .notFinished
  | n + 1, s =>
    (s.send (.pisz y)).bind fun t =>
      if t.truth then .ok t
      else (t.sendAll [.pdivrem q r x y, .mov x y, .mov y r]).bind (gcdLoop x y q r n)

/-- `GCD(a, b)` into `d`, with scratch registers different from each other. The divisor strictly decreases,
so one turn more than its value is enough (R210). -/
def gcd (d a b x y q r : Reg) (s : State) : HostResult State :=
  (s.sendAll [.mov x a, .mov y b]).bind fun t =>
    (gcdLoop x y q r (val t.cfg.width (t.mag y) + 1) t).bind fun u => u.send (.por d x x)

/-! ## Modular inverse (R211)

Only the relation of R211 between operands and result is normative (R209), and it has no exception for capacity. In the
expansion that R211 prints the coefficients `t` gain leading zeros every turn, so the host keeps them as numbers below
`m` and changes them by subtraction of non-negative values alone, which never lengthens a buffer (R174; log entry 11). -/

/-- The registers of `MODINV`: the operands `a` and `m`, and scratch registers different from them and from each other. -/
structure ModInvRegs where
  a : Reg
  m : Reg
  r0 : Reg
  r1 : Reg
  t0 : Reg
  t1 : Reg
  q : Reg
  r2 : Reg
  multiple : Reg
  spare : Reg
  deriving DecidableEq, Repr

/-- `x <- (x - y) mod m` for `x < m` and `y <= m`, in buffers no longer than the longest of the three.
`u` is a scratch register, which may be `y` itself. -/
def subMod (x y m u : Reg) (s : State) : HostResult State :=
  (s.send (.vge x y)).bind fun t =>
    if t.truth then t.send (.vsub x x y) else t.sendAll [.vsub u y x, .vsub x m u]

/-- `y <- (2 * y) mod m` for `y < m`, as `y - (m - y)`. -/
def doubleMod (y m u : Reg) (s : State) : HostResult State :=
  (s.send (.vsub u m y)).bind (subMod y u m u)

/-- Take the multiple away from `t0` when the low bit of what is left of `q` is 1. -/
def modInvTake (v : ModInvRegs) (s : State) : HostResult State :=
  (s.send (.podd v.q)).bind fun t => if t.truth then subMod v.t0 v.multiple v.m v.spare t else .ok t

/-- `t0 <- (t0 - q * multiple) mod m` over the bits of `q` from the lowest, at most `n` of them. -/
def modInvCoefficient (v : ModInvRegs) : Nat → State → HostResult State
  | 0, _ => .error .notFinished
  | n + 1, s =>
    (s.send (.vbool v.q)).bind fun t =>
      if t.truth then
        (modInvTake v t).bind fun u =>
          (u.send (.vshr v.q v.q 1#16)).bind fun x =>
            (doubleMod v.multiple v.m v.spare x).bind (modInvCoefficient v n)
      else .ok t

/-- One turn of the extended Euclidean algorithm, with `r1` not zero: `(r0, r1)` becomes `(r1, r0 mod r1)`, and
`(t0, t1)` becomes `(t1, (t0 - q * t1) mod m)`. -/
def modInvTurn (v : ModInvRegs) (s : State) : HostResult State :=
  (s.sendAll [.vdivrem v.q v.r2 v.r0 v.r1, .mov v.multiple v.t1]).bind fun t =>
    (modInvCoefficient v (t.cfg.width.bits * t.len v.q + 1) t).bind fun u =>
      u.sendAll [.mov v.r0 v.r1, .mov v.r1 v.r2, .mov v.multiple v.t0, .mov v.t0 v.t1, .mov v.t1 v.multiple]

/-- The loop of the extended Euclidean algorithm, at most `n` turns. -/
def modInvLoop (v : ModInvRegs) : Nat → State → HostResult State
  | 0, _ => .error .notFinished
  | n + 1, s =>
    (s.send (.vbool v.r1)).bind fun t =>
      if t.truth then (modInvTurn v t).bind (modInvLoop v n) else .ok t

/-- The end of `MODINV`: whether the inverse exists, and in `t0` the inverse, or zero when there is none. -/
def modInvEnd (v : ModInvRegs) (s : State) : HostResult (Bool × State) :=
  (s.send (.pisone v.r0)).bind fun t =>
    if t.truth then .ok (true, t) else (t.send (.ldd v.t0 false [0])).bind fun u => .ok (false, u)

/-- `MODINV(a, m)`, defined for `a >= 0` and `m >= 2` only (R211, R213). No command of it raises an error: every result
is no longer than a source, and the divisor is tested before each division. The divisor strictly decreases, so one turn
more than its value is enough. -/
def modInv (v : ModInvRegs) (s : State) : HostResult (Bool × State) :=
  if 0 ≤ sval s.cfg.width (s.reg v.a) ∧ 2 ≤ sval s.cfg.width (s.reg v.m) then
    (s.sendAll [.mov v.r0 v.m, .vrem v.r1 v.a v.m, .ldd v.t0 false [0], .ldd v.t1 false [1]]).bind fun t =>
      (modInvLoop v (val t.cfg.width (t.mag v.r1) + 1) t).bind (modInvEnd v)
  else .error .outsideDomain

/-! ## Modular exponentiation (R212) -/

/-- The registers of `POWMOD`: base, exponent, modulus, and scratch registers different from them and from each other. -/
structure PowModRegs where
  b : Reg
  e : Reg
  m : Reg
  x : Reg
  y : Reg
  k : Reg
  product : Reg
  deriving DecidableEq, Repr

/-- Multiply `x` into the result when the low bit of the exponent is 1. -/
def powModMultiply (v : PowModRegs) (s : State) : HostResult State :=
  (s.send (.podd v.k)).bind fun t =>
    if t.truth then t.sendAll [.vmul v.product v.x v.y, .vrem v.x v.product v.m] else .ok t

/-- The loop of the binary square-and-multiply, from the low bit of the exponent, at most `n` turns. -/
def powModLoop (v : PowModRegs) : Nat → State → HostResult State
  | 0, _ => .error .notFinished
  | n + 1, s =>
    (s.send (.vbool v.k)).bind fun t =>
      if t.truth then
        (powModMultiply v t).bind fun u =>
          (u.sendAll [.vshr v.k v.k 1#16, .vmul v.product v.y v.y, .vrem v.y v.product v.m]).bind (powModLoop v n)
      else .ok t

/-- `POWMOD(b, e, m)`, in `x`; defined for `b >= 0`, `e >= 0` and `m >= 1` only (R212, R213). -/
def powMod (v : PowModRegs) (s : State) : HostResult State :=
  if 0 ≤ sval s.cfg.width (s.reg v.b) ∧ 0 ≤ sval s.cfg.width (s.reg v.e) ∧ 1 ≤ sval s.cfg.width (s.reg v.m) then
    (s.sendAll [.ldd v.x false [1], .vrem v.x v.x v.m, .vrem v.y v.b v.m, .mov v.k v.e]).bind fun t =>
      powModLoop v (t.cfg.width.bits * (t.mag v.k).length + 1) t
  else .error .outsideDomain

end Sys2Proof.Machine
end

