-- ==== Sys2Proof/Tests/Slice0.lean ====
section
/-! SUPPORT. Tests of the model, each expected result from spec/ (K, A, B, Q, V, C, W, I, X and S are rows of
95_test_vectors.md), and a witness of the hypotheses of every statement that has any. -/

namespace Sys2Proof.Tests

open Machine

/-! ## Small states -/

def pos (mag : Digits) : Value := { neg := false, mag := mag }
def neg (mag : Digits) : Value := { neg := true, mag := mag }

/-- The instance of the spec's vectors (R7), one with `W = 16`, and one with `MAXD = 4`. -/
def v8 : Config := Config.vectors
def v16 : Config := { width := .w16, maxd := some 64 }
def small : Config := { width := .w8, maxd := some 4 }

/-- The reset state with the registers of the list loaded. -/
def holding (c : Config) (l : List (Reg × Value)) : State := l.foldl (fun s x => s.setReg x.1 x.2) (State.resetOf c)

/-- Issuing `c` leaves these values in these registers and this `STATUS`. -/
def leaves (s : State) (c : Command) (l : List (Reg × Value)) (status : Word) : Bool :=
  match s.issue c with
  | .next t => l.all (fun x => decide (t.reg x.1 = x.2)) && decide (t.status = status)
  | _ => false

/-! ## One command on a small state -/

/-- K2. -/
theorem test_ldd_clears_the_sign_of_zero :
    leaves (holding v8 []) ⟨0x01180001#32, [0x00]⟩ [(1, pos [0x00])] 0x00000000#32 = true := by decide

/-- X1. -/
theorem test_ldd_beyond_capacity :
    leaves (holding small []) ⟨0x01000005#32, [0x01, 0x02, 0x03, 0x04, 0x05]⟩ [(0, pos [])] 0x00000104#32 = true := by decide

/-- K6. -/
theorem test_ldi_two_digits :
    leaves (holding v8 []) ⟨0x02100011#32, []⟩ [(1, pos [0x00, 0x11])] 0x00000000#32 = true := by decide

/-- K8. -/
theorem test_ldi_one_digit :
    leaves (holding v16 []) ⟨0x02001A03#32, []⟩ [(0, pos [0x1A03])] 0x00000000#32 = true := by decide

/-- K10. -/
theorem test_mov_copies :
    leaves (holding v8 [(0, neg [0x00, 0x38, 0x22])]) ⟨0x03100000#32, []⟩ [(1, neg [0x00, 0x38, 0x22])] 0x00000000#32 = true := by decide

/-- A2. -/
theorem test_padd_absorbs_the_carry :
    leaves (holding v8 [(0, pos [0xff, 0xff]), (1, pos [0x01])]) ⟨0x10201000#32, []⟩ [(2, pos [0x01, 0x00, 0x00])] 0x00000000#32 = true := by decide

/-- A4. -/
theorem test_padd_doubles_in_place :
    leaves (holding v8 [(1, pos [0x80, 0x01])]) ⟨0x10111000#32, []⟩ [(1, pos [0x01, 0x00, 0x02])] 0x00000000#32 = true := by decide

/-- A7. -/
theorem test_psub_borrow_ripples :
    leaves (holding v8 [(0, pos [0x01, 0x00, 0x00]), (1, pos [0x01])]) ⟨0x11201000#32, []⟩ [(2, pos [0x00, 0xFF, 0xFF])] 0x00000000#32 = true := by decide

/-- A10. -/
theorem test_psub_below_zero :
    leaves (holding v8 [(0, pos [0x22, 0x12]), (1, pos [0x38, 0x44, 0x24]), (2, pos [0x77])]) ⟨0x11201000#32, []⟩ [(2, pos [0x77])] 0x00000082#32 = true := by decide

/-- A11. -/
theorem test_pmul_full_product :
    leaves (holding v8 [(0, pos [0xff, 0xff]), (1, pos [0xff, 0xff])]) ⟨0x12201000#32, []⟩ [(2, pos [0xFF, 0xFE, 0x00, 0x01])] 0x00000000#32 = true := by decide

/-- X2. -/
theorem test_pmul_beyond_capacity :
    leaves (holding small [(0, pos [0x01, 0x02, 0x03]), (1, pos [0x01, 0x02])]) ⟨0x12201000#32, []⟩ [(2, pos [])] 0x00000104#32 = true := by decide

/-- A14. -/
theorem test_pmuld_uses_the_last_digit :
    leaves (holding v8 [(0, pos [0xff, 0xff]), (1, pos [0x12, 0xff])]) ⟨0x13201000#32, []⟩ [(2, pos [0xFE, 0xFF, 0x01])] 0x00000000#32 = true := by decide

/-- A15. -/
theorem test_pmuld_empty_factor :
    leaves (holding v8 [(0, pos [0x1a, 0x03])]) ⟨0x13201000#32, []⟩ [(2, pos [0x00, 0x00, 0x00])] 0x00000000#32 = true := by decide

/-- Q5. -/
theorem test_pdivrem_many_digits :
    leaves (holding v8 [(0, pos [0x12, 0x34, 0x56, 0x78]), (1, pos [0x01, 0x02])]) ⟨0x14201300#32, []⟩ [(2, pos [0x12, 0x10, 0x36]), (3, pos [0x00, 0x0C])] 0x00000000#32 = true := by decide

/-- Q8. -/
theorem test_pdivrem_in_place :
    leaves (holding v8 [(0, pos [0x64]), (1, pos [0x07])]) ⟨0x14001100#32, []⟩ [(0, pos [0x0E]), (1, pos [0x02])] 0x00000000#32 = true := by decide

/-- S7. -/
theorem test_pinc_carry_ripples :
    leaves (holding v8 [(0, pos [0x00, 0xff, 0xff])]) ⟨0x15000000#32, []⟩ [(0, pos [0x01, 0x00, 0x00])] 0x00000000#32 = true := by decide

/-- A17. -/
theorem test_pinc_empty :
    leaves (holding v8 []) ⟨0x15000000#32, []⟩ [] 0x00000082#32 = true := by decide

/-- A19. -/
theorem test_pdec_borrow_ripples :
    leaves (holding v8 [(0, pos [0x01, 0x00, 0x00])]) ⟨0x16000000#32, []⟩ [(0, pos [0x00, 0xFF, 0xFF])] 0x00000000#32 = true := by decide

/-- A20. -/
theorem test_pdec_zero :
    leaves (holding v8 [(0, pos [0x00, 0x00])]) ⟨0x16000000#32, []⟩ [] 0x00000082#32 = true := by decide

/-- A22. -/
theorem test_pcmp_longer_is_greater :
    leaves (holding v8 [(0, pos [0x01, 0x00]), (1, pos [0xff])]) ⟨0x17001000#32, []⟩ [] 0x00000010#32 = true := by decide

/-- A23. -/
theorem test_pcmp_is_not_lexicographic :
    leaves (holding v8 [(0, pos [0x00, 0xff]), (1, pos [0x01, 0x00])]) ⟨0x17001000#32, []⟩ [] 0x00000030#32 = true := by decide

/-- B1. -/
theorem test_pand_missing_digit_is_zero :
    leaves (holding v8 [(0, pos [0xFF, 0x0F]), (1, pos [0x3C])]) ⟨0x30201000#32, []⟩ [(2, pos [0x00, 0x0C])] 0x00000000#32 = true := by decide

/-- B2. -/
theorem test_por_missing_digit_is_zero :
    leaves (holding v8 [(0, pos [0xFF, 0x0F]), (1, pos [0x3C])]) ⟨0x31201000#32, []⟩ [(2, pos [0xFF, 0x3F])] 0x00000000#32 = true := by decide

/-- B3. -/
theorem test_pxor_missing_digit_is_zero :
    leaves (holding v8 [(0, pos [0xFF, 0x0F]), (1, pos [0x3C])]) ⟨0x32201000#32, []⟩ [(2, pos [0xFF, 0x33])] 0x00000000#32 = true := by decide

/-- B5. -/
theorem test_pnot_leading_zero :
    leaves (holding v8 [(0, pos [0x00, 0x0F])]) ⟨0x33100000#32, []⟩ [(1, pos [0xFF, 0xF0])] 0x00000000#32 = true := by decide

/-- B8. -/
theorem test_pshl1_loses_the_top_bit :
    leaves (holding v8 [(0, pos [0x80, 0x01])]) ⟨0x34100000#32, []⟩ [(1, pos [0x00, 0x02])] 0x00000000#32 = true := by decide

/-- B9. -/
theorem test_pshr1_crosses_digits :
    leaves (holding v8 [(0, pos [0x01, 0x00])]) ⟨0x35100000#32, []⟩ [(1, pos [0x00, 0x80])] 0x00000000#32 = true := by decide

/-- B10. -/
theorem test_prol1_top_bit_wraps :
    leaves (holding v8 [(0, pos [0x80, 0x01])]) ⟨0x36100000#32, []⟩ [(1, pos [0x00, 0x03])] 0x00000000#32 = true := by decide

/-- B11. -/
theorem test_pror1_low_bit_wraps :
    leaves (holding v8 [(0, pos [0x80, 0x01])]) ⟨0x37100000#32, []⟩ [(1, pos [0xC0, 0x00])] 0x00000000#32 = true := by decide

/-- B12. -/
theorem test_pshl_four :
    leaves (holding v8 [(0, pos [0x01, 0x23])]) ⟨0x38100004#32, []⟩ [(1, pos [0x12, 0x30])] 0x00000000#32 = true := by decide

/-- B17. -/
theorem test_pshl_whole_width :
    leaves (holding v8 [(0, pos [0x12, 0x34])]) ⟨0x38100010#32, []⟩ [(1, pos [0x00, 0x00])] 0x00000000#32 = true := by decide

/-- B13. -/
theorem test_pshr_four :
    leaves (holding v8 [(0, pos [0x12, 0x34])]) ⟨0x39100004#32, []⟩ [(1, pos [0x01, 0x23])] 0x00000000#32 = true := by decide

/-- B18. -/
theorem test_pshr_largest_count :
    leaves (holding v8 [(0, pos [0x12, 0x34])]) ⟨0x3910FFFF#32, []⟩ [(1, pos [0x00, 0x00])] 0x00000000#32 = true := by decide

/-- B20. -/
theorem test_prol_beyond_the_width :
    leaves (holding v8 [(0, pos [0x12, 0x34])]) ⟨0x3A100011#32, []⟩ [(1, pos [0x24, 0x68])] 0x00000000#32 = true := by decide

/-- B21. -/
theorem test_prol_leading_zero :
    leaves (holding v8 [(0, pos [0x00, 0x12, 0x34])]) ⟨0x3A100004#32, []⟩ [(1, pos [0x01, 0x23, 0x40])] 0x00000000#32 = true := by decide

/-- B15. -/
theorem test_pror_four :
    leaves (holding v8 [(0, pos [0x12, 0x34])]) ⟨0x3B100004#32, []⟩ [(1, pos [0x41, 0x23])] 0x00000000#32 = true := by decide

/-- B22. -/
theorem test_pror_empty :
    leaves (holding v8 [(1, pos [0x77])]) ⟨0x3B100005#32, []⟩ [(1, pos [])] 0x00000000#32 = true := by decide

/-- V2. -/
theorem test_vadd_second_sign_wins :
    leaves (holding v8 [(0, pos [0x11]), (1, neg [0x1a, 0x03])]) ⟨0x40201000#32, []⟩ [(2, neg [0x19, 0xF2])] 0x00000000#32 = true := by decide

/-- V4. -/
theorem test_vadd_to_zero :
    leaves (holding v8 [(0, pos [0x12, 0x34]), (1, neg [0x00, 0x12, 0x34])]) ⟨0x40201000#32, []⟩ [(2, pos [0x00, 0x00, 0x00])] 0x00000000#32 = true := by decide

/-- V6. -/
theorem test_vsub_below_zero :
    leaves (holding v8 [(0, pos [0x03]), (1, pos [0x05])]) ⟨0x41201000#32, []⟩ [(2, neg [0x02])] 0x00000000#32 = true := by decide

/-- V7. -/
theorem test_vsub_adds_magnitudes :
    leaves (holding v8 [(0, pos [0x03]), (1, neg [0x05])]) ⟨0x41201000#32, []⟩ [(2, pos [0x00, 0x08])] 0x00000000#32 = true := by decide

/-- V11. -/
theorem test_vmul_xor_sign :
    leaves (holding v8 [(0, neg [0x1a, 0x03]), (1, pos [0x11])]) ⟨0x42201000#32, []⟩ [(2, neg [0x01, 0xBA, 0x33])] 0x00000000#32 = true := by decide

/-- V13. -/
theorem test_vmul_zero_is_positive :
    leaves (holding v8 [(0, neg [0x1a, 0x03]), (1, pos [0x00])]) ⟨0x42201000#32, []⟩ [(2, pos [0x00, 0x00, 0x00])] 0x00000000#32 = true := by decide

/-- V21. -/
theorem test_vdiv_negative :
    leaves (holding v8 [(0, neg [0x07]), (1, pos [0x02])]) ⟨0x43201000#32, []⟩ [(2, neg [0x03])] 0x00000000#32 = true := by decide

/-- V22. -/
theorem test_vrem_takes_the_xor_sign :
    leaves (holding v8 [(0, pos [0x07]), (1, neg [0x02])]) ⟨0x44201000#32, []⟩ [(2, neg [0x01])] 0x00000000#32 = true := by decide

/-- V23. -/
theorem test_vrem_by_zero :
    leaves (holding v8 [(0, neg [0x07]), (2, pos [0x77])]) ⟨0x44201000#32, []⟩ [(2, pos [0x77])] 0x00000041#32 = true := by decide

/-- V17. -/
theorem test_vdivrem_negative_divisor :
    leaves (holding v8 [(0, pos [0x07]), (1, neg [0x02])]) ⟨0x45201300#32, []⟩ [(2, neg [0x03]), (3, neg [0x01])] 0x00000000#32 = true := by decide

/-- V20. -/
theorem test_vdivrem_short_dividend :
    leaves (holding v8 [(0, neg [0x01]), (1, pos [0x02]), (2, pos [0x77])]) ⟨0x45201300#32, []⟩ [(2, pos []), (3, neg [0x01])] 0x00000000#32 = true := by decide

/-- V24. -/
theorem test_vinc_grows :
    leaves (holding v8 [(0, pos [0xff, 0xff])]) ⟨0x46100000#32, []⟩ [(1, pos [0x01, 0x00, 0x00])] 0x00000000#32 = true := by decide

/-- V26. -/
theorem test_vinc_keeps_the_sign :
    leaves (holding v8 [(0, neg [0x03])]) ⟨0x46100000#32, []⟩ [(1, neg [0x04])] 0x00000000#32 = true := by decide

/-- V27. -/
theorem test_vdec_to_zero :
    leaves (holding v8 [(0, neg [0x01])]) ⟨0x47100000#32, []⟩ [(1, pos [0x00])] 0x00000000#32 = true := by decide

/-- V30. -/
theorem test_vdec_zero :
    leaves (holding v8 [(0, pos [0x00, 0x00]), (1, pos [0x77])]) ⟨0x47100000#32, []⟩ [(1, pos [0x77])] 0x00000082#32 = true := by decide

/-- W1. -/
theorem test_vand_first_sign :
    leaves (holding v8 [(0, neg [0xFF, 0x0F]), (1, pos [0x3C])]) ⟨0x60201000#32, []⟩ [(2, neg [0x00, 0x0C])] 0x00000000#32 = true := by decide

/-- W3. -/
theorem test_vand_zero_is_positive :
    leaves (holding v8 [(0, neg [0xF0]), (1, pos [0x0F])]) ⟨0x60201000#32, []⟩ [(2, pos [0x00])] 0x00000000#32 = true := by decide

/-- W4. -/
theorem test_vor_first_sign :
    leaves (holding v8 [(0, neg [0xFF, 0x0F]), (1, pos [0x3C])]) ⟨0x61201000#32, []⟩ [(2, neg [0xFF, 0x3F])] 0x00000000#32 = true := by decide

/-- W5. -/
theorem test_vxor_first_sign :
    leaves (holding v8 [(0, neg [0xFF, 0x0F]), (1, pos [0x3C])]) ⟨0x62201000#32, []⟩ [(2, neg [0xFF, 0x33])] 0x00000000#32 = true := by decide

/-- W7. -/
theorem test_vnot_leading_zero :
    leaves (holding v8 [(0, neg [0x00, 0x0F])]) ⟨0x63100000#32, []⟩ [(1, neg [0xFF, 0xF0])] 0x00000000#32 = true := by decide

/-- W8. -/
theorem test_vnot_to_zero :
    leaves (holding v8 [(0, neg [0xFF])]) ⟨0x63100000#32, []⟩ [(1, pos [0x00])] 0x00000000#32 = true := by decide

/-- W9. -/
theorem test_vshl_four :
    leaves (holding v8 [(0, neg [0x01, 0x23])]) ⟨0x64100004#32, []⟩ [(1, neg [0x12, 0x30])] 0x00000000#32 = true := by decide

/-- W10. -/
theorem test_vshl_loses_the_top_bit :
    leaves (holding v8 [(0, neg [0x80])]) ⟨0x64100001#32, []⟩ [(1, pos [0x00])] 0x00000000#32 = true := by decide

/-- W12. -/
theorem test_vshr_four :
    leaves (holding v8 [(0, neg [0x12, 0x34])]) ⟨0x65100004#32, []⟩ [(1, neg [0x01, 0x23])] 0x00000000#32 = true := by decide

/-- W13. -/
theorem test_vshr_toward_zero :
    leaves (holding v8 [(0, neg [0x01])]) ⟨0x65100001#32, []⟩ [(1, pos [0x00])] 0x00000000#32 = true := by decide

/-! ## Tests that write `T` or nothing -/

/-- Section 2.3, the rows `{}`, `{0x00,0x00}`, `-{0x01}` and `{0x01,0x00}`, for `PISZ` and `PISONE`. -/
theorem test_pisz :
    leaves (holding v8 []) ⟨0x20000000#32, []⟩ [] 8#32 = true ∧
    leaves (holding v8 [(0, pos [0, 0])]) ⟨0x20000000#32, []⟩ [] 8#32 = true ∧
    leaves (holding v8 [(0, pos [1, 0])]) ⟨0x20000000#32, []⟩ [] 0#32 = true := by decide

theorem test_pisone :
    leaves (holding v8 [(0, neg [1])]) ⟨0x21000000#32, []⟩ [] 8#32 = true ∧
    leaves (holding v8 [(0, pos [1, 0])]) ⟨0x21000000#32, []⟩ [] 0#32 = true := by decide

/-- Section 2.3, the rows `{}`, `{0x80,0x01}` and `{0x7f,0xfe}`. -/
theorem test_peven :
    leaves (holding v8 []) ⟨0x22000000#32, []⟩ [] 8#32 = true ∧
    leaves (holding v8 [(0, pos [0x80, 1])]) ⟨0x22000000#32, []⟩ [] 0#32 = true := by decide

theorem test_podd :
    leaves (holding v8 []) ⟨0x23000000#32, []⟩ [] 0#32 = true ∧
    leaves (holding v8 [(0, pos [0x80, 1])]) ⟨0x23000000#32, []⟩ [] 8#32 = true := by decide

theorem test_phsb :
    leaves (holding v8 [(0, pos [0x80, 1])]) ⟨0x24000000#32, []⟩ [] 8#32 = true ∧
    leaves (holding v8 [(0, pos [0, 0xFF])]) ⟨0x24000000#32, []⟩ [] 0#32 = true ∧
    leaves (holding v8 []) ⟨0x24000000#32, []⟩ [] 0#32 = true := by decide

theorem test_plsb :
    leaves (holding v8 [(0, pos [0, 1])]) ⟨0x25000000#32, []⟩ [] 8#32 = true ∧
    leaves (holding v8 [(0, pos [0x7F, 0xFE])]) ⟨0x25000000#32, []⟩ [] 0#32 = true := by decide

/-- C1: both negative, the order is inverted. -/
theorem test_vlt_both_negative :
    leaves (holding v8 [(0, neg [5]), (1, neg [3])]) ⟨0x50001000#32, []⟩ [] 8#32 = true := by decide

/-- C5: negative is below non-negative of the same magnitude. -/
theorem test_vgt_signs_differ :
    leaves (holding v8 [(0, neg [5]), (1, pos [5])]) ⟨0x51001000#32, []⟩ [] 0#32 = true := by decide

/-- C10: the effective length decides. -/
theorem test_vle_longer :
    leaves (holding v8 [(0, pos [1, 0]), (1, pos [0xFF])]) ⟨0x52001000#32, []⟩ [] 0#32 = true := by decide

/-- C9: zero is above every negative. -/
theorem test_vge_zero :
    leaves (holding v8 [(1, neg [1])]) ⟨0x53001000#32, []⟩ [] 8#32 = true := by decide

/-- C8: the empty zero equals the zero of two digits. -/
theorem test_veq_zeros :
    leaves (holding v8 [(1, pos [0, 0])]) ⟨0x54001000#32, []⟩ [] 8#32 = true := by decide

/-- C7. -/
theorem test_vne_leading_zero :
    leaves (holding v8 [(0, neg [5]), (1, neg [0, 5])]) ⟨0x55001000#32, []⟩ [] 0#32 = true := by decide

/-- Section 2.7, the sentence on `VBOOL`. -/
theorem test_vbool :
    leaves (holding v8 [(0, neg [0, 1])]) ⟨0x56000000#32, []⟩ [] 8#32 = true ∧
    leaves (holding v8 [(0, pos [0, 0])]) ⟨0x56000000#32, []⟩ [] 0#32 = true := by decide

/-- The response after issuing `c`. -/
def answers (s : State) (c : Command) : Option Response :=
  match s.issue c with
  | .next t => t.response
  | _ => none

/-- K11 and K12. -/
theorem test_rdv_answers :
    answers (holding v8 [(1, neg [0x38, 0x22])]) ⟨0x04010000#32, []⟩ = some { status := 0#32, value := some (neg [0x38, 0x22]) } ∧
    answers (holding v8 []) ⟨0x04070000#32, []⟩ = some { status := 0#32, value := some (pos []) } := by decide

/-- Section 2.9, the `STATUS` sequence: commands 5, 6 and 7 on the `STATUS` left by commands 4, 5 and 6. -/
theorem test_status_sequence :
    leaves { holding v8 [(0, pos [0, 5])] with status := 0x58#32 } ⟨0x11210000#32, []⟩ [(2, pos [])] 0x5A#32 = true ∧
    leaves (State.mk v8 (State.resetOf v8).regs 0x5A#32 [] none) ⟨0x7F000000#32, []⟩ [] 0x5B#32 = true ∧
    leaves (State.mk v8 (State.resetOf v8).regs 0x5B#32 [] none) ⟨0x00000000#32, []⟩ [] 0x58#32 = true := by decide

/-- Section 2.9, priority, `MAXD = 4`: the length check of the decoder comes before the capacity. -/
theorem test_illegal_before_capacity :
    leaves (holding small []) ⟨0x01000006#32, [1, 2, 3, 4, 5]⟩ [(0, pos [])] 0xC3#32 = true := by decide

/-- Step 10 of the `STATUS` sequence, as a step of the machine: the reset event. -/
theorem test_reset_event :
    step { holding v8 [(0, pos [0, 5])] with status := 0x50#32, pending := [.reset] } = .next (State.resetOf v8) := rfl

/-- `step` runs the word that `withFetchWord` places: `LDI v0, 0x1a03` (K5). -/
theorem test_step_runs_the_placed_word :
    step (State.reset.withFetchWord 32 0x02001A03) = exec (.ldi 0 0x1A03#16) State.reset := rfl

/-! ## Decoding: a word of each constructor, written out from the fields of its format (R57 to R60) -/

/-- Formats Z, L, DI, I. -/
theorem test_decode_immediates :
    decode ⟨0x00000000#32, []⟩ = .ok .nop ∧
    decode ⟨0x01F80003#32, [1, 2, 3]⟩ = .ok (.ldd 15 true [1, 2, 3]) ∧
    decode ⟨0x01500000#32, []⟩ = .ok (.ldd 5 false []) ∧
    decode ⟨0x02A08001#32, []⟩ = .ok (.ldi 10 0x8001#16) ∧
    decode ⟨0x381200F0#32, []⟩ = .ok (.pshl 1 2 0x00F0#16) ∧
    decode ⟨0x39348000#32, []⟩ = .ok (.pshr 3 4 0x8000#16) ∧
    decode ⟨0x3A560001#32, []⟩ = .ok (.prol 5 6 0x0001#16) ∧
    decode ⟨0x3B78FFFF#32, []⟩ = .ok (.pror 7 8 0xFFFF#16) ∧
    decode ⟨0x649A1234#32, []⟩ = .ok (.vshl 9 10 0x1234#16) ∧
    decode ⟨0x65BC4321#32, []⟩ = .ok (.vshr 11 12 0x4321#16) := by decide

/-- Format R3. -/
theorem test_decode_three_registers :
    decode ⟨0x10123000#32, []⟩ = .ok (.padd 1 2 3) ∧
    decode ⟨0x11456000#32, []⟩ = .ok (.psub 4 5 6) ∧
    decode ⟨0x12789000#32, []⟩ = .ok (.pmul 7 8 9) ∧
    decode ⟨0x13ABC000#32, []⟩ = .ok (.pmuld 10 11 12) ∧
    decode ⟨0x30DEF000#32, []⟩ = .ok (.pand 13 14 15) ∧
    decode ⟨0x31F01000#32, []⟩ = .ok (.por 15 0 1) ∧
    decode ⟨0x32321000#32, []⟩ = .ok (.pxor 3 2 1) ∧
    decode ⟨0x40123000#32, []⟩ = .ok (.vadd 1 2 3) ∧
    decode ⟨0x41456000#32, []⟩ = .ok (.vsub 4 5 6) ∧
    decode ⟨0x42789000#32, []⟩ = .ok (.vmul 7 8 9) ∧
    decode ⟨0x43ABC000#32, []⟩ = .ok (.vdiv 10 11 12) ∧
    decode ⟨0x44DEF000#32, []⟩ = .ok (.vrem 13 14 15) ∧
    decode ⟨0x60F01000#32, []⟩ = .ok (.vand 15 0 1) ∧
    decode ⟨0x61321000#32, []⟩ = .ok (.vor 3 2 1) ∧
    decode ⟨0x62654000#32, []⟩ = .ok (.vxor 6 5 4) := by decide

/-- Formats R4, R2 and D1. -/
theorem test_decode_destinations :
    decode ⟨0x14123400#32, []⟩ = .ok (.pdivrem 1 4 2 3) ∧
    decode ⟨0x45567800#32, []⟩ = .ok (.vdivrem 5 8 6 7) ∧
    decode ⟨0x03120000#32, []⟩ = .ok (.mov 1 2) ∧
    decode ⟨0x33340000#32, []⟩ = .ok (.pnot 3 4) ∧
    decode ⟨0x34560000#32, []⟩ = .ok (.pshl1 5 6) ∧
    decode ⟨0x35780000#32, []⟩ = .ok (.pshr1 7 8) ∧
    decode ⟨0x369A0000#32, []⟩ = .ok (.prol1 9 10) ∧
    decode ⟨0x37BC0000#32, []⟩ = .ok (.pror1 11 12) ∧
    decode ⟨0x46DE0000#32, []⟩ = .ok (.vinc 13 14) ∧
    decode ⟨0x47F00000#32, []⟩ = .ok (.vdec 15 0) ∧
    decode ⟨0x63210000#32, []⟩ = .ok (.vnot 2 1) ∧
    decode ⟨0x15F00000#32, []⟩ = .ok (.pinc 15) ∧
    decode ⟨0x16700000#32, []⟩ = .ok (.pdec 7) := by decide

/-- Formats S2 and S1. -/
theorem test_decode_sources :
    decode ⟨0x17012000#32, []⟩ = .ok (.pcmp 1 2) ∧
    decode ⟨0x50034000#32, []⟩ = .ok (.vlt 3 4) ∧
    decode ⟨0x51056000#32, []⟩ = .ok (.vgt 5 6) ∧
    decode ⟨0x52078000#32, []⟩ = .ok (.vle 7 8) ∧
    decode ⟨0x5309A000#32, []⟩ = .ok (.vge 9 10) ∧
    decode ⟨0x540BC000#32, []⟩ = .ok (.veq 11 12) ∧
    decode ⟨0x550DE000#32, []⟩ = .ok (.vne 13 14) ∧
    decode ⟨0x040F0000#32, []⟩ = .ok (.rdv 15) ∧
    decode ⟨0x20010000#32, []⟩ = .ok (.pisz 1) ∧
    decode ⟨0x21020000#32, []⟩ = .ok (.pisone 2) ∧
    decode ⟨0x22030000#32, []⟩ = .ok (.peven 3) ∧
    decode ⟨0x23040000#32, []⟩ = .ok (.podd 4) ∧
    decode ⟨0x24050000#32, []⟩ = .ok (.phsb 5) ∧
    decode ⟨0x25060000#32, []⟩ = .ok (.plsb 6) ∧
    decode ⟨0x56070000#32, []⟩ = .ok (.vbool 7) := by decide

/-- I1 to I13. -/
theorem test_illegal_commands :
    decode ⟨0x05000000#32, []⟩ = .error .reservedOpcode ∧
    decode ⟨0xFF000000#32, []⟩ = .error .reservedOpcode ∧
    decode ⟨0x00000001#32, []⟩ = .error .mustBeZero ∧
    decode ⟨0x10201001#32, []⟩ = .error .mustBeZero ∧
    decode ⟨0x15010000#32, []⟩ = .error .mustBeZero ∧
    decode ⟨0x50101000#32, []⟩ = .error .mustBeZero ∧
    decode ⟨0x02010005#32, []⟩ = .error .mustBeZero ∧
    decode ⟨0x01040001#32, [5]⟩ = .error .mustBeZero ∧
    decode ⟨0x01000002#32, [5]⟩ = .error .countMismatch ∧
    decode ⟨0x01000000#32, [5]⟩ = .error .countMismatch ∧
    decode ⟨0x40201000#32, [1]⟩ = .error .unexpectedPayload ∧
    decode ⟨0x14201200#32, []⟩ = .error .sameDestinations ∧
    decode ⟨0x45301300#32, []⟩ = .error .sameDestinations := by decide

/-- The encoder writes the words of the examples of 95_test_vectors.md (K1, K6, Q1, C1, B20). -/
theorem test_encode_examples :
    encode (.ldd 1 true [0x38, 0x22]) = ⟨0x01180002#32, [0x38, 0x22]⟩ ∧
    encode (.ldi 1 17#16) = ⟨0x02100011#32, []⟩ ∧
    encode (.pdivrem 2 3 0 1) = ⟨0x14201300#32, []⟩ ∧
    encode (.vlt 0 1) = ⟨0x50001000#32, []⟩ ∧
    encode (.prol 1 0 17#16) = ⟨0x3A100011#32, []⟩ := by decide

/-! ## Well-formedness: each check refuses its ill-formed term -/

/-- 65536 digits have no `count` of 16 bits, 65535 have (R59). -/
theorem test_wf_count :
    (Instr.ldd 0 false (List.replicate 65536 0)).countFits = false ∧
    (Instr.ldd 0 false (List.replicate 65535 0)).countFits = true := by
  simp only [Instr.countFits, List.length_replicate]
  decide

/-- 256 is no digit of the `W = 8` instance, and is one of the `W = 16` instance (R9, R148). -/
theorem test_wf_payload :
    (Instr.ldd 0 false [256]).payloadFits .w8 = false ∧ (Instr.ldd 0 false [256]).payloadFits .w16 = true := by decide

/-- R251. -/
theorem test_wf_destinations :
    (Instr.pdivrem 2 2 0 1).destsDiffer = false ∧ (Instr.vdivrem 3 3 0 1).destsDiffer = false ∧
    (Instr.pdivrem 2 3 0 1).wf .w8 = true ∧ (Instr.pdivrem 2 2 0 1).wf .w8 = false := by decide

/-! ## The host's side -/

/-- The instances of R208 in 95_test_vectors.md, and the operand of scenario 1 read in as `LDD` (R205). -/
theorem test_hex_text :
    canon [' ', '0', '0', ' ', '1', 'a', '0', '3'] = ['1', 'A', '0', '3'] ∧
    canon ['-', '0', 'a', '0', '5'] = ['-', 'A', '0', '5'] ∧
    canon ['0', '0', '0'] = ['0'] ∧
    hexRender .w8 (neg [0, 0x0A, 0x05]) = ['-', 'A', '0', '5'] ∧
    hexParse .w8 0 [' ', '0', '0', ' ', '1', 'a', '0', '3'] = .ok (.ldd 0 false [0x1A, 0x03]) ∧
    hexParse .w8 0 ['1', 'g'] = .error .formatError := by decide

/-- R68: `VNEG` of -3 is +3, and its scratch register is overwritten with zero. -/
theorem test_vneg :
    (match (holding v8 [(0, neg [3])]).sendAll (vneg 1 0 2) with
      | .ok t => decide (t.reg 1 = pos [0, 3]) && decide (t.reg 2 = pos [])
      | .error _ => false) = true := by decide

/-- R211, one subtraction and one doubling of a coefficient, by hand, on an instance that has no digit to spare:
255 - 256 mod 65535 = 65534, and 2 * 40000 mod 65535 = 14465. -/
theorem test_coefficients_never_grow :
    (match subMod 0 1 2 3 (holding { width := .w8, maxd := some 2 } [(0, pos [0xFF]), (1, pos [1, 0]), (2, pos [0xFF, 0xFF])]) with
      | .ok t => decide (t.reg 0 = pos [0xFF, 0xFE]) && decide (t.status = 0#32)
      | .error _ => false) = true ∧
    (match doubleMod 0 2 3 (holding { width := .w8, maxd := some 2 } [(0, pos [0x9C, 0x40]), (2, pos [0xFF, 0xFF])]) with
      | .ok t => decide (t.reg 0 = pos [0x38, 0x81]) && decide (t.ferr = 0#3)
      | .error _ => false) = true := by decide

/-- R66: the commands of K1 and B12 as text. -/
theorem test_assembly :
    mnemonic (.ldd 1 true [0x38, 0x22]) = "LDD" ∧ asmOperands (.pshl 1 0 4#16) = ["v1", "v0", "4"] ∧
    assembly (.pdivrem 2 3 0 1) = "PDIVREM v2, v3, v0, v1" := by decide

/-! ## Witnesses: states and operands that meet the hypotheses of the statements, and each of their cases -/

/-- Some `t` that `r` goes on to satisfies `P`, found by running it. -/
theorem exists_next {r : Result} {P : State → Prop} [DecidablePred P]
    (h : (match r with | .next t => decide (P t) | _ => false) = true) : ∃ t, r = .next t ∧ P t := by
  cases r with
  | next t => exact ⟨t, rfl, of_decide_eq_true h⟩
  | fault _ => cases h
  | refused _ => cases h

/-- Registers of every kind: two digits of either sign, empty, zero in two digits, all ones, one, and -2. -/
def kinds (c : Config) : State :=
  holding c [(0, neg [0x38, 0x22]), (1, pos [0x22, 0x12]), (3, pos [0, 0]), (4, pos [0xFF, 0xFF]), (5, pos [1]), (6, neg [2])]

/-- The instance of the spec's vectors, and one whose registers hold two digits. -/
def sample : State := kinds v8
def tight : State := kinds { width := .w8, maxd := some 2 }

theorem sample_inRange : sample.InRange := by unfold State.InRange; decide
theorem tight_inRange : tight.InRange := by unfold State.InRange; decide
theorem sample_normalised : sample.Normalised := by unfold State.Normalised; decide

/-- A sound state of the smallest instance, with an error behind it and a command and a reset to come. -/
def soundState : State :=
  { tight with status := 0x41#32, pending := [.command ⟨0x01180002#32, [0xFF, 0x00]⟩, .reset] }

theorem soundState_inv : soundState.Inv where
  instanceValid := by decide
  inRange := by unfold State.InRange; decide
  normalised := by unfold State.Normalised; decide
  capacity := by decide
  reservedZero := by decide
  errCode := by decide
  ferrCode := by decide
  cmpCode := by decide
  recorded := by decide
  sendable := by simp [soundState]; decide

/-! ### Decoding -/

theorem witness_DecodeUndoesEncode :
    (Instr.ldd 15 true [0xFFFFFFFF, 0]).wf .w32 = true ∧ (Instr.vdivrem 15 0 15 15).wf .w8 = true := by decide

theorem witness_EncodeUndoesDecode :
    decode ⟨0x45FFF000#32, []⟩ = .ok (.vdivrem 15 0 15 15) ∧ decode ⟨0x01080000#32, []⟩ = .ok (.ldd 0 true []) := by decide

theorem witness_DecodingFollowsTheOpcodeMap :
    0x01F80002#32 &&& (Instr.ldd 0 false []).row.mask = (Instr.ldd 0 false []).row.pattern ∧
    opcodeOf 0x01F80002#32 = 0x01#8 ∧ [7, 8].length = countOf 0x01F80002#32 ∧
    0x14F00E00#32 &&& (Instr.pdivrem 0 1 0 0).row.mask = (Instr.pdivrem 0 1 0 0).row.pattern ∧
    opcodeOf 0x14F00E00#32 = 0x14#8 ∧ rdOf 0x14F00E00#32 ≠ reOf 0x14F00E00#32 := by decide

/-- The first and the last reserved opcode of the ranges of R63, and an opcode next to each. -/
theorem witness_ReservedOpcodesAreRejected :
    (decode ⟨0x05FFFFFF#32, [1]⟩ = .error .reservedOpcode ∧ decode ⟨0x0F000000#32, []⟩ = .error .reservedOpcode ∧
      decode ⟨0x18000000#32, []⟩ = .error .reservedOpcode ∧ decode ⟨0x1F000000#32, []⟩ = .error .reservedOpcode ∧
      decode ⟨0x26000000#32, []⟩ = .error .reservedOpcode ∧ decode ⟨0x2F000000#32, []⟩ = .error .reservedOpcode ∧
      decode ⟨0x3C000000#32, []⟩ = .error .reservedOpcode ∧ decode ⟨0x3F000000#32, []⟩ = .error .reservedOpcode ∧
      decode ⟨0x48000000#32, []⟩ = .error .reservedOpcode ∧ decode ⟨0x4F000000#32, []⟩ = .error .reservedOpcode ∧
      decode ⟨0x57000000#32, []⟩ = .error .reservedOpcode ∧ decode ⟨0x5F000000#32, []⟩ = .error .reservedOpcode ∧
      decode ⟨0x66000000#32, []⟩ = .error .reservedOpcode ∧ decode ⟨0xFF000000#32, []⟩ = .error .reservedOpcode) ∧
    decode ⟨0x0400FFFF#32, [1]⟩ = .error .mustBeZero ∧ decode ⟨0x17F00000#32, [1]⟩ = .error .mustBeZero ∧
    decode ⟨0x65000000#32, [1]⟩ = .error .unexpectedPayload := by decide

/-! ### The step -/

theorem witness_StepRunsTheDecodedCommand :
    soundState.pending = .command ⟨0x01180002#32, [0xFF, 0x00]⟩ :: [.reset] ∧
    decode ⟨0x01180002#32, [0xFF, 0x00]⟩ = .ok (.ldd 1 true [0xFF, 0x00]) := by decide

/-- Every reason of the decoder occurs. -/
theorem witness_RejectedCommandsRaiseIllegalCommand :
    (sample.place ⟨0xFF000000#32, []⟩).pending = .command ⟨0xFF000000#32, []⟩ :: [] ∧
    decode ⟨0xFF000000#32, []⟩ = .error .reservedOpcode ∧ decode ⟨0x00000001#32, []⟩ = .error .mustBeZero ∧
    decode ⟨0x00000000#32, [0]⟩ = .error .unexpectedPayload ∧ decode ⟨0x01000001#32, []⟩ = .error .countMismatch ∧
    decode ⟨0x14000000#32, []⟩ = .error .sameDestinations := by decide

theorem witness_ResetEventClearsTheMachine :
    ({ soundState with pending := [.reset] } : State).pending = .reset :: [] := rfl

theorem witness_WithoutInputNothingChanges : sample.pending = [] := rfl

/-- The ends of the range of `MAXD`, and the unbounded instance. -/
theorem witness_ResetIsSound :
    ({ width := .w8, maxd := some 2 } : Config).valid = true ∧ ({ width := .w32, maxd := some 65535 } : Config).valid = true ∧
    ({ width := .w16, maxd := none } : Config).valid = true ∧ ({ width := .w8, maxd := some 1 } : Config).valid = false ∧
    ({ width := .w8, maxd := some 65536 } : Config).valid = false := by decide

theorem witness_EveryStepKeepsSoundness :
    soundState.Inv ∧ ∃ t, step soundState = .next t ∧ t.reg 1 = neg [0xFF, 0x00] :=
  ⟨soundState_inv, exists_next (by decide)⟩

theorem witness_StepIsTotalOnSoundStates : soundState.Inv := soundState_inv

theorem witness_EveryCommandCompletes :
    (Instr.ldd 0 true [0xFF]).payloadFits sample.cfg.width = true ∧ (Instr.pinc 2).payloadFits sample.cfg.width = true := by decide

/-! ### One command -/

/-- With `FERR` zero and an error, with `FERR` zero and no error, and with `FERR` not zero. -/
theorem witness_FerrKeepsTheFirstError :
    (sample.ferr = 0#3 ∧ ∃ t, sample.issue ⟨0x43203000#32, []⟩ = .next t ∧ t.err = 1#3) ∧
    (∃ t, sample.issue ⟨0x03210000#32, []⟩ = .next t ∧ t.err = 0#3) ∧
    soundState.ferr = 1#3 ∧ ∃ t, soundState.issue ⟨0xFF000000#32, []⟩ = .next t ∧ t.err = 3#3 :=
  ⟨⟨by decide, exists_next (by decide)⟩, exists_next (by decide), by decide, exists_next (by decide)⟩

/-- A failing command of each of the four kinds. -/
theorem witness_FailedCommandsWriteNothing :
    (∃ t, sample.issue ⟨0x14273800#32, []⟩ = .next t ∧ t.err ≠ 0#3) ∧
    (∃ t, sample.issue ⟨0x15200000#32, []⟩ = .next t ∧ t.err ≠ 0#3) ∧
    (∃ t, sample.issue ⟨0x00000001#32, []⟩ = .next t ∧ t.err ≠ 0#3) ∧
    ∃ t, tight.issue ⟨0x10201000#32, []⟩ = .next t ∧ t.err ≠ 0#3 :=
  ⟨exists_next (by decide), exists_next (by decide), exists_next (by decide), exists_next (by decide)⟩

theorem witness_OnlyTestsWriteTruth :
    (decode ⟨0x17001000#32, []⟩ = .ok (.pcmp 0 1) ∧ isTest (.pcmp 0 1) = false ∧
      ∃ t, sample.issue ⟨0x17001000#32, []⟩ = .next t ∧ t.err = 0#3) ∧
    ∃ t, sample.issue ⟨0x20000001#32, []⟩ = .next t ∧ t.err ≠ 0#3 :=
  ⟨⟨by decide, by decide, exists_next (by decide)⟩, exists_next (by decide)⟩

theorem witness_OnlyPcmpWritesCmp :
    (decode ⟨0x20000000#32, []⟩ = .ok (.pisz 0) ∧ isCompare (.pisz 0) = false ∧
      ∃ t, sample.issue ⟨0x20000000#32, []⟩ = .next t ∧ t.err = 0#3) ∧
    ∃ t, sample.issue ⟨0x17001001#32, []⟩ = .next t ∧ t.err ≠ 0#3 :=
  ⟨⟨by decide, by decide, exists_next (by decide)⟩, exists_next (by decide)⟩

theorem witness_ResponseCarriesStatus :
    (decode ⟨0x04000000#32, []⟩ = .ok (.rdv 0) ∧ ∃ t, sample.issue ⟨0x04000000#32, []⟩ = .next t ∧ t.err = 0#3) ∧
    (∀ ra, decode ⟨0xFF000000#32, []⟩ ≠ .ok (.rdv ra)) ∧ ∃ t, sample.issue ⟨0xFF000000#32, []⟩ = .next t ∧ t.err = 3#3 :=
  ⟨⟨by decide, exists_next (by decide)⟩, by decide, exists_next (by decide)⟩

theorem witness_StatusIsNeverAnOperand :
    (∃ t, exec (.pcmp 0 1) sample = .next t ∧ t.err = 0#3) ∧
    ∃ t, exec (.pcmp 0 1) { sample with status := 0xFFFFFFFF#32 } = .next t ∧ t.err = 0#3 :=
  ⟨exists_next (by decide), exists_next (by decide)⟩

theorem witness_InstanceAndReservedBitsStay : ∃ t, exec (.vinc 4 4) sample = .next t ∧ t.reg 4 = pos [1, 0, 0] :=
  exists_next (by decide)

/-- A payload of exactly `MAXD` digits, of one more, and one with a number that is no digit. -/
theorem witness_LddLoadsThroughTheNormaliser :
    digitsFit tight.cfg.width [0xFF, 0] = true ∧ tight.fits 2 = true ∧
    digitsFit tight.cfg.width [1, 2, 3] = true ∧ tight.fits 3 = false := by decide

theorem witness_LddStopsOnAPayloadNoPortCarries : digitsFit sample.cfg.width [256] = false := by decide

/-! ### Arithmetic -/

/-- A result of exactly `MAXD` digits, and one of a digit more. -/
theorem witness_PaddAdds :
    tight.fits (max (tight.len 5) (tight.len 5) + 1) = true ∧ tight.fits (max (tight.len 5) (tight.len 0) + 1) = false := by decide

/-- Smaller, equal, and greater. -/
theorem witness_PsubSubtracts :
    sample.InRange ∧ sample.nat 1 < sample.nat 0 ∧ ¬ sample.nat 2 < sample.nat 3 ∧ ¬ sample.nat 0 < sample.nat 1 :=
  ⟨sample_inRange, by decide⟩

theorem witness_PmulMultiplies :
    tight.InRange ∧ tight.fits (tight.len 5 + tight.len 6) = true ∧ tight.fits (tight.len 5 + tight.len 0) = false :=
  ⟨tight_inRange, by decide⟩

theorem witness_PmuldMultipliesByOneDigit :
    tight.InRange ∧ tight.fits (tight.len 5 + 1) = true ∧ tight.fits (tight.len 0 + 1) = false :=
  ⟨tight_inRange, by decide⟩

/-- All ones, empty, and room for the carry. -/
theorem witness_PincIncrements :
    sample.InRange ∧ sample.nat 4 + 1 = sample.cfg.width.radix ^ sample.len 4 ∧
    sample.nat 2 + 1 = sample.cfg.width.radix ^ sample.len 2 ∧ sample.nat 3 + 1 ≠ sample.cfg.width.radix ^ sample.len 3 :=
  ⟨sample_inRange, by decide⟩

/-- Empty, zero in two digits, and one. -/
theorem witness_PdecDecrements : sample.InRange ∧ sample.nat 2 = 0 ∧ sample.nat 3 = 0 ∧ sample.nat 5 ≠ 0 :=
  ⟨sample_inRange, by decide⟩

theorem witness_PcmpComparesMagnitudes :
    sample.InRange ∧ sample.nat 1 < sample.nat 0 ∧ sample.nat 2 = sample.nat 3 ∧ sample.nat 5 < sample.nat 6 :=
  ⟨sample_inRange, by decide⟩

theorem witness_PrimitiveArithmeticIsExact :
    sample.InRange ∧ (∃ t, exec (.padd 4 4 4) sample = .next t ∧ t.err = 0#3) ∧
    (∃ t, exec (.psub 0 0 1) sample = .next t ∧ t.err = 0#3) ∧ (∃ t, exec (.pmul 4 4 4) sample = .next t ∧ t.err = 0#3) ∧
    (∃ t, exec (.pmuld 4 4 4) sample = .next t ∧ t.err = 0#3) ∧ (∃ t, exec (.pinc 3) sample = .next t ∧ t.err = 0#3) ∧
    ∃ t, exec (.pdec 5) sample = .next t ∧ t.err = 0#3 :=
  ⟨sample_inRange, exists_next (by decide), exists_next (by decide), exists_next (by decide), exists_next (by decide),
    exists_next (by decide), exists_next (by decide)⟩

/-- The largest window below `R * val(B)`, and the smallest. -/
theorem witness_SearchFindsTheQuotientDigit :
    digitsFit .w8 [0xFE, 0xFF] = true ∧ digitsFit .w8 [0xFF] = true ∧
    val .w8 [0xFE, 0xFF] < DigitWidth.w8.radix * val .w8 [0xFF] ∧ val .w8 [] < DigitWidth.w8.radix * val .w8 [1] := by decide

theorem witness_DivisionEngineMeetsItsClosedForm :
    digitsFit .w8 [0, 0xFF, 0xFF] = true ∧ digitsFit .w8 [0, 1] = true ∧ val .w8 [0, 1] ≠ 0 := by decide

/-- `rd = re`, an empty divisor, a divisor of zeros, and a divisor that is not zero. -/
theorem witness_PdivremDivides :
    sample.InRange ∧ (7 : Reg) = 7 ∧ ((7 : Reg) ≠ 8 ∧ sample.nat 2 = 0 ∧ sample.nat 3 = 0) ∧ sample.nat 5 ≠ 0 :=
  ⟨sample_inRange, by decide⟩

/-! ### Tests, bitwise, shifts -/

/-- Zero, one, even and odd. -/
theorem witness_ZeroOneAndParityTests :
    sample.InRange ∧ sample.nat 2 = 0 ∧ sample.nat 5 = 1 ∧ sample.nat 6 % 2 = 0 ∧ sample.nat 4 % 2 = 1 :=
  ⟨sample_inRange, by decide⟩

/-- An empty register, and both boundary bits set. -/
theorem witness_BoundaryBitProbes :
    sample.InRange ∧ sample.len 2 = 0 ∧ (sample.nat 4).testBit 15 = true ∧ (sample.nat 4).testBit 0 = true :=
  ⟨sample_inRange, by decide⟩

/-- Operands of different lengths, one of them empty. -/
theorem witness_BitwiseOnMagnitudes : sample.InRange ∧ sample.len 2 = 0 ∧ sample.len 0 = 2 :=
  ⟨sample_inRange, by decide⟩

theorem witness_OneBitShiftsAndRotates : sample.InRange ∧ sample.len 2 = 0 ∧ sample.nat 4 = 0xFFFF :=
  ⟨sample_inRange, by decide⟩

/-- The smallest and the largest count. -/
theorem witness_NBitShiftsRepeatOneBit : sample.InRange ∧ (0#16).toNat = 0 ∧ (0xFFFF#16).toNat = 65535 :=
  ⟨sample_inRange, by decide⟩

/-! ### Values -/

/-- Signs equal with room, equal without, and different. -/
theorem witness_VaddAddsExactly :
    tight.InRange ∧ ((tight.reg 2).neg = (tight.reg 5).neg ∧ tight.fits (max (tight.len 2) (tight.len 5) + 1) = true) ∧
    ((tight.reg 1).neg = (tight.reg 4).neg ∧ tight.fits (max (tight.len 1) (tight.len 4) + 1) = false) ∧
    (tight.reg 0).neg ≠ (tight.reg 1).neg :=
  ⟨tight_inRange, by decide⟩

theorem witness_VsubSubtractsExactly :
    tight.InRange ∧ ((tight.reg 6).neg ≠ (tight.reg 5).neg ∧ tight.fits (max (tight.len 6) (tight.len 5) + 1) = true) ∧
    ((tight.reg 0).neg ≠ (tight.reg 1).neg ∧ tight.fits (max (tight.len 0) (tight.len 1) + 1) = false) ∧
    (tight.reg 1).neg = (tight.reg 4).neg :=
  ⟨tight_inRange, by decide⟩

theorem witness_VmulMultipliesExactly :
    tight.InRange ∧ tight.fits (tight.len 5 + tight.len 6) = true ∧ tight.fits (tight.len 0 + tight.len 6) = false :=
  ⟨tight_inRange, by decide⟩

/-- A zero divisor, and a negative one with a remainder. -/
theorem witness_VdivAndVremTakeTheXorSign :
    sample.InRange ∧ sample.nat 3 = 0 ∧ sample.nat 6 ≠ 0 ∧ (sample.reg 6).neg = true ∧ sample.nat 4 % sample.nat 6 ≠ 0 :=
  ⟨sample_inRange, by decide⟩

theorem witness_VdivremWritesBoth :
    sample.InRange ∧ (7 : Reg) = 7 ∧ ((7 : Reg) ≠ 8 ∧ sample.nat 3 = 0) ∧ sample.nat 6 ≠ 0 :=
  ⟨sample_inRange, by decide⟩

/-- A divisor that is not negative, and a negative one with a remainder. -/
theorem witness_DivisionLawUnderTheXorSign :
    (sample.InRange ∧ sample.Normalised) ∧
    (0 ≤ sample.num 1 ∧ ∃ t, exec (.vdivrem 7 8 0 1) sample = .next t ∧ t.err = 0#3) ∧
    (sample.num 6 < 0 ∧ ∃ t, exec (.vdivrem 7 8 4 6) sample = .next t ∧ t.err = 0#3 ∧ t.num 8 ≠ 0) :=
  ⟨⟨sample_inRange, sample_normalised⟩, ⟨by decide, exists_next (by decide)⟩, by decide, exists_next (by decide)⟩

/-- Growth with room, growth without, and no growth. -/
theorem witness_VincIncrementsTheMagnitude :
    tight.InRange ∧ (tight.nat 2 + 1 = tight.cfg.width.radix ^ tight.len 2 ∧ tight.fits (tight.len 2 + 1) = true) ∧
    (tight.nat 4 + 1 = tight.cfg.width.radix ^ tight.len 4 ∧ tight.fits (tight.len 4 + 1) = false) ∧
    tight.nat 0 + 1 ≠ tight.cfg.width.radix ^ tight.len 0 :=
  ⟨tight_inRange, by decide⟩

theorem witness_VdecDecrementsTheMagnitude : sample.InRange ∧ sample.nat 3 = 0 ∧ sample.nat 5 ≠ 0 :=
  ⟨sample_inRange, by decide⟩

theorem witness_SubtractionUndoesAddition :
    (sample.InRange ∧ sample.Normalised ∧ (7 : Reg) ≠ 0 ∧ (7 : Reg) ≠ 1 ∧ (8 : Reg) ≠ 0) ∧
    ∃ t u v, exec (.vadd 7 0 1) sample = .next t ∧ t.err = 0#3 ∧ exec (.vsub 8 7 1) t = .next u ∧ u.err = 0#3 ∧
      exec (.veq 8 0) u = .next v :=
  ⟨⟨sample_inRange, sample_normalised, by decide⟩, _, _, _, rfl, by decide, rfl, by decide, rfl⟩

theorem witness_ComparisonsOrderSignedNumbers :
    sample.InRange ∧ sample.Normalised ∧ sample.num 0 < sample.num 6 ∧ sample.num 2 = sample.num 3 ∧ sample.num 1 > sample.num 0 :=
  ⟨sample_inRange, sample_normalised, by decide⟩

theorem witness_ComparisonIsTotal :
    ∃ t u v, exec (.vlt 0 1) sample = .next t ∧ exec (.veq 0 1) sample = .next u ∧ exec (.vgt 0 1) sample = .next v :=
  ⟨_, _, _, rfl, rfl, rfl⟩

/-- A negative first source, and one whose result is zero. -/
theorem witness_ValueBitwiseKeepsTheFirstSign :
    sample.InRange ∧ (sample.reg 0).neg = true ∧ sample.nat 6 &&& sample.nat 5 = 0 :=
  ⟨sample_inRange, by decide⟩

theorem witness_ValueShiftsKeepTheSign :
    sample.InRange ∧ (sample.reg 0).neg = true ∧ sample.nat 6 / 2 ^ (2#16).toNat = 0 ∧ (0xFFFF#16).toNat = 65535 :=
  ⟨sample_inRange, by decide⟩

/-- The numbers of `sample` in an instance with `W = 16`. -/
def wide : State :=
  holding v16 [(0, neg [0x3822]), (1, pos [0x2212]), (4, pos [0xFFFF]), (5, pos [1]), (6, neg [2])]

theorem witness_ValuesDoNotDependOnTheWidth :
    (sample.InRange ∧ wide.InRange ∧ ∀ r, sample.nat r = wide.nat r) ∧
    ((∃ t, exec (.padd 7 0 1) sample = .next t ∧ t.err = 0#3) ∧ ∃ t, exec (.padd 7 0 1) wide = .next t ∧ t.err = 0#3) ∧
    ((∃ t, exec (.psub 7 0 1) sample = .next t ∧ t.err = 0#3) ∧ ∃ t, exec (.psub 7 0 1) wide = .next t ∧ t.err = 0#3) ∧
    ((∃ t, exec (.pmul 7 0 1) sample = .next t ∧ t.err = 0#3) ∧ ∃ t, exec (.pmul 7 0 1) wide = .next t ∧ t.err = 0#3) ∧
    ((∃ t, exec (.pdivrem 7 8 0 1) sample = .next t ∧ t.err = 0#3) ∧ ∃ t, exec (.pdivrem 7 8 0 1) wide = .next t ∧ t.err = 0#3) ∧
    ((∃ t, exec (.pinc 5) sample = .next t ∧ t.err = 0#3) ∧ ∃ t, exec (.pinc 5) wide = .next t ∧ t.err = 0#3) ∧
    ((∃ t, exec (.pdec 5) sample = .next t ∧ t.err = 0#3) ∧ ∃ t, exec (.pdec 5) wide = .next t ∧ t.err = 0#3) ∧
    sample.nat 6 % sample.cfg.width.radix = wide.nat 6 % wide.cfg.width.radix ∧
    (∃ t, exec (.pmuld 7 4 6) sample = .next t ∧ t.err = 0#3) ∧ ∃ t, exec (.pmuld 7 4 6) wide = .next t ∧ t.err = 0#3 :=
  ⟨⟨sample_inRange, by unfold State.InRange; decide, by decide⟩, ⟨exists_next (by decide), exists_next (by decide)⟩,
    ⟨exists_next (by decide), exists_next (by decide)⟩, ⟨exists_next (by decide), exists_next (by decide)⟩,
    ⟨exists_next (by decide), exists_next (by decide)⟩, ⟨exists_next (by decide), exists_next (by decide)⟩,
    ⟨exists_next (by decide), exists_next (by decide)⟩, by decide, exists_next (by decide), exists_next (by decide)⟩

end Sys2Proof.Tests
end

/-! ## Scope: the step, and that every command completes (00_scope R16, R17) -/

namespace Sys2Proof

/-! ### What a decoded command carries (R56, R61) -/

section Payload

variable {c : Command} {i : Instr}

/-- A command without payload that passes steps 2 and 3 of R61 was sent without payload. -/
theorem encodePayload_of_checked {z : Bool} {p : Digits} {j : Instr} (h : checked z p j = .ok i)
    (hj : encodePayload j = []) : encodePayload i = p := by
  obtain ⟨-, rfl, rfl⟩ := checked_ok h
  exact hj

theorem encodePayload_of_formatL (h : formatL c .ldd = .ok i) : encodePayload i = c.payload := by
  unfold formatL at h
  split_ifs at h
  cases h
  rfl

/-- Format R4 passes what steps 2 and 3 of R61 pass, with different destinations (step 5). -/
theorem checked_of_formatR4 {k : Reg → Reg → Reg → Reg → Instr} (h : formatR4 c k = .ok i) :
    checked (zeroAt c.word 0 8) c.payload (k (rdOf c.word) (reOf c.word) (raOf c.word) (rbOf c.word)) = .ok i ∧
      rdOf c.word ≠ reOf c.word := by
  unfold formatR4 at h
  unfold checked
  split_ifs at h ⊢ with hzero hpayload hdest
  exact ⟨h, hdest⟩

/-- The decoder drops no digit and adds none: for `LDD` the payload is kept, for every other command it is empty. -/
theorem encodePayload_of_decode (h : decode c = .ok i) : encodePayload i = c.payload := by
  unfold decode at h
  split at h
  -- The rows of the opcode map that are not plain `checked`: LDD; PDIVREM and VDIVREM; the reserved opcodes.
  case h_2 => exact encodePayload_of_formatL h
  case h_10 | h_37 => exact encodePayload_of_checked (checked_of_formatR4 h).1 rfl
  case h_53 => cases h
  all_goals exact encodePayload_of_checked h rfl

/-- Only the payload of a command has to fit the port. -/
theorem Instr.payloadFits_eq (w : DigitWidth) (i : Instr) : i.payloadFits w = digitsFit w (encodePayload i) := by
  cases i <;> rfl

end Payload

namespace Machine

/-! ### The step, by the host's next input (R16, R61) -/

section Step

variable {s : State} {c : Command} {rest : List HostEvent}

theorem step_of_no_input (h : s.pending = []) : step s = .next s := by
  simp [step, State.takeInput, h]

theorem step_of_reset (h : s.pending = .reset :: rest) :
    step s = .next { s with pending := rest }.resetEvent := by
  simp [step, State.takeInput, h]

theorem step_of_command (h : s.pending = .command c :: rest) : step s = { s with pending := rest }.issue c := by
  simp [step, State.takeInput, h]

theorem issue_of_decode {i : Instr} (h : decode c = .ok i) : s.issue c = exec i s := by
  simp [State.issue, h]

theorem issue_of_reject {r : Reject} (h : decode c = .error r) : s.issue c = fail s .illegalCommand := by
  simp [State.issue, h]

end Step

/-! ### Every command completes (R17) -/

/-- The result is a next state: no fault and no refusal. -/
def Completes (r : Result) : Prop := ∃ t, r = .next t

theorem completes_next (t : State) : Completes (.next t) := ⟨t, rfl⟩

theorem completes_ite {p : Prop} [Decidable p] {r q : Result} (hr : Completes r) (hq : Completes q) :
    Completes (if p then r else q) := by
  split <;> assumption

/-- A capacity test answers a next state on both sides (R224). -/
theorem completes_ifFits (s t : State) (n : Nat) : Completes (ifFits s n (.next t)) :=
  completes_ite (completes_next _) (completes_next _)

/-- `LDD` completes on every payload that its port can carry (R148). -/
theorem execLdd_completes {s : State} {p : Digits} (h : digitsFit s.cfg.width p = true) (rd : Reg) (neg : Bool) :
    Completes (execLdd rd neg p s) := by
  unfold execLdd
  rw [if_pos h]
  exact completes_ifFits _ _ _

/-- The commands named here test their operands first and answer a next state on every branch; all others end in the
one next state that their meaning writes. -/
theorem exec_completes {i : Instr} {s : State} (h : i.payloadFits s.cfg.width = true) : Completes (exec i s) := by
  cases i
  case ldd rd neg p => exact execLdd_completes h rd neg
  case padd | pmul | pmuld | vmul => exact completes_ifFits _ _ _
  case psub | pinc | pdec | vdiv | vrem | vdec => exact completes_ite (completes_next _) (completes_next _)
  case pdivrem | vdivrem =>
    exact completes_ite (completes_next _) (completes_ite (completes_next _) (completes_next _))
  case vadd | vsub | vinc => exact completes_ite (completes_ifFits _ _ _) (completes_next _)
  all_goals exact completes_next _

/-- Issuing completes whether the decoder accepts the command or rejects it (R61). -/
theorem issue_completes {s : State} {c : Command} (h : digitsFit s.cfg.width c.payload = true) :
    Completes (s.issue c) := by
  cases hd : decode c with
  | error r =>
    rw [issue_of_reject hd]
    exact completes_next _
  | ok i =>
    rw [issue_of_decode hd]
    apply exec_completes
    rw [Instr.payloadFits_eq, encodePayload_of_decode hd, h]

theorem step_completes {s : State} (h : s.Inv) : Completes (step s) := by
  rcases hp : s.pending with _ | ⟨c | _, rest⟩
  case nil =>
    rw [step_of_no_input hp]
    exact completes_next _
  case cons.command =>
    rw [step_of_command hp]
    have sent : .command c ∈ s.pending := by simp [hp]
    exact issue_completes (h.sendable c sent)
  case cons.reset =>
    rw [step_of_reset hp]
    exact completes_next _

/-! ### The obligations -/

/-- Settles O13, by the case split of `exec_completes`. -/
theorem everyCommandCompletes : Obligations.EveryCommandCompletes :=
  fun _ _ h => exec_completes h

/-- Settles O14: what the host sends can be carried by the port, and the decoder hands it on unchanged. -/
theorem stepIsTotalOnSoundStates : Obligations.StepIsTotalOnSoundStates :=
  fun _ h => step_completes h

/-- Settles O6. -/
theorem stepRunsTheDecodedCommand : Obligations.StepRunsTheDecodedCommand := by
  intro s c rest i hp hd
  rw [step_of_command hp, issue_of_decode hd]

end Machine

end Sys2Proof

/-! ## State: reset, the flags, and the invariant of every step (10_state R20 to R36) -/

namespace Sys2Proof.Machine

/-! ### Reset (R36, R245) -/

/-- Every field of a zero `STATUS` is 0 (R27, R36). -/
theorem fields_of_status_zero {s : State} (h : s.status = 0#32) :
    s.err = 0#3 ∧ s.truth = false ∧ s.cmp = 0b00#2 ∧ s.ferr = 0#3 ∧ s.reserved = 0#23 := by
  unfold State.err State.truth State.cmp State.ferr State.reserved
  rw [h]
  decide

/-- With every register empty and `STATUS` zero a machine that can be built (R6) is sound, whatever the host still sends
that the port can carry. -/
theorem inv_of_cleared {s : State} (valid : s.cfg.valid = true) (regs : ∀ r, s.reg r = {}) (status : s.status = 0#32)
    (sendable : ∀ c, .command c ∈ s.pending → digitsFit s.cfg.width c.payload = true) : s.Inv := by
  obtain ⟨err, -, cmp, ferr, reserved⟩ := fields_of_status_zero status
  have mag : ∀ r, s.mag r = [] := fun r => by rw [State.mag, regs]
  exact
    { instanceValid := valid
      inRange := fun r => by rw [mag, digitsFit_nil]
      normalised := fun r _ => by rw [regs]
      capacity := fun r => by
        rw [State.len, mag, State.fits]
        split <;> simp
      reservedZero := reserved
      errCode := by rw [err]; decide
      ferrCode := by rw [ferr]; decide
      cmpCode := by rw [cmp]; decide
      recorded := fun h => absurd err h
      sendable := sendable }

theorem resetOf_inv {c : Config} (h : c.valid = true) : (State.resetOf c).Inv :=
  inv_of_cleared h (State.resetOf_reg c) rfl fun _ sent => by cases sent

/-! ### How issuing a command can end (R29 to R31, R225) -/

/-- Issuing raises an error or executes a decoded command that succeeds, and then only a test has written `T` and only
`PCMP` has written `CMP`. -/
theorem issue_raised_or_succeeded {c : Command} {s t : State} (h : s.issue c = .next t) :
    (∃ e, Raised s t e) ∨
      ∃ i v b k regs, decode c = .ok i ∧ SucceededWith s t v b k regs ∧ (isTest i = false → b = s.truth) ∧
        (isCompare i = false → k = s.cmp) := by
  obtain ⟨i, hd, hx⟩ | ⟨-, raised⟩ := issue_cases h
  · obtain raised | ⟨v, b, k, regs, succ, test, compare, -, -⟩ := exec_endsWell i s t hx
    · exact .inl raised
    · exact .inr ⟨i, v, b, k, regs, hd, succ, test, compare⟩
  · exact .inl ⟨_, raised⟩

/-- The condition under which a flag that only some commands write must stay: no such command, or an error. -/
theorem not_writer_of_succeeded {c : Command} {i : Instr} {s t : State} {v : Option Value} {writes : Instr → Bool}
    (h : (∀ i, decode c = .ok i → writes i = false) ∨ t.err ≠ 0#3) (hd : decode c = .ok i) (succ : Succeeded s t v) :
    writes i = false :=
  h.elim (fun none => none i hd) fun failed => absurd succ.err failed

/-! ### STATUS is no operand (R26) -/

/-- When both results are next states, these report the same error or none, and hold the same registers. -/
def SameData (r r' : Result) : Prop :=
  ∀ t t', r = .next t → r' = .next t' → t'.err = t.err ∧ ∀ q, t'.reg q = t.reg q

theorem sameData_next {t t' : State} (err : t'.err = t.err) (regs : ∀ q, t'.reg q = t.reg q) :
    SameData (.next t) (.next t') := by
  rintro _ _ ⟨⟩ ⟨⟩
  exact ⟨err, regs⟩

theorem sameData_ite {p : Prop} [Decidable p] {r q r' q' : Result} (hr : SameData r r') (hq : SameData q q') :
    SameData (if p then r else q) (if p then r' else q') := by
  split <;> assumption

section Status

variable (s : State) (st : Word)

theorem sameData_complete (v : Option Value) :
    SameData (.next (s.complete v)) (.next ({ s with status := st }.complete v)) :=
  sameData_next (by simp) fun _ => rfl

theorem sameData_fail (e : Error) : SameData (fail s e) (fail { s with status := st } e) :=
  sameData_next (by simp) fun q => by rw [State.raise_reg, State.raise_reg]; rfl

theorem sameData_finish_setReg (rd : Reg) (v : Value) :
    SameData (finish (s.setReg rd v)) (finish ({ s with status := st }.setReg rd v)) :=
  sameData_complete (s.setReg rd v) st none

theorem sameData_finish_setReg_setReg (rd : Reg) (v : Value) (re : Reg) (u : Value) :
    SameData (finish ((s.setReg rd v).setReg re u)) (finish (({ s with status := st }.setReg rd v).setReg re u)) :=
  sameData_complete ((s.setReg rd v).setReg re u) st none

theorem sameData_writeTruth (b : Bool) : SameData (writeTruth s b) (writeTruth { s with status := st } b) :=
  sameData_next (by simp) fun _ => rfl

theorem sameData_writeCmp (o : Ordering) : SameData (writeCmp s o) (writeCmp { s with status := st } o) :=
  sameData_next (by simp) fun _ => rfl

theorem sameData_fault (f : Fault) : SameData (.fault f) (.fault f) := by rintro _ _ ⟨⟩

/-- A capacity test reads the length and `MAXD` alone (R224). -/
theorem sameData_ifFits (n : Nat) {r r' : Result} (h : SameData r r') :
    SameData (ifFits s n r) (ifFits { s with status := st } n r') :=
  sameData_ite h (sameData_fail s st _)

/-- Every test is one write of `T`, of a value that does not come from `STATUS` (R30). -/
theorem exec_of_isTest {i : Instr} (h : isTest i = true) :
    ∃ b, exec i s = writeTruth s b ∧ exec i { s with status := st } = writeTruth { s with status := st } b := by
  cases i
  case pisz | pisone | peven | podd | phsb | plsb => exact ⟨_, rfl, rfl⟩
  case vlt | vgt | vle | vge | veq | vne | vbool => exact ⟨_, rfl, rfl⟩
  all_goals cases h

/-- `PCMP` alone is a comparison: one write of `CMP`, of a value that does not come from `STATUS` (R31). -/
theorem exec_of_isCompare {i : Instr} (h : isCompare i = true) :
    ∃ o, exec i s = writeCmp s o ∧ exec i { s with status := st } = writeCmp { s with status := st } o := by
  cases i
  case pcmp => exact ⟨_, rfl, rfl⟩
  all_goals cases h

/-- The tests of the operands and the values written are the same for every `STATUS`. -/
theorem exec_sameData (i : Instr) : SameData (exec i s) (exec i { s with status := st }) := by
  have fails := sameData_fail s st
  have reg := sameData_finish_setReg s st
  have two := sameData_finish_setReg_setReg s st
  have fits := fun n rd v => sameData_ifFits s st n (reg rd v)
  cases i
  case nop | rdv => exact sameData_complete s st _
  case ldd => exact sameData_ite (fits _ _ _) (sameData_fault _)
  case padd | pmul | pmuld | vmul => exact fits _ _ _
  case psub | pinc | pdec | vdiv | vrem | vdec => exact sameData_ite (fails _) (reg _ _)
  case pdivrem | vdivrem => exact sameData_ite (fails _) (sameData_ite (fails _) (two _ _ _ _))
  case vadd | vsub | vinc => exact sameData_ite (fits _ _ _) (reg _ _)
  case pcmp => exact sameData_writeCmp s st _
  case pisz | pisone | peven | podd | phsb | plsb => exact sameData_writeTruth s st _
  case vlt | vgt | vle | vge | veq | vne | vbool => exact sameData_writeTruth s st _
  all_goals exact reg _ _

end Status

/-! ### The division engine stays within the digits and the lengths of its operands (R130 to R136) -/

section Division

variable {w : DigitWidth}

/-- The bisection answers a digit below its excluded upper bound. -/
theorem bisect_lt (x b : Digits) {passes down up : Nat} (h : down < up) : bisect w x b passes down up < up := by
  induction passes generalizing down up with
  | zero => exact h
  | succ passes ih =>
    rw [bisect]
    split
    · exact h
    · have mid : (down + up) / 2 < up := by omega
      split
      · exact ih mid
      · exact (ih (by omega)).trans mid
      · exact mid

theorem searchDigit_lt (x b : Digits) : searchDigit w x b < w.radix := bisect_lt x b (radix_pos w)

/-- All the digits of the engine's working copy. -/
def Window.digits (x : Window) : Digits := x.window ++ x.rest

/-- Widening the window moves a digit into it and loses none. -/
@[simp] theorem Window.extend_digits (x : Window) (b : Digits) : (x.extend b).digits = x.digits := by
  unfold Window.extend Window.digits
  split
  · rw [List.append_assoc, List.take_append_drop]
  · rfl

@[simp] theorem Window.subtract_length (x : Window) (b : Digits) (m : Nat) :
    (x.subtract w b m).digits.length = x.digits.length := by
  simp only [Window.subtract, Window.digits, List.length_append, List.length_drop, length_sub]
  omega

theorem Window.subtract_fit {x : Window} {b : Digits} {m : Nat} (hx : digitsFit w x.digits = true)
    (hb : digitsFit w b = true) (hm : m < w.radix) : digitsFit w (x.subtract w b m).digits = true := by
  obtain ⟨window, rest⟩ := digitsFit_append.1 hx
  have diff := digitsFit_sub_fn window (digitsFit_mulDigit hb hm)
  exact digitsFit_append.2 ⟨digitsFit_sub diff (List.drop_subset _ _), rest⟩

@[simp] theorem divLoop_quotient_length (b : Digits) (n : Nat) (x : Window) : (divLoop w b n x).1.length = n := by
  induction n generalizing x with
  | zero => rfl
  | succ n ih => rw [divLoop, List.length_cons, ih]

@[simp] theorem divLoop_rest_length (b : Digits) (n : Nat) (x : Window) :
    (divLoop w b n x).2.length = x.digits.length := by
  induction n generalizing x with
  | zero => rfl
  | succ n ih => rw [divLoop, ih, Window.subtract_length, Window.extend_digits]

theorem divLoop_quotient_fit (b : Digits) (n : Nat) (x : Window) : digitsFit w (divLoop w b n x).1 = true := by
  induction n generalizing x with
  | zero => rfl
  | succ n ih => exact digitsFit_cons.2 ⟨searchDigit_lt _ _, ih _⟩

theorem divLoop_rest_fit {b : Digits} {n : Nat} {x : Window} (hx : digitsFit w x.digits = true)
    (hb : digitsFit w b = true) : digitsFit w (divLoop w b n x).2 = true := by
  induction n generalizing x with
  | zero => exact hx
  | succ n ih =>
    rw [← Window.extend_digits x b] at hx
    exact ih (Window.subtract_fit hx hb (searchDigit_lt _ _))

/-- A dividend that is not less has at least the effective length of the divisor. -/
theorem eff_le_of_strip_not_lt {a b : Digits} (h : compareMag (strip a) (strip b) ≠ .lt) : eff b ≤ eff a := by
  by_contra short
  exact h (if_pos (by simpa [eff] using short))

theorem divRem_quotient_fit (a b : Digits) : digitsFit w (divRem w a b).1 = true := by
  rw [divRem]
  split
  · rfl
  · exact divLoop_quotient_fit _ _ _

theorem divRem_remainder_fit {a b : Digits} (ha : digitsFit w a = true) (hb : digitsFit w b = true) :
    digitsFit w (divRem w a b).2 = true := by
  rw [divRem]
  split
  · exact digitsFit_fromNat _ _ _
  · refine digitsFit_sub (divLoop_rest_fit ?_ (digitsFit_strip hb)) (List.drop_subset _ _)
    rw [Window.extend_digits, Window.digits, List.take_append_drop]
    exact digitsFit_strip ha

/-- The quotient is no longer than the dividend (R136). -/
theorem divRem_quotient_length_le (a : Digits) {b : Digits} (hb : isZero b = false) :
    (divRem w a b).1.length ≤ a.length := by
  have pos : 0 < eff b := by
    rw [Nat.pos_iff_ne_zero, Ne, eff_eq_zero_iff (w := w), ← isZero_iff, hb]
    decide
  have effa := eff_le_length a
  rw [divRem]
  split
  · exact Nat.zero_le _
  case isFalse big =>
    have le := eff_le_of_strip_not_lt big
    rw [longDivision, divLoop_quotient_length]
    simp only [eff] at *
    split <;> omega

/-- The remainder has the effective length of the divisor (R136). -/
theorem divRem_remainder_length (a b : Digits) : (divRem w a b).2.length = eff b := by
  rw [divRem]
  split
  · exact length_fromNat _ _ _
  case isFalse big =>
    have le := eff_le_of_strip_not_lt big
    rw [longDivision, List.length_drop, divLoop_rest_length, Window.extend_digits, Window.digits,
      List.take_append_drop]
    simp only [eff] at *
    omega

end Division

/-! ### What a register may hold (R21, R23) -/

/-- A register of the machine can hold the magnitude `m`: every digit is below the radix, and there are no more than
`MAXD`. -/
structure State.Storable (s : State) (m : Digits) : Prop where
  digits : digitsFit s.cfg.width m = true
  fits : s.fits m.length = true

/-- A register of a sound state may hold `v`. -/
structure State.Holds (s : State) (v : Value) : Prop where
  storable : s.Storable v.mag
  normalised : isZero v.mag = true → v.neg = false

section Storable

variable {s : State}

theorem storable_fromNat {n : Nat} (h : s.fits n = true) (v : Nat) : s.Storable (fromNat s.cfg.width n v) :=
  ⟨digitsFit_fromNat _ _ _, by rwa [length_fromNat]⟩

/-- The digit functions in closed form answer digits below the radix; only the length is left to be tested. -/
theorem storable_of_eq_fromNat {m : Digits} {n v : Nat} (hm : m = fromNat s.cfg.width n v) (h : s.fits n = true) :
    s.Storable m := hm ▸ storable_fromNat h v

theorem holds_of_nonneg {m : Digits} (h : s.Storable m) : s.Holds { neg := false, mag := m } := ⟨h, fun _ => rfl⟩

/-- The normaliser makes a value with storable digits one that a register may hold (R145). -/
theorem holds_normalise {v : Value} (h : s.Storable v.mag) : s.Holds (normalise v) := by
  unfold normalise
  split
  · exact holds_of_nonneg h
  case isFalse nonzero => exact ⟨h, fun zero => absurd zero nonzero⟩

section Functions

variable {a b : Digits} (ha : s.Storable a) (hb : s.Storable b)

include ha

theorem storable_inc (notFull : isFull s.cfg.width a = false) : s.Storable (inc s.cfg.width a) :=
  storable_of_eq_fromNat (inc_eq ha.digits notFull) ha.fits

theorem storable_dec (nonzero : isZero a = false) : s.Storable (dec s.cfg.width a) :=
  storable_of_eq_fromNat (dec_eq ha.digits nonzero) ha.fits

/-- The grown magnitude of `VINC` is one digit longer; otherwise the length stays (R170). -/
theorem storable_incGrow (grown : isFull s.cfg.width a = true → s.fits (a.length + 1) = true) :
    s.Storable (incGrow s.cfg.width a) := by
  unfold incGrow
  split
  case isTrue full =>
    exact ⟨digitsFit_cons.2 ⟨one_lt_radix _, digitsFit_zeros _ _⟩, by simpa using grown full⟩
  case isFalse notFull => exact storable_inc ha (eq_false_of_ne_true notFull)

theorem storable_bitnot : s.Storable (bitnot s.cfg.width a) := storable_of_eq_fromNat (bitnot_eq ha.digits) ha.fits

theorem storable_nil : s.Storable [] := ⟨rfl, fits_mono (Nat.zero_le _) ha.fits⟩

theorem storable_rol (n : Nat) : s.Storable (rol s.cfg.width a n) := by
  unfold rol
  split
  · exact storable_nil ha
  · exact storable_fromNat ha.fits _

theorem storable_ror (n : Nat) : s.Storable (ror s.cfg.width a n) := by
  unfold ror
  split
  · exact storable_nil ha
  · exact storable_rol ha _

include hb

theorem storable_sub : s.Storable (sub s.cfg.width a b) :=
  ⟨digitsFit_sub_fn ha.digits hb.digits, by rw [length_sub]; exact fits_max ha.fits hb.fits⟩

theorem storable_mul (h : s.fits (a.length + b.length) = true) : s.Storable (mul s.cfg.width a b) :=
  storable_of_eq_fromNat (mul_eq ha.digits hb.digits) h

theorem storable_divRem (nonzero : isZero b = false) :
    s.Storable (divRem s.cfg.width a b).1 ∧ s.Storable (divRem s.cfg.width a b).2 :=
  ⟨⟨divRem_quotient_fit a b, fits_mono (divRem_quotient_length_le a nonzero) ha.fits⟩,
    divRem_remainder_fit ha.digits hb.digits, fits_mono (divRem_remainder_length a b ▸ eff_le_length b) hb.fits⟩

theorem storable_bitop {f : Nat → Nat → Nat} (hf : BitByBit f) : s.Storable (bitop f a b) :=
  storable_of_eq_fromNat (bitop_eq hf ha.digits hb.digits) (fits_max ha.fits hb.fits)

end Functions

end Storable

/-! ### Every way a command can end keeps the invariant -/

/-- What a register may hold depends on the width and on `MAXD` alone. -/
theorem State.Holds.of_cfg {s t : State} {v : Value} (h : s.Holds v) (cfg : t.cfg = s.cfg) : t.Holds v := by
  obtain ⟨⟨fit, len⟩, normal⟩ := h
  refine ⟨⟨by rwa [cfg], ?_⟩, normal⟩
  rwa [State.fits, cfg]

section Keeping

variable {s t : State} (h : s.Inv)

include h

theorem State.Inv.storable (r : Reg) : s.Storable (s.mag r) := ⟨h.inRange r, h.capacity r⟩

theorem State.Inv.holds (r : Reg) : s.Holds (s.reg r) := ⟨h.storable r, h.normalised r⟩

/-- A register holds at least two digits (R6), as many as the immediate needs (R149). -/
theorem State.Inv.fits_two : s.fits 2 = true := by
  cases hm : s.cfg.maxd with
  | none => simp [State.fits, hm]
  | some m =>
    have valid : 2 ≤ m ∧ m ≤ 65535 := by simpa [Config.valid, hm] using h.instanceValid
    simp [State.fits, hm, valid.1]

/-- A next state that keeps the frame is sound when its registers and its flags are. -/
theorem State.Inv.of_frame (cfg : t.cfg = s.cfg) (pending : t.pending = s.pending) (reserved : t.reserved = s.reserved)
    (regs : ∀ r, s.Holds (t.reg r)) (errCode : t.err.toNat ≤ 4) (ferrCode : t.ferr.toNat ≤ 4)
    (cmpCode : t.cmp ≠ 0b10#2) (recorded : t.err ≠ 0#3 → t.ferr ≠ 0#3) : t.Inv := by
  have holds := fun r => (regs r).of_cfg cfg
  exact
    { instanceValid := cfg ▸ h.instanceValid
      inRange := fun r => (holds r).storable.digits
      normalised := fun r => (holds r).normalised
      capacity := fun r => (holds r).storable.fits
      reservedZero := reserved.trans h.reservedZero
      sendable := by rw [cfg, pending]; exact h.sendable
      errCode, ferrCode, cmpCode, recorded }

/-- An error has a code of R220, is recorded in `FERR`, and changes nothing else (R225, R226). -/
theorem State.Inv.of_raised {e : Error} (raised : Raised s t e) : t.Inv := by
  have code : e.code.toNat ≤ 4 := by cases e <;> decide
  have ferr := raised.ferr
  refine h.of_frame raised.cfg raised.pending raised.reserved (fun r => raised.regs r ▸ h.holds r) (raised.err ▸ code)
    ?_ (raised.cmp ▸ h.cmpCode) fun _ => ?_
  · split at ferr
    · exact ferr ▸ code
    · exact ferr ▸ h.ferrCode
  · split at ferr
    · exact ferr ▸ e.code_ne_zero
    · exact ferr ▸ ‹_›

/-- A success keeps the invariant when it writes values that a register may hold and a `CMP` that exists. -/
theorem State.Inv.of_succeededWith {v : Option Value} {b : Bool} {c : BitVec 2} {regs : Reg → Value}
    (succ : SucceededWith s t v b c regs) (hc : c ≠ 0b10#2) (hr : ∀ r, s.Holds (regs r)) : t.Inv := by
  obtain ⟨succ, -, cmp, reg⟩ := succ
  exact h.of_frame succ.cfg succ.pending succ.reserved (fun r => reg r ▸ hr r) (by rw [succ.err]; decide)
    (succ.ferr ▸ h.ferrCode) (cmp ▸ hc) fun failed => absurd succ.err failed

end Keeping

/-- A next state that the result answers is sound. -/
def EndsSound (r : Result) : Prop := ∀ t, r = .next t → t.Inv

theorem endsSound_of {r : Result} {P : State → Prop} (h : ∃ t, r = .next t ∧ P t) (inv : ∀ t, P t → t.Inv) :
    EndsSound r := by
  obtain ⟨t, rfl, ht⟩ := h
  rintro _ ⟨⟩
  exact inv t ht

theorem endsSound_ite {p : Prop} [Decidable p] {r q : Result} (hr : p → EndsSound r) (hq : ¬p → EndsSound q) :
    EndsSound (if p then r else q) := by
  split
  · exact hr ‹_›
  · exact hq ‹_›

theorem endsSound_fault (f : Fault) : EndsSound (.fault f) := by rintro _ ⟨⟩

section Ending

variable {s : State} (h : s.Inv)

include h

theorem endsSound_fail (e : Error) : EndsSound (fail s e) :=
  endsSound_of (fail_raises s e) fun _ raised => h.of_raised raised

theorem endsSound_ifFits {n : Nat} {r : Result} (hr : s.fits n = true → EndsSound r) : EndsSound (ifFits s n r) :=
  endsSound_ite hr fun _ => endsSound_fail h _

theorem endsSound_complete (v : Option Value) : EndsSound (.next (s.complete v)) :=
  endsSound_of
    ⟨_, rfl, (⟨complete_succeeds _ _ _ rfl rfl rfl rfl, by simp, by simp, fun _ => rfl⟩ : WroteNothing s _ v)⟩
    fun _ nothing => h.of_succeededWith nothing h.cmpCode h.holds

theorem endsSound_writeTruth (b : Bool) : EndsSound (writeTruth s b) :=
  endsSound_of (writeTruth_writes s b) fun _ truth => h.of_succeededWith truth h.cmpCode h.holds

theorem endsSound_writeCmp (o : Ordering) : EndsSound (writeCmp s o) :=
  endsSound_of (writeCmp_writes s o) fun _ cmp => h.of_succeededWith cmp (by cases o <;> decide) h.holds

theorem endsSound_finish_setReg (rd : Reg) {v : Value} (hv : s.Holds v) : EndsSound (finish (s.setReg rd v)) :=
  endsSound_of (finish_setReg_writes s rd v) fun _ wrote => h.of_succeededWith wrote h.cmpCode fun r => by
    split
    · exact hv
    · exact h.holds r

theorem endsSound_finish_setReg_setReg (rd re : Reg) {v u : Value} (hv : s.Holds v) (hu : s.Holds u) :
    EndsSound (finish ((s.setReg rd v).setReg re u)) :=
  endsSound_of (finish_setReg_setReg_writes s rd v re u) fun _ wrote =>
    h.of_succeededWith wrote h.cmpCode fun r => by
      split
      · exact hu
      · split
        · exact hv
        · exact h.holds r

theorem endsSound_writeMag (rd : Reg) {m : Digits} (hm : s.Storable m) : EndsSound (writeMag s rd m) :=
  endsSound_finish_setReg h rd (holds_of_nonneg hm)

theorem endsSound_writeValue (rd : Reg) {v : Value} (hv : s.Storable v.mag) : EndsSound (writeValue s rd v) :=
  endsSound_finish_setReg h rd (holds_normalise hv)

/-- Signs that agree add magnitudes, after the capacity test; signs that differ subtract them, which grows none (R162). -/
theorem endsSound_addInto (rd : Reg) {x y : Value} (hx : s.Storable x.mag) (hy : s.Storable y.mag) :
    EndsSound (addInto s rd x y) := by
  unfold addInto vadd
  split
  · exact endsSound_ifFits h fun fits => endsSound_writeValue h rd (storable_of_eq_fromNat add_eq fits)
  · split
    · exact endsSound_writeValue h rd (storable_sub hy hx)
    · exact endsSound_writeValue h rd (storable_sub hx hy)

theorem execLdd_endsSound (rd : Reg) (neg : Bool) (p : Digits) : EndsSound (execLdd rd neg p s) :=
  endsSound_ite
    (fun fit => endsSound_ifFits h fun fits => endsSound_writeValue h rd ⟨fit, fits⟩)
    fun _ => endsSound_fault _

theorem execLdi_endsSound (rd : Reg) (imm : Imm16) : EndsSound (execLdi rd imm s) := by
  have short : (16 + s.cfg.width.bits - 1) / s.cfg.width.bits ≤ 2 := by cases s.cfg.width <;> decide
  exact endsSound_writeMag h rd (storable_fromNat (fits_mono short h.fits_two) _)

/-- Every command keeps the invariant: it writes what a register may hold, or it fails. -/
theorem exec_endsSound (i : Instr) : EndsSound (exec i s) := by
  have fails := endsSound_fail h
  have fits := fun {n} {r : Result} => endsSound_ifFits h (n := n) (r := r)
  have mag := fun rd {m} => endsSound_writeMag h rd (m := m)
  have value := fun rd {v} => endsSound_writeValue h rd (v := v)
  have regs := h.storable
  have divides := fun ra rb (nonzero : ¬isZero (s.mag rb) = true) =>
    storable_divRem (regs ra) (regs rb) (eq_false_of_ne_true nonzero)
  cases i
  case nop | rdv => exact endsSound_complete h _
  case ldd rd neg p => exact execLdd_endsSound h rd neg p
  case ldi rd imm => exact execLdi_endsSound h rd imm
  case mov rd ra => exact endsSound_finish_setReg h rd (h.holds ra)
  case padd rd ra rb => exact fits fun le => mag rd (storable_of_eq_fromNat add_eq le)
  case psub rd ra rb => exact endsSound_ite (fun _ => fails _) fun _ => mag rd (storable_sub (regs ra) (regs rb))
  case pmul rd ra rb => exact fits fun le => mag rd (storable_mul (regs ra) (regs rb) le)
  case pmuld rd ra rb =>
    exact fits fun le => mag rd (storable_of_eq_fromNat (mulDigit_eq (regs ra).digits (lsd_lt (regs rb).digits 0)) le)
  case pdivrem rd re ra rb =>
    exact endsSound_ite (fun _ => fails _) fun _ => endsSound_ite (fun _ => fails _) fun nonzero =>
      endsSound_finish_setReg_setReg h rd re (holds_of_nonneg (divides ra rb nonzero).1)
        (holds_of_nonneg (divides ra rb nonzero).2)
  case pinc rd =>
    exact endsSound_ite (fun _ => fails _) fun notFull =>
      mag rd (storable_inc (regs rd) (eq_false_of_ne_true notFull))
  case pdec rd =>
    exact endsSound_ite (fun _ => fails _) fun nonzero =>
      mag rd (storable_dec (regs rd) (eq_false_of_ne_true nonzero))
  case pcmp => exact endsSound_writeCmp h _
  case pisz | pisone | peven | podd | phsb | plsb => exact endsSound_writeTruth h _
  case vlt | vgt | vle | vge | veq | vne | vbool => exact endsSound_writeTruth h _
  case pand rd ra rb => exact mag rd (storable_bitop (regs ra) (regs rb) land_bitByBit)
  case por rd ra rb => exact mag rd (storable_bitop (regs ra) (regs rb) lor_bitByBit)
  case pxor rd ra rb => exact mag rd (storable_bitop (regs ra) (regs rb) xor_bitByBit)
  case pnot rd ra => exact mag rd (storable_bitnot (regs ra))
  case pshl1 rd ra => exact mag rd (storable_of_eq_fromNat (shl1_eq (regs ra).digits) (regs ra).fits)
  case pshr1 rd ra => exact mag rd (storable_of_eq_fromNat (shr1_eq (regs ra).digits) (regs ra).fits)
  case prol1 rd ra => exact mag rd (storable_of_eq_fromNat (rol1_eq (regs ra).digits) (regs ra).fits)
  case pror1 rd ra => exact mag rd (storable_of_eq_fromNat (ror1_eq (regs ra).digits) (regs ra).fits)
  case pshl rd ra _ | pshr rd ra _ => exact mag rd (storable_fromNat (regs ra).fits _)
  case prol rd ra _ => exact mag rd (storable_rol (regs ra) _)
  case pror rd ra _ => exact mag rd (storable_ror (regs ra) _)
  case vadd rd ra rb | vsub rd ra rb => exact endsSound_addInto h rd (regs ra) (regs rb)
  case vmul rd ra rb => exact fits fun le => value rd (storable_mul (regs ra) (regs rb) le)
  case vdiv rd ra rb =>
    exact endsSound_ite (fun _ => fails _) fun nonzero => value rd (divides ra rb nonzero).1
  case vrem rd ra rb =>
    exact endsSound_ite (fun _ => fails _) fun nonzero => value rd (divides ra rb nonzero).2
  case vdivrem rd re ra rb =>
    exact endsSound_ite (fun _ => fails _) fun _ => endsSound_ite (fun _ => fails _) fun nonzero =>
      endsSound_finish_setReg_setReg h rd re (holds_normalise (divides ra rb nonzero).1)
        (holds_normalise (divides ra rb nonzero).2)
  case vinc rd ra =>
    exact endsSound_ite (fun _ => fits fun le => value rd (storable_incGrow (regs ra) fun _ => le)) fun notFull =>
      value rd (storable_incGrow (regs ra) fun full => absurd full notFull)
  case vdec rd ra =>
    exact endsSound_ite (fun _ => fails _) fun nonzero =>
      value rd (storable_dec (regs ra) (eq_false_of_ne_true nonzero))
  case vand rd ra rb => exact value rd (storable_bitop (regs ra) (regs rb) land_bitByBit)
  case vor rd ra rb => exact value rd (storable_bitop (regs ra) (regs rb) lor_bitByBit)
  case vxor rd ra rb => exact value rd (storable_bitop (regs ra) (regs rb) xor_bitByBit)
  case vnot rd ra => exact value rd (storable_bitnot (regs ra))
  case vshl rd ra _ | vshr rd ra _ => exact value rd (storable_fromNat (regs ra).fits _)

theorem issue_endsSound (c : Command) : EndsSound (s.issue c) := by
  cases hd : decode c with
  | error r => rw [issue_of_reject hd]; exact endsSound_fail h _
  | ok i => rw [issue_of_decode hd]; exact exec_endsSound h i

/-- Taking an input from the list leaves the rest sendable. -/
theorem State.Inv.of_rest {e : HostEvent} {rest : List HostEvent} (hp : s.pending = e :: rest) :
    { s with pending := rest }.Inv :=
  { instanceValid := h.instanceValid
    inRange := h.inRange
    normalised := h.normalised
    capacity := h.capacity
    reservedZero := h.reservedZero
    errCode := h.errCode
    ferrCode := h.ferrCode
    cmpCode := h.cmpCode
    recorded := h.recorded
    sendable := fun c sent => h.sendable c (hp ▸ List.mem_cons_of_mem e sent) }

theorem State.Inv.resetEvent : s.resetEvent.Inv :=
  inv_of_cleared h.instanceValid s.resetEvent_reg rfl h.sendable

theorem step_endsSound : EndsSound (step s) := by
  rcases hp : s.pending with _ | ⟨c | _, rest⟩
  case nil =>
    rw [step_of_no_input hp]
    rintro _ ⟨⟩
    exact h
  case cons.command =>
    rw [step_of_command hp]
    exact issue_endsSound (h.of_rest hp) c
  case cons.reset =>
    rw [step_of_reset hp]
    rintro _ ⟨⟩
    exact (h.of_rest hp).resetEvent

end Ending

/-! ### The obligations -/

/-- Settles O12, by the three kinds of input and the 52 commands. -/
theorem everyStepKeepsSoundness : Obligations.EveryStepKeepsSoundness :=
  fun _ t h hstep => step_endsSound h t hstep

/-- Settles O15. -/
theorem ferrKeepsTheFirstError : Obligations.FerrKeepsTheFirstError := by
  intro c s t h
  obtain ⟨e, raised⟩ | ⟨i, v, b, k, regs, -, ⟨succ, -⟩, -⟩ := issue_raised_or_succeeded h
  · rw [raised.ferr, raised.err]
  · rw [succ.ferr, succ.err]
    split
    · assumption
    · rfl

/-- Settles O17. -/
theorem onlyTestsWriteTruth : Obligations.OnlyTestsWriteTruth := by
  intro c s t h hyp
  obtain ⟨e, raised⟩ | ⟨i, v, b, k, regs, hd, ⟨succ, truth, -⟩, test, -⟩ := issue_raised_or_succeeded h
  · exact raised.truth
  · exact truth.trans (test (not_writer_of_succeeded hyp hd succ))

/-- Settles O18. -/
theorem onlyPcmpWritesCmp : Obligations.OnlyPcmpWritesCmp := by
  intro c s t h hyp
  obtain ⟨e, raised⟩ | ⟨i, v, b, k, regs, hd, ⟨succ, -, cmp, -⟩, -, compare⟩ := issue_raised_or_succeeded h
  · exact raised.cmp
  · exact cmp.trans (compare (not_writer_of_succeeded hyp hd succ))

/-- Settles O20: the data parts agree for every command, and the tests and `PCMP` are one write of their flag. -/
theorem statusIsNeverAnOperand : Obligations.StatusIsNeverAnOperand := by
  intro i s t t' st h h'
  obtain ⟨err, regs⟩ := exec_sameData s st i t t' h h'
  refine ⟨err, regs, fun test => ?_, fun compare => ?_⟩
  · obtain ⟨b, hb, hb'⟩ := exec_of_isTest s st test
    cases hb.symm.trans h
    cases hb'.symm.trans h'
    simp
  · obtain ⟨o, ho, ho'⟩ := exec_of_isCompare s st compare
    cases ho.symm.trans h
    cases ho'.symm.trans h'
    simp

/-- Settles O21: an error entry and a success both keep the parameters, the reserved bits and the host's list. -/
theorem instanceAndReservedBitsStay : Obligations.InstanceAndReservedBitsStay := by
  intro i s t h
  obtain ⟨e, raised⟩ | ⟨v, b, c, regs, ⟨succ, -⟩, -⟩ := exec_endsWell i s t h
  · exact ⟨raised.cfg, raised.reserved, raised.pending⟩
  · exact ⟨succ.cfg, succ.reserved, succ.pending⟩

/-- Settles O9. -/
theorem resetStateHoldsTheStatedValues : Obligations.ResetStateHoldsTheStatedValues :=
  fun c => ⟨State.resetOf_reg c, fields_of_status_zero rfl⟩

/-- Settles O11: `State.reset` is `State.resetOf` for the parameters of the spec's vectors. -/
theorem resetIsSound : Obligations.ResetIsSound :=
  ⟨fun _ h => resetOf_inv h, resetOf_inv (by decide)⟩

end Sys2Proof.Machine

/-! ## Encoding: the decoder, the encoder and the opcode map agree, and the response (30_encoding R57 to R63) -/

namespace Sys2Proof

/-! ### What each format accepts (R61, steps 2 to 5), and that no format looks at the opcode -/

section Formats

variable {c : Command} {i : Instr}

theorem checked_eq_ok {z : Bool} {p : Digits} (zero : z = true) (empty : p = []) : checked z p i = .ok i := by
  rw [zero, empty]
  rfl

theorem formatL_eq_ok_iff {k : Reg → Bool → Digits → Instr} :
    formatL c k = .ok i ↔ zeroAt c.word 16 3 = true ∧ c.payload.length = countOf c.word ∧
      i = k (rdOf c.word) (signOf c.word) c.payload := by
  unfold formatL
  split_ifs with zero count
  · simp_all
  · simp_all
  · have zero : zeroAt c.word 16 3 = true := by simpa using zero
    simp [zero, not_not.1 count, eq_comm]

theorem formatR4_eq_ok {k : Reg → Reg → Reg → Reg → Instr} (zero : zeroAt c.word 0 8 = true) (empty : c.payload = [])
    (differ : rdOf c.word ≠ reOf c.word) :
    formatR4 c k = .ok (k (rdOf c.word) (reOf c.word) (raOf c.word) (rbOf c.word)) := by
  simp [formatR4, zero, empty, differ]

theorem formatL_ne_reserved {k : Reg → Bool → Digits → Instr} : formatL c k ≠ .error .reservedOpcode := by
  unfold formatL
  split_ifs <;> simp

theorem formatR4_ne_reserved {k : Reg → Reg → Reg → Reg → Instr} : formatR4 c k ≠ .error .reservedOpcode := by
  unfold formatR4
  split_ifs <;> simp

end Formats

/-! ### The decoder after the encoder -/

/-- Whether the digits of the payload fit a port does not matter to the decoder: it is no premise. -/
theorem decode_encode {i : Instr} (count : i.countFits = true) (differ : i.destsDiffer = true) :
    decode (encode i) = .ok i := by
  unfold encode decode
  cases i
  case nop =>
    rw [encodeWord, opcodeOf_wordZ]
    exact formatZ_wordZ _ _
  case ldd =>
    rw [encodeWord, opcodeOf_wordL]
    exact formatL_wordL _ _ _ _ _ (of_decide_eq_true count)
  case ldi =>
    rw [encodeWord, opcodeOf_wordDI]
    exact formatDI_wordDI _ _ _ _
  case pdivrem | vdivrem =>
    rw [encodeWord, opcodeOf_wordR4]
    exact (formatR4_wordR4 _ _ _ _ _ _).trans (if_neg (of_decide_eq_true differ))
  case pinc | pdec =>
    rw [encodeWord, opcodeOf_wordD1]
    exact formatD1_wordD1 _ _ _
  case mov | pnot | pshl1 | pshr1 | prol1 | pror1 | vinc | vdec | vnot =>
    rw [encodeWord, opcodeOf_wordR2]
    exact formatR2_wordR2 _ _ _ _
  case pcmp | vlt | vgt | vle | vge | veq | vne =>
    rw [encodeWord, opcodeOf_wordS2]
    exact formatS2_wordS2 _ _ _ _
  case rdv | pisz | pisone | peven | podd | phsb | plsb | vbool =>
    rw [encodeWord, opcodeOf_wordS1]
    exact formatS1_wordS1 _ _ _
  case pshl | pshr | prol | pror | vshl | vshr =>
    rw [encodeWord, opcodeOf_wordI]
    exact formatI_wordI _ _ _ _ _
  all_goals
    rw [encodeWord, opcodeOf_wordR3]
    exact formatR3_wordR3 _ _ _ _ _

/-! ### The encoder after the decoder -/

theorem ofNat_eq_opcodeOf {w : Word} {n : Nat} (h : (opcodeOf w).toNat = n) : BitVec.ofNat 8 n = opcodeOf w := by
  rw [← h, BitVec.ofNat_toNat, BitVec.setWidth_eq]

/-- The word is its opcode and the fields that the decoder reads; what it does not read it has found to be 0. -/
theorem encodeWord_of_decode {c : Command} {i : Instr} (h : decode c = .ok i) : encodeWord i = c.word := by
  unfold decode at h
  split at h
  -- The reserved opcodes.
  case h_53 => cases h
  all_goals
    rename_i hop
    have op := ofNat_eq_opcodeOf hop
  -- NOP.
  case h_1 =>
    obtain ⟨zero, -, rfl⟩ := checked_ok h
    rw [encodeWord, op, wordZ_fields zero]
  -- LDD.
  case h_2 =>
    obtain ⟨zero, count, rfl⟩ := formatL_eq_ok_iff.1 h
    rw [encodeWord, op, count, wordL_fields zero]
  -- LDI.
  case h_3 =>
    obtain ⟨zero, -, rfl⟩ := checked_ok h
    rw [encodeWord, op, wordDI_fields zero]
  -- PDIVREM, VDIVREM.
  case h_10 | h_37 =>
    obtain ⟨zero, -, rfl⟩ := checked_ok (checked_of_formatR4 h).1
    rw [encodeWord, op, wordR4_fields zero]
  -- PINC, PDEC.
  case h_11 | h_12 =>
    obtain ⟨zero, -, rfl⟩ := checked_ok h
    rw [encodeWord, op, wordD1_fields zero]
  -- MOV, PNOT, the one-bit shifts and rotates, VINC, VDEC, VNOT.
  case h_4 | h_23 | h_24 | h_25 | h_26 | h_27 | h_38 | h_39 | h_50 =>
    obtain ⟨zero, -, rfl⟩ := checked_ok h
    rw [encodeWord, op, wordR2_fields zero]
  -- PCMP and the comparisons of values.
  case h_13 | h_40 | h_41 | h_42 | h_43 | h_44 | h_45 =>
    obtain ⟨zeros, -, rfl⟩ := checked_ok h
    obtain ⟨high, low⟩ := Bool.and_eq_true_iff.1 zeros
    rw [encodeWord, op, wordS2_fields high low]
  -- RDV, the tests of one magnitude, VBOOL.
  case h_5 | h_14 | h_15 | h_16 | h_17 | h_18 | h_19 | h_46 =>
    obtain ⟨zeros, -, rfl⟩ := checked_ok h
    obtain ⟨high, low⟩ := Bool.and_eq_true_iff.1 zeros
    rw [encodeWord, op, wordS1_fields high low]
  -- The n-bit shifts and rotates.
  case h_28 | h_29 | h_30 | h_31 | h_51 | h_52 =>
    obtain ⟨-, -, rfl⟩ := checked_ok h
    rw [encodeWord, op, wordI_fields]
  -- The commands with three registers.
  all_goals
    obtain ⟨zero, -, rfl⟩ := checked_ok h
    rw [encodeWord, op, wordR3_fields zero]

theorem encode_of_decode {c : Command} {i : Instr} (h : decode c = .ok i) : encode i = c := by
  rw [encode, encodeWord_of_decode h, encodePayload_of_decode h]

/-! ### The opcode map (R60) -/

theorem encodeWord_and_mask (i : Instr) : encodeWord i &&& i.row.mask = i.row.pattern := by
  cases i
  case nop => rfl
  case ldd => exact (wordL_and_mask _ _ _ _).trans rfl
  case ldi => exact (wordDI_and_mask _ _ _).trans rfl
  case pdivrem | vdivrem => exact (wordR4_and_mask _ _ _ _ _).trans rfl
  case pinc | pdec => exact (wordD1_and_mask _ _).trans rfl
  case mov | pnot | pshl1 | pshr1 | prol1 | pror1 | vinc | vdec | vnot => exact (wordR2_and_mask _ _ _).trans rfl
  case pcmp | vlt | vgt | vle | vge | veq | vne => exact (wordS2_and_mask _ _ _).trans rfl
  case rdv | pisz | pisone | peven | podd | phsb | plsb | vbool => exact (wordS1_and_mask _ _).trans rfl
  case pshl | pshr | prol | pror | vshl | vshr => exact (wordI_and_mask _ _ _ _).trans rfl
  all_goals exact (wordR3_and_mask _ _ _ _).trans rfl

theorem Instr.opcodeOf_mask (i : Instr) : opcodeOf i.row.mask = 0xFF#8 := by
  cases i <;> simp [Instr.row, opcodeOf]

/-- A word of the row of `i` has the opcode of the row, and 0 in the must-be-zero fields of its format; the payload and
the destinations are what steps 3 to 5 of R61 ask for. -/
theorem decode_of_row {c : Command} {i : Instr} (h : c.word &&& i.row.mask = i.row.pattern)
    (count : opcodeOf c.word = 0x01#8 → c.payload.length = countOf c.word)
    (empty : opcodeOf c.word ≠ 0x01#8 → c.payload = [])
    (differ : opcodeOf c.word = 0x14#8 ∨ opcodeOf c.word = 0x45#8 → rdOf c.word ≠ reOf c.word) :
    ∃ j, decode c = .ok j ∧ j.row = i.row := by
  have op := opcodeOf_of_mask h i.opcodeOf_mask rfl
  unfold decode
  rw [op] at count empty differ ⊢
  cases i <;> dsimp only [Instr.row] at h count empty differ ⊢
  case ldd => exact ⟨_, formatL_eq_ok_iff.2 ⟨zeroAt_of_mask h rfl rfl, count rfl, rfl⟩, rfl⟩
  case pdivrem =>
    exact ⟨_, formatR4_eq_ok (zeroAt_of_mask h rfl rfl) (empty (by decide)) (differ (.inl rfl)), rfl⟩
  case vdivrem =>
    exact ⟨_, formatR4_eq_ok (zeroAt_of_mask h rfl rfl) (empty (by decide)) (differ (.inr rfl)), rfl⟩
  -- Format I has no must-be-zero field, formats S2 and S1 have two, the others one.
  case pshl | pshr | prol | pror | vshl | vshr => exact ⟨_, checked_eq_ok rfl (empty (by decide)), rfl⟩
  case pcmp | vlt | vgt | vle | vge | veq | vne | rdv | pisz | pisone | peven | podd | phsb | plsb | vbool =>
    refine ⟨_, checked_eq_ok ?_ (empty (by decide)), rfl⟩
    exact Bool.and_eq_true_iff.2 ⟨zeroAt_of_mask h rfl rfl, zeroAt_of_mask h rfl rfl⟩
  all_goals
    refine ⟨_, checked_eq_ok ?_ (empty (by decide)), rfl⟩
    exact zeroAt_of_mask h rfl rfl

/-! ### The obligations on the encoding -/

/-- Settles O2, by the ten formats: the fields put into a word are read back from it. -/
theorem decodeUndoesEncode : Obligations.DecodeUndoesEncode := by
  intro w i h
  simp only [Instr.wf, Bool.and_eq_true] at h
  obtain ⟨⟨count, -⟩, differ⟩ := h
  exact decode_encode count differ

/-- Settles O3, by the rows of the decoder. -/
theorem encodeUndoesDecode : Obligations.EncodeUndoesDecode :=
  fun _ _ h => encode_of_decode h

/-- Settles O4: what decodes is an encoding, and an encoding matches its row; the other direction is `decode_of_row`. -/
theorem decodingFollowsTheOpcodeMap : Obligations.DecodingFollowsTheOpcodeMap := by
  refine ⟨fun c i h => ?_, fun c i h payload differ => ?_⟩
  · rw [← encodeWord_of_decode h, encodeWord_and_mask]
  · refine decode_of_row h (fun ldd => ?_) (fun other => ?_) differ
    · rwa [if_pos ldd] at payload
    · rwa [if_neg other] at payload

/-- Settles O5: the opcodes of the 52 rows are outside the seven ranges and their formats reject for other reasons; an
opcode that is none of the 52 is inside one of the ranges. -/
theorem reservedOpcodesAreRejected : Obligations.ReservedOpcodesAreRejected := by
  intro c
  have bound := (opcodeOf c.word).isLt
  dsimp only
  unfold decode
  split <;> rename_i hop
  case h_53 =>
    -- In the context the opcode is none of the 52.
    refine iff_of_true rfl ?_
    simp only [imp_false] at *
    omega
  case h_2 => exact iff_of_false formatL_ne_reserved (by omega)
  case h_10 | h_37 => exact iff_of_false formatR4_ne_reserved (by omega)
  all_goals exact iff_of_false checked_ne_reserved (by omega)

/-- Settles O1, by computing the decoder on the ten words. -/
theorem wordsOfTheSpecDecode : Obligations.WordsOfTheSpecDecode := by
  unfold Obligations.WordsOfTheSpecDecode
  decide

namespace Machine

/-! ### Rejected commands and the response (R61, R62) -/

/-- `RDV` never fails (R152). -/
theorem not_raised_of_rdv {s t : State} {ra : Reg} {e : Error} (hx : exec (.rdv ra) s = .next t) : ¬ Raised s t e := by
  intro raised
  cases hx
  exact raised.err_ne_zero (State.complete_err _ _)

/-- Settles O7. -/
theorem rejectedCommandsRaiseIllegalCommand : Obligations.RejectedCommandsRaiseIllegalCommand := by
  intro s c rest r hp hd
  rw [step_of_command hp, issue_of_reject hd]
  exact fail_raises _ _

/-- Settles O19, by the ways a command can end: rejected, raised (which `RDV` never is), or succeeded. -/
theorem responseCarriesStatus : Obligations.ResponseCarriesStatus := by
  intro c s t h
  obtain ⟨i, hd, hx⟩ | ⟨⟨r, hd⟩, raised⟩ := issue_cases h <;> rw [hd]
  · obtain ⟨e, raised⟩ | ⟨v, b, k, regs, ⟨succ, -, -, hregs⟩, -, -, rdv, other⟩ := exec_endsWell i s t hx
    · refine ⟨none, raised.response, fun _ => rfl, ?_⟩
      rintro ra ⟨⟩
      exact absurd raised (not_raised_of_rdv hx)
    · refine ⟨v, succ.response, fun no => other fun ra hi => no ra (congrArg _ hi), ?_⟩
      rintro ra ⟨⟩
      obtain ⟨read, same⟩ := rdv ra rfl
      rw [hregs, same, read]
  · refine ⟨none, raised.response, fun _ => rfl, ?_⟩
    rintro ra ⟨⟩

end Machine

end Sys2Proof

/-! ## Primitive arithmetic: what each command writes, exactly and at every width (40_primitives-arith R80 to R96) -/

namespace Sys2Proof.Machine

/-! ### The two ways a primitive command that writes one register can end (R81, R222, R224) -/

section Endings

variable {i : Instr} {s t : State} {rd : Reg} {m m' : Digits} {P : State → Prop} {c : Prop} [Decidable c]

/-- A command that tests the capacity first (R224). -/
theorem ends_of_ifFits {n : Nat} (meaning : exec i s = ifFits s n (writeMag s rd m)) (result : m = m') :
    if s.fits n then Ends i s fun t => Wrote s t rd { neg := false, mag := m' }
    else Ends i s fun t => Raised s t .capacityExceeded := by
  subst result
  unfold Ends
  rw [meaning]
  split
  case isTrue fits =>
    rw [ifFits_of_fits fits]
    exact writeMag_writes s rd m
  case isFalse full =>
    rw [ifFits_of_not_fits (eq_false_of_ne_true full)]
    exact fail_raises s _

/-- A command that tests a requirement first, which `c` says is not met (R222). -/
theorem ends_of_requirement {p : Prop} [Decidable p]
    (meaning : exec i s = if p then fail s .preconditionViolation else writeMag s rd m) (violated : p ↔ c)
    (result : ¬ c → m = m') :
    if c then Ends i s fun t => Raised s t .preconditionViolation
    else Ends i s fun t => Wrote s t rd { neg := false, mag := m' } := by
  unfold Ends
  rw [meaning]
  split
  case isTrue hc =>
    rw [if_pos (violated.2 hc)]
    exact fail_raises s _
  case isFalse hc =>
    rw [if_neg (mt violated.1 hc), result hc]
    exact writeMag_writes s rd m'

/-- A command has one next state. -/
theorem Ends.of_exec (h : Ends i s P) (hx : exec i s = .next t) : P t := by
  obtain ⟨u, hu, hP⟩ := h
  cases hu.symm.trans hx
  exact hP

/-- A command that raises an error does not end without one. -/
theorem Ends.not_raised {e : Error} (h : Ends i s fun t => Raised s t e) (hx : exec i s = .next t) : t.err ≠ 0#3 :=
  (h.of_exec hx).err_ne_zero

/-- Without error the capacity test was passed. -/
theorem of_success_of_fits {e : Error} (h : if c then Ends i s P else Ends i s fun t => Raised s t e)
    (hx : exec i s = .next t) (ok : t.err = 0#3) : P t := by
  split at h
  · exact h.of_exec hx
  · exact absurd ok (h.not_raised hx)

/-- Without error the requirement was met. -/
theorem of_success_of_requirement {e : Error} (h : if c then Ends i s (fun t => Raised s t e) else Ends i s P)
    (hx : exec i s = .next t) (ok : t.err = 0#3) : ¬ c ∧ P t := by
  split at h
  case isTrue => exact absurd ok (h.not_raised hx)
  case isFalse hc => exact ⟨hc, h.of_exec hx⟩

end Endings

/-! ### The numbers of a state in range (R9) -/

section Numbers

variable {s t : State}

theorem State.InRange.nat_lt (h : s.InRange) (r : Reg) : s.nat r < s.cfg.width.radix ^ s.len r := val_lt (h r)

/-- The sum of two registers fits one digit more than the longer of them (R83). -/
theorem State.InRange.add_lt (h : s.InRange) (ra rb : Reg) :
    s.nat ra + s.nat rb < s.cfg.width.radix ^ (max (s.len ra) (s.len rb) + 1) := by
  have fit : digitsFit s.cfg.width (add s.cfg.width (s.mag ra) (s.mag rb)) = true := by
    rw [add_eq]
    exact digitsFit_fromNat _ _ _
  have lt := val_lt fit
  rwa [val_add (h ra) (h rb), add_eq, length_fromNat] at lt

/-- The product of two registers fits the digits of both (R87). -/
theorem State.InRange.mul_lt (h : s.InRange) (ra rb : Reg) :
    s.nat ra * s.nat rb < s.cfg.width.radix ^ (s.len ra + s.len rb) := by
  rw [pow_add]
  exact Nat.mul_lt_mul'' (h.nat_lt ra) (h.nat_lt rb)

/-- The product of a register and one digit fits one digit more (R89). -/
theorem State.InRange.mul_digit_lt (h : s.InRange) (ra : Reg) (n : Nat) :
    s.nat ra * (n % s.cfg.width.radix) < s.cfg.width.radix ^ (s.len ra + 1) := by
  rw [pow_succ]
  exact Nat.mul_lt_mul'' (h.nat_lt ra) (Nat.mod_lt _ (radix_pos _))

theorem SucceededWith.nat_eq {v : Option Value} {b : Bool} {c : BitVec 2} {regs : Reg → Value}
    (h : SucceededWith s t v b c regs) (r : Reg) : t.nat r = val s.cfg.width (regs r).mag := by
  obtain ⟨succ, -, -, hregs⟩ := h
  rw [State.nat, State.mag, succ.cfg, hregs]

/-- A command that wrote one register changed the number of no other. -/
theorem Wrote.nat_eq {rd : Reg} {v : Value} (h : Wrote s t rd v) :
    t.nat = Function.update s.nat rd (val s.cfg.width v.mag) := by
  funext r
  rw [SucceededWith.nat_eq h, Function.update_apply]
  split <;> rfl

theorem WroteBoth.nat_eq {rd re : Reg} {v u : Value} (h : WroteBoth s t rd v re u) :
    t.nat = Function.update (Function.update s.nat rd (val s.cfg.width v.mag)) re (val s.cfg.width u.mag) := by
  funext r
  rw [SucceededWith.nat_eq h, Function.update_apply, Function.update_apply]
  split
  · rfl
  · split <;> rfl

/-- Nothing is reduced when the number fits the digits it is written in (R83, R96). -/
theorem Wrote.nat_eq_of_lt {rd : Reg} {neg : Bool} {n v : Nat}
    (h : Wrote s t rd { neg := neg, mag := fromNat s.cfg.width n v }) (fits : v < s.cfg.width.radix ^ n) :
    t.nat = Function.update s.nat rd v := by
  rw [h.nat_eq, val_fromNat, Nat.mod_eq_of_lt fits]

end Numbers

/-- The code of a comparison of two numbers (R93). -/
theorem cmpCode_compare (m n : Nat) :
    cmpCode (compare m n) = if m < n then 0b11#2 else if n < m then 0b01#2 else 0b00#2 := by
  rcases Nat.lt_trichotomy m n with h | h | h
  · rw [Nat.compare_eq_lt.2 h, if_pos h]
    rfl
  · rw [Nat.compare_eq_eq.2 h, if_neg h.not_lt, if_neg h.not_gt]
    rfl
  · rw [Nat.compare_eq_gt.2 h, if_neg h.not_gt, if_pos h]
    rfl

/-! ### The obligations on one command each -/

/-- Settles O28. -/
theorem paddAdds : Obligations.PaddAdds :=
  fun _ _ _ _ => ⟨rfl, ends_of_ifFits rfl add_eq⟩

/-- Settles O29: `compare` is the order of the values. -/
theorem psubSubtracts : Obligations.PsubSubtracts :=
  fun _ _ ra rb h => ⟨rfl, ends_of_requirement rfl (compareMag_lt_iff (h ra) (h rb))
    fun notLess => sub_eq (h ra) (h rb) (Nat.le_of_not_lt notLess)⟩

/-- Settles O30. -/
theorem pmulMultiplies : Obligations.PmulMultiplies :=
  fun _ _ ra rb h => ⟨rfl, ends_of_ifFits rfl (mul_eq (h ra) (h rb))⟩

/-- Settles O31: the least significant digit of `rb` is its value modulo the radix. -/
theorem pmuldMultipliesByOneDigit : Obligations.PmuldMultipliesByOneDigit := by
  intro s rd ra rb h
  refine ⟨rfl, ends_of_ifFits rfl ?_⟩
  rw [lsd_zero_eq_mod (h rb)]
  exact mulDigit_eq (h ra) (Nat.mod_lt _ (radix_pos _))

/-- Settles O32: the register is full exactly when its value is the greatest of its length. -/
theorem pincIncrements : Obligations.PincIncrements :=
  fun _ rd h => ⟨rfl, ends_of_requirement rfl (isFull_iff (h rd))
    fun notFull => inc_eq (h rd) (eq_false_of_ne_true (mt (isFull_iff (h rd)).1 notFull))⟩

/-- Settles O33. -/
theorem pdecDecrements : Obligations.PdecDecrements :=
  fun _ rd h => ⟨rfl, ends_of_requirement rfl isZero_iff
    fun nonzero => dec_eq (h rd) (eq_false_of_ne_true (mt isZero_iff.1 nonzero))⟩

/-- Settles O34. -/
theorem pcmpComparesMagnitudes : Obligations.PcmpComparesMagnitudes := by
  intro s ra rb h
  refine ⟨rfl, ?_⟩
  rw [← cmpCode_compare, State.nat, State.nat, ← compareMag_eq (h ra) (h rb)]
  exact writeCmp_writes s _

/-! ### The numbers after a command that succeeds (R83, R96) -/

section Success

variable {s t : State} {rd ra rb : Reg} (h : s.InRange) (ok : t.err = 0#3)

include h ok

theorem nat_after_padd (hx : exec (.padd rd ra rb) s = .next t) :
    t.nat = Function.update s.nat rd (s.nat ra + s.nat rb) :=
  (of_success_of_fits (paddAdds s rd ra rb).2 hx ok).nat_eq_of_lt (h.add_lt ra rb)

theorem nat_after_psub (hx : exec (.psub rd ra rb) s = .next t) :
    s.nat rb ≤ s.nat ra ∧ t.nat = Function.update s.nat rd (s.nat ra - s.nat rb) := by
  obtain ⟨notLess, wrote⟩ := of_success_of_requirement (psubSubtracts s rd ra rb h).2 hx ok
  have fits : s.nat ra < s.cfg.width.radix ^ max (s.len ra) (s.len rb) :=
    (h.nat_lt ra).trans_le (Nat.pow_le_pow_right (radix_pos _) (le_max_left _ _))
  exact ⟨Nat.le_of_not_lt notLess, wrote.nat_eq_of_lt ((Nat.sub_le _ _).trans_lt fits)⟩

theorem nat_after_pmul (hx : exec (.pmul rd ra rb) s = .next t) :
    t.nat = Function.update s.nat rd (s.nat ra * s.nat rb) :=
  (of_success_of_fits (pmulMultiplies s rd ra rb h).2 hx ok).nat_eq_of_lt (h.mul_lt ra rb)

theorem nat_after_pmuld (hx : exec (.pmuld rd ra rb) s = .next t) :
    t.nat = Function.update s.nat rd (s.nat ra * (s.nat rb % s.cfg.width.radix)) :=
  (of_success_of_fits (pmuldMultipliesByOneDigit s rd ra rb h).2 hx ok).nat_eq_of_lt (h.mul_digit_lt ra _)

theorem nat_after_pinc (hx : exec (.pinc rd) s = .next t) : t.nat = Function.update s.nat rd (s.nat rd + 1) := by
  obtain ⟨notFull, wrote⟩ := of_success_of_requirement (pincIncrements s rd h).2 hx ok
  exact wrote.nat_eq_of_lt (Nat.lt_of_le_of_ne (h.nat_lt rd) notFull)

theorem nat_after_pdec (hx : exec (.pdec rd) s = .next t) :
    0 < s.nat rd ∧ t.nat = Function.update s.nat rd (s.nat rd - 1) := by
  obtain ⟨nonzero, wrote⟩ := of_success_of_requirement (pdecDecrements s rd h).2 hx ok
  exact ⟨Nat.pos_of_ne_zero nonzero, wrote.nat_eq_of_lt ((Nat.sub_le _ _).trans_lt (h.nat_lt rd))⟩

end Success

/-! ### The division engine computes quotient and remainder (R130 to R138) -/

section Engine

variable {w : DigitWidth} {b : Digits}

/-- The bisection keeps the bounds of the quotient digit and ends when they meet (R135). -/
theorem bisect_spec {x : Digits} (hx : digitsFit w x = true) (hb : digitsFit w b = true) {passes down up : Nat}
    (enough : up - down ≤ 2 ^ passes) (range : up ≤ w.radix) (lower : down * val w b ≤ val w x)
    (upper : val w x < up * val w b) :
    bisect w x b passes down up * val w b ≤ val w x ∧ val w x < (bisect w x b passes down up + 1) * val w b := by
  have met : ∀ {d u : Nat}, u - d ≤ 1 → val w x < u * val w b → val w x < (d + 1) * val w b :=
    fun near lt => lt.trans_le (Nat.mul_le_mul_right _ (by omega))
  induction passes generalizing down up with
  | zero => exact ⟨lower, met (by rwa [pow_zero] at enough) upper⟩
  | succ passes ih =>
    rw [bisect]
    split
    case isTrue near => exact ⟨lower, met near upper⟩
    case isFalse apart =>
      rw [pow_succ] at enough
      have mid : (down + up) / 2 < w.radix := by omega
      rw [compareMag_eq (digitsFit_mulDigit hb mid) hx, val_mulDigit hb mid]
      split
      case h_1 less => exact ih (by omega) range (Nat.compare_eq_lt.1 less).le upper
      case h_2 greater => exact ih (by omega) mid.le lower (Nat.compare_eq_gt.1 greater)
      case h_3 equal =>
        have eq := Nat.compare_eq_eq.1 equal
        rw [Nat.add_mul]
        have pos : 0 < val w b := Nat.pos_of_lt_mul_left upper
        omega

/-- The digit found is the quotient of the window by the divisor (R135). -/
theorem searchDigit_spec {x : Digits} (hx : digitsFit w x = true) (hb : digitsFit w b = true)
    (h : val w x < w.radix * val w b) :
    searchDigit w x b * val w b ≤ val w x ∧ val w x < (searchDigit w x b + 1) * val w b :=
  bisect_spec hx hb le_rfl le_rfl (by omega) h

/-- `r` is quotient and remainder of the number `n` by the divisor, in values (R137). -/
def Divides (w : DigitWidth) (b : Digits) (n : Nat) (r : Digits × Digits) : Prop :=
  val w r.1 * val w b + val w r.2 = n ∧ val w r.2 < val w b

theorem Divides.eq_div_mod {n : Nat} {r : Digits × Digits} (h : Divides w b n r) :
    val w r.1 = n / val w b ∧ val w r.2 = n % val w b := by
  obtain ⟨sum, lt⟩ := h
  rw [Nat.add_comm, Nat.mul_comm] at sum
  obtain ⟨q, m⟩ := (Nat.div_mod_unique (Nat.zero_lt_of_lt lt)).2 ⟨sum, lt⟩
  exact ⟨q.symm, m.symm⟩

/-- A working copy between two operations of a turn: the window's value is below `bound`, and `n` digits of the dividend
are still to be pulled in. A turn's search begins below `R` times the divisor and its subtraction ends below the divisor
(R138 (a), (d)). -/
structure Window.Below (w : DigitWidth) (bound n : Nat) (x : Window) : Prop where
  fit : digitsFit w x.digits = true
  lt : val w x.window < bound
  rest : x.rest.length = n

theorem Window.val_digits (x : Window) : val w x.digits = val w x.window * w.radix ^ x.rest.length + val w x.rest :=
  val_append w _ _

/-- A window less than the divisor takes in one more digit (R134 step 5a). -/
theorem Window.Below.extend {n : Nat} {x : Window} (h : x.Below w (val w b) (n + 1)) (hb : digitsFit w b = true) :
    (x.extend b).Below w (w.radix * val w b) n := by
  obtain ⟨fit, lt, rest⟩ := h
  obtain ⟨d, t, ht⟩ := List.exists_cons_of_length_eq_add_one rest
  obtain ⟨fitWindow, fitRest⟩ := digitsFit_append.1 fit
  have hd : d < w.radix := (digitsFit_cons.1 (ht ▸ fitRest)).1
  refine ⟨by rwa [Window.extend_digits], ?_, ?_⟩
  · rw [Window.extend_of_lt fitWindow hb ht lt, val_concat]
    calc val w x.window * w.radix + d < (val w x.window + 1) * w.radix := by rw [Nat.add_mul]; omega
      _ ≤ val w b * w.radix := Nat.mul_le_mul_right _ lt
      _ = w.radix * val w b := Nat.mul_comm _ _
  · rw [Window.extend_of_lt fitWindow hb ht lt]
    simpa [ht] using rest

/-- Taking the found multiple of the divisor off leaves a window less than the divisor (R134 step 5c). -/
theorem Window.Below.subtract {n : Nat} {y : Window} (h : y.Below w (w.radix * val w b) n) (hb : digitsFit w b = true) :
    (y.subtract w b (searchDigit w y.window b)).Below w (val w b) n ∧
      val w (y.subtract w b (searchDigit w y.window b)).digits +
        searchDigit w y.window b * val w b * w.radix ^ n = val w y.digits := by
  obtain ⟨fit, lt, rest⟩ := h
  obtain ⟨fitWindow, -⟩ := digitsFit_append.1 fit
  have digit := searchDigit_lt (w := w) y.window b
  obtain ⟨lower, upper⟩ := searchDigit_spec fitWindow hb lt
  have window : val w (y.subtract w b (searchDigit w y.window b)).window =
      val w y.window - searchDigit w y.window b * val w b := by
    rw [Window.subtract_window fitWindow hb digit lower, val_fromNat, Nat.mod_eq_of_lt]
    exact (Nat.sub_le _ _).trans_lt (val_lt fitWindow)
  refine ⟨⟨Window.subtract_fit fit hb digit, ?_, rest⟩, ?_⟩
  · rw [window]
    rw [Nat.add_mul] at upper
    omega
  · rw [Window.val_digits, Window.val_digits, window, Window.subtract_rest, rest, Nat.sub_mul, Nat.add_right_comm,
      Nat.sub_add_cancel]
    exact Nat.mul_le_mul_right _ lower

/-- One turn of the loop: the digit it emits stands above the digits of the turns after it. -/
theorem divLoop_turn {n : Nat} {x : Window} (ready : (x.extend b).Below w (w.radix * val w b) n)
    (hb : digitsFit w b = true)
    (later : ∀ z : Window, z.Below w (val w b) n → Divides w b (val w z.digits) (divLoop w b n z)) :
    Divides w b (val w x.digits) (divLoop w b (n + 1) x) := by
  obtain ⟨reduced, whole⟩ := ready.subtract hb
  obtain ⟨sum, lt⟩ := later _ reduced
  refine ⟨?_, lt⟩
  rw [Window.extend_digits] at whole
  rw [divLoop, val_cons, divLoop_quotient_length, ← whole, ← sum]
  ring

/-- From a window less than the divisor the loop divides all that is left (R134). -/
theorem divLoop_divides {n : Nat} {x : Window} (h : x.Below w (val w b) n) (hb : digitsFit w b = true) :
    Divides w b (val w x.digits) (divLoop w b n x) := by
  induction n generalizing x with
  | zero =>
    have rest : x.rest = [] := List.length_eq_zero_iff.1 h.rest
    have digits : x.digits = x.window := by rw [Window.digits, rest, List.append_nil]
    refine ⟨?_, ?_⟩
    · rw [divLoop, val_nil, Nat.zero_mul, Nat.zero_add]
      rfl
    · show val w x.digits < val w b
      rw [digits]
      exact h.lt
  | succ n ih => exact divLoop_turn (h.extend hb) hb fun _ reduced => ih reduced

/-- Digits above a value that fits below them are 0. -/
theorem val_drop_of_lt {a : Digits} {k : Nat} (h : val w a < w.radix ^ (a.length - k)) :
    val w (a.drop k) = val w a := by
  have split := val_append w (a.take k) (a.drop k)
  rw [List.take_append_drop, List.length_drop] at split
  have high : val w (a.take k) = 0 := by
    by_contra pos
    have := Nat.le_mul_of_pos_left (w.radix ^ (a.length - k)) (Nat.pos_of_ne_zero pos)
    omega
  rw [split, high, Nat.zero_mul, Nat.zero_add]

/-- The first digits of a stripped sequence are stripped. -/
theorem strip_take {a : Digits} (h : strip a = a) (n : Nat) : strip (a.take n) = a.take n := by
  rcases Nat.eq_zero_or_pos a.length with empty | pos
  · simp [List.length_eq_zero_iff.1 empty, strip]
  · obtain ⟨d, t, rfl, hd⟩ := head_ne_zero_of_stripped h pos
    cases n with
    | zero => rfl
    | succ n => rw [List.take_succ_cons, strip_cons_pos _ hd]

/-- The search begins with a window that is not less than the divisor: one of the divisor's length that is less takes in
a digit, and is then longer with a first digit that is not 0 (R133 step 4). -/
theorem Window.le_extend {x : Window} (fit : digitsFit w x.digits = true) (hb : digitsFit w b = true)
    (stripped : strip x.digits = x.digits) (len : x.window.length = b.length) (le : val w b ≤ val w x.digits) :
    val w b ≤ val w (x.extend b).window := by
  obtain ⟨fitWindow, -⟩ := digitsFit_append.1 fit
  rcases Nat.lt_or_ge (val w x.window) (val w b) with less | notLess
  · cases hr : x.rest with
    | nil =>
      rw [Window.digits, hr, List.append_nil] at le
      omega
    | cons d t =>
      have begins : x.digits.take (b.length + 1) = x.window ++ [d] := by
        rw [Window.digits, hr, ← len, List.take_length_add_append]
        rfl
      have longer : eff b < eff (x.window ++ [d]) := by
        rw [eff, eff, ← begins, strip_take stripped, begins, List.length_append, len]
        exact Nat.lt_succ_of_le (eff_le_length b)
      rw [Window.extend_of_lt fitWindow hb hr less]
      exact (val_lt_of_eff_lt hb longer).le
  · rwa [Window.extend_of_le fitWindow hb notLess]

/-- The set-up leaves a window to search in, and one turn more than digits to come (R133). -/
theorem Window.extend_ready {x : Window} (fit : digitsFit w x.digits = true) (hb : digitsFit w b = true)
    (stripped : strip b = b) (pos : 0 < val w b) (len : x.window.length = b.length) (le : val w b ≤ val w x.digits) :
    ∃ n, (if compareMag x.window b = .lt then x.rest.length else x.rest.length + 1) = n + 1 ∧
      (x.extend b).Below w (w.radix * val w b) n := by
  obtain ⟨fitWindow, -⟩ := digitsFit_append.1 fit
  simp only [compareMag_lt_iff fitWindow hb]
  split
  case isTrue less =>
    obtain ⟨n, hn⟩ : ∃ n, x.rest.length = n + 1 := by
      refine Nat.exists_eq_succ_of_ne_zero fun empty => ?_
      rw [Window.digits, List.length_eq_zero_iff.1 empty, List.append_nil] at le
      omega
    exact ⟨n, hn, Window.Below.extend ⟨fit, less, hn⟩ hb⟩
  case isFalse notLess =>
    refine ⟨_, rfl, ?_⟩
    rw [Window.extend_of_le fitWindow hb (Nat.le_of_not_lt notLess)]
    have effb : eff b = b.length := by rw [eff, stripped]
    have nonempty : 0 < eff b := Nat.pos_of_ne_zero fun empty => pos.ne' (eff_eq_zero_iff.1 empty)
    refine ⟨fit, ?_, rfl⟩
    calc val w x.window < w.radix ^ eff b := by rw [effb, ← len]; exact val_lt fitWindow
      _ = w.radix * w.radix ^ (eff b - 1) := by rw [← pow_succ', Nat.sub_add_cancel nonempty]
      _ ≤ w.radix * val w b := Nat.mul_le_mul_left _ (le_val_strip nonempty)

/-- The engine's first working copy of the dividend `a`: a window of the divisor's length (R133). -/
def Window.first (a b : Digits) : Window := { window := a.take b.length, rest := a.drop b.length }

theorem longDivision_eq {a : Digits} {n : Nat}
    (turns : (if compareMag (Window.first a b).window b = .lt then (Window.first a b).rest.length
      else (Window.first a b).rest.length + 1) = n) :
    longDivision w a b = ((divLoop w b n ((Window.first a b).extend b)).1,
      (divLoop w b n ((Window.first a b).extend b)).2.drop (a.length - b.length)) := by
  rw [← turns, Window.first, List.length_drop]
  rfl

/-- Long division of stripped sequences with the dividend not less than the divisor (R133 to R136). -/
theorem longDivision_divides {a : Digits} (ha : digitsFit w a = true) (hb : digitsFit w b = true) (sa : strip a = a)
    (sb : strip b = b) (pos : 0 < val w b) (le : val w b ≤ val w a) :
    Divides w b (val w a) (longDivision w a b) := by
  have short : b.length ≤ a.length := by
    by_contra longer
    have := val_lt_of_eff_lt (b := b) ha (by rw [eff, eff, sa, sb]; omega)
    omega
  have digits : (Window.first a b).digits = a := List.take_append_drop _ _
  have len : (Window.first a b).window.length = b.length := List.length_take_of_le short
  rw [← digits] at ha sa le
  obtain ⟨n, turns, ready⟩ := Window.extend_ready ha hb sb pos len le
  have still := Window.extend_of_le (digitsFit_append.1 ready.fit).1 hb (Window.le_extend ha hb sa len le)
  obtain ⟨sum, lt⟩ := divLoop_turn (still ▸ ready) hb fun _ reduced => divLoop_divides reduced hb
  rw [Window.extend_digits, digits] at sum
  have low := val_drop_of_lt (w := w) (a := (divLoop w b (n + 1) ((Window.first a b).extend b)).2)
    (k := a.length - b.length) <| by
      rw [divLoop_rest_length, Window.extend_digits, digits, Nat.sub_sub_self short]
      exact lt.trans (val_lt hb)
  rw [longDivision_eq turns, Divides, low]
  exact ⟨sum, lt⟩

/-- The engine divides, in values, every dividend by every divisor that is not zero (R137). -/
theorem divRem_divides {a : Digits} (ha : digitsFit w a = true) (hb : digitsFit w b = true) (pos : 0 < val w b) :
    Divides w b (val w a) (divRem w a b) := by
  have fa := digitsFit_strip ha
  have fb := digitsFit_strip hb
  simp only [divRem, compareMag_lt_iff fa fb, val_strip]
  split
  case isTrue less =>
    have fits : val w a < w.radix ^ eff b := less.trans (val_lt_eff hb)
    rw [Divides, val_fromNat, Nat.mod_eq_of_lt fits]
    exact ⟨by rw [val_nil, Nat.zero_mul, Nat.zero_add], less⟩
  case isFalse notLess =>
    have long := longDivision_divides fa fb (strip_strip a) (strip_strip b) (by rwa [val_strip])
      (by rw [val_strip, val_strip]; omega)
    rwa [Divides, val_strip, val_strip] at long

end Engine

/-! ### PDIVREM (R139) -/

/-- `PDIVREM` in the terms of its meaning: equal destinations, a zero divisor, or both halves written (R139). -/
theorem ends_pdivrem (s : State) (rd re ra rb : Reg) :
    if rd = re then Ends (.pdivrem rd re ra rb) s fun t => Raised s t .illegalCommand
    else if isZero (s.mag rb) then Ends (.pdivrem rd re ra rb) s fun t => Raised s t .divisionByZero
    else
      Ends (.pdivrem rd re ra rb) s fun t =>
        WroteBoth s t rd { neg := false, mag := (divRem s.cfg.width (s.mag ra) (s.mag rb)).1 }
          re { neg := false, mag := (divRem s.cfg.width (s.mag ra) (s.mag rb)).2 } := by
  have meaning : exec (.pdivrem rd re ra rb) s = execPdivrem rd re ra rb s := rfl
  unfold Ends
  rw [meaning, execPdivrem]
  split_ifs
  · exact fail_raises s _
  · exact fail_raises s _
  · exact writeMags_writes s _ _ _ _

theorem nat_after_pdivrem {s t : State} {rd re ra rb : Reg} (h : s.InRange) (ok : t.err = 0#3)
    (hx : exec (.pdivrem rd re ra rb) s = .next t) :
    t.nat = Function.update (Function.update s.nat rd (s.nat ra / s.nat rb)) re (s.nat ra % s.nat rb) := by
  have ends := ends_pdivrem s rd re ra rb
  split at ends
  · exact absurd ok (ends.not_raised hx)
  · obtain ⟨nonzero, wrote⟩ := of_success_of_requirement ends hx ok
    have pos : 0 < s.nat rb := Nat.pos_of_ne_zero (mt isZero_iff.2 nonzero)
    obtain ⟨quotient, remainder⟩ := (divRem_divides (h ra) (h rb) pos).eq_div_mod
    rw [wrote.nat_eq, quotient, remainder]
    rfl

/-! ### The obligations on exactness and on the width (R83, R96) -/

/-- Settles O35: a difference and a predecessor are exact because the success says the requirement was met. -/
theorem primitiveArithmeticIsExact : Obligations.PrimitiveArithmeticIsExact := by
  intro s t rd ra rb h ok
  refine ⟨fun hx => ?padd, fun hx => ?psub, fun hx => ?pmul, fun hx => ?pmuld, fun hx => ?pinc, fun hx => ?pdec⟩
  case padd => rw [nat_after_padd h ok hx, Function.update_self]
  case psub =>
    obtain ⟨le, nat⟩ := nat_after_psub h ok hx
    rw [nat, Function.update_self, Nat.sub_add_cancel le]
  case pmul => rw [nat_after_pmul h ok hx, Function.update_self]
  case pmuld => rw [nat_after_pmuld h ok hx, Function.update_self]
  case pinc => rw [nat_after_pinc h ok hx, Function.update_self]
  case pdec =>
    obtain ⟨pos, nat⟩ := nat_after_pdec h ok hx
    rw [nat, Function.update_self, Nat.sub_add_cancel pos]

/-- Settles O59: the numbers after a command that succeeds are a function of the numbers before it, the width aside. -/
theorem valuesDoNotDependOnTheWidth : Obligations.ValuesDoNotDependOnTheWidth := by
  intro s t s' t' i rd re ra rb hi hs ht equal hxs oks hxt okt r
  have same : s.nat = t.nat := funext equal
  suffices s'.nat = t'.nat from congrFun this r
  rcases hi with rfl | rfl | rfl | rfl | rfl | rfl | ⟨rfl, digit⟩
  · rw [nat_after_padd hs oks hxs, nat_after_padd ht okt hxt, same]
  · rw [(nat_after_psub hs oks hxs).2, (nat_after_psub ht okt hxt).2, same]
  · rw [nat_after_pmul hs oks hxs, nat_after_pmul ht okt hxt, same]
  · rw [nat_after_pdivrem hs oks hxs, nat_after_pdivrem ht okt hxt, same]
  · rw [nat_after_pinc hs oks hxs, nat_after_pinc ht okt hxt, same]
  · rw [(nat_after_pdec hs oks hxs).2, (nat_after_pdec ht okt hxt).2, same]
  · rw [nat_after_pmuld hs oks hxs, nat_after_pmuld ht okt hxt, digit, same]

end Sys2Proof.Machine

/-! ## Primitive tests, bitwise functions, shifts and rotates (41_primitives-test-bitwise-shift R100 to R121) -/

namespace Sys2Proof.Machine

/-! ### The two ways a command of this family ends: one truth value, or one magnitude (R81, R100) -/

section Endings

variable {i : Instr} {s : State}

/-- A test of a magnitude (R100). -/
theorem ends_of_writeTruth {b b' : Bool} (meaning : exec i s = writeTruth s b) (result : b = b') :
    Ends i s fun t => WroteTruth s t b' := by
  subst result
  unfold Ends
  rw [meaning]
  exact writeTruth_writes s b

/-- A command that writes a magnitude and cannot fail (R81). -/
theorem ends_of_writeMag {rd : Reg} {m m' : Digits} (meaning : exec i s = writeMag s rd m) (result : m = m') :
    Ends i s fun t => Wrote s t rd { neg := false, mag := m' } := by
  subst result
  unfold Ends
  rw [meaning]
  exact writeMag_writes s rd m

end Endings

/-! ### The parity and the boundary bits (R103 to R106) -/

section Parity

variable {w : DigitWidth} {a : Digits} (ha : digitsFit w a = true)

include ha

theorem not_lsd_testBit_zero : (!(lsd a 0).testBit 0) = decide (val w a % 2 = 0) := by
  simp [lsd_testBit_zero ha, ← decide_not]

/-- The empty sequence has no bit 0, and its value has none that is 1 (R106). -/
theorem bottomBit_eq : bottomBit a = (decide (0 < a.length) && (val w a).testBit 0) := by
  cases a with
  | nil => rfl
  | cons d t => simpa [bottomBit] using lsd_testBit_zero ha

theorem topBit_eq_testBit : topBit w a = (decide (0 < a.length) && (val w a).testBit (w.bits * a.length - 1)) := by
  cases a with
  | nil => rfl
  | cons d t => simpa [bufferBits] using topBit_eq ha

end Parity

/-! ### The bits that leave the buffer at the top (R112) -/

section Buffer

variable {w : DigitWidth}

/-- The digits hold the value modulo `2^N`. -/
theorem fromNat_mod_buffer (n v : Nat) : fromNat w n (v % 2 ^ (w.bits * n)) = fromNat w n v := by
  rw [← radix_pow, fromNat_mod]

theorem fromNat_mod_buffer_add (n u v : Nat) : fromNat w n (u % 2 ^ (w.bits * n) + v) = fromNat w n (u + v) :=
  fromNat_congr (by rw [← radix_pow, Nat.mod_add_mod])

theorem val_lt_buffer {a : Digits} (ha : digitsFit w a = true) : val w a < 2 ^ bufferBits w a := by
  rw [bufferBits, ← radix_pow]
  exact val_lt ha

theorem bufferBits_pos {a : Digits} (nonempty : a ≠ []) : 0 < bufferBits w a :=
  Nat.mul_pos (bits_pos w) (List.length_pos_iff.2 nonempty)

end Buffer

/-! ### Shifts by `n` bits are `n` shifts by one bit (R117) -/

section Shifts

variable {w : DigitWidth} {a : Digits}

theorem shl_succ (n : Nat) : shl w a (n + 1) = shl1 w (shl w a n) := by
  rw [shl_eq, shl_eq, shl1_eq (digitsFit_fromNat _ _ _), length_fromNat, val_fromNat]
  refine fromNat_congr ?_
  rw [Nat.mul_mod_mod, pow_succ, ← Nat.mul_assoc, Nat.mul_comm]

theorem shl_eq_iterate (ha : digitsFit w a = true) (n : Nat) : shl w a n = (shl1 w)^[n] a := by
  induction n with
  | zero => rw [shl_eq, pow_zero, Nat.mul_one, fromNat_val ha, Function.iterate_zero_apply]
  | succ n ih => rw [shl_succ, ih, Function.iterate_succ_apply']

theorem shr_succ (ha : digitsFit w a = true) (n : Nat) : shr w a (n + 1) = shr1 w (shr w a n) := by
  have fits : val w a / 2 ^ n < w.radix ^ a.length := (Nat.div_le_self _ _).trans_lt (val_lt ha)
  rw [shr_eq ha, shr_eq ha, shr1_eq (digitsFit_fromNat _ _ _), length_fromNat, val_fromNat, Nat.mod_eq_of_lt fits,
    pow_succ, Nat.div_div_eq_div_mul]

theorem shr_eq_iterate (ha : digitsFit w a = true) (n : Nat) : shr w a n = (shr1 w)^[n] a := by
  induction n with
  | zero => rw [shr_eq ha, pow_zero, Nat.div_one, fromNat_val ha, Function.iterate_zero_apply]
  | succ n ih => rw [shr_succ ha, ih, Function.iterate_succ_apply']

end Shifts

/-! ### Rotates by `n` bits are `n` rotates by one bit (R117) -/

/-- The low `k` bits of `v` put above the bits over them, of which there are `m`: `v` rotated left by `m` of its `k + m`
bits (R117). -/
def swapParts (k m v : Nat) : Nat := 2 ^ m * (v % 2 ^ k) + v / 2 ^ k

/-- A whole turn. -/
theorem swapParts_zero_left (m v : Nat) : swapParts 0 m v = v := by
  simp [swapParts, Nat.mod_one]

/-- `k` bits put above a number of `m` bits. -/
theorem above_lt {k m h : Nat} (l : Nat) (hh : h < 2 ^ m) : 2 ^ m * (l % 2 ^ k) + h < 2 ^ (k + m) := by
  rw [pow_add]
  exact Nat.mul_add_lt_mul_of_lt_of_lt (Nat.mod_lt _ (Nat.two_pow_pos k)) hh

theorem swapParts_lt {k m v : Nat} (h : v < 2 ^ (k + m)) : swapParts k m v < 2 ^ (k + m) :=
  above_lt v (Nat.div_lt_of_lt_mul (by rwa [← pow_add]))

/-- The top bit of the lower part stands at the top. -/
theorem swapParts_succ_left (k m v : Nat) :
    swapParts (k + 1) m v = 2 ^ (k + m) * (v / 2 ^ k % 2) + (2 ^ m * (v % 2 ^ k) + v / 2 ^ k / 2) := by
  rw [swapParts, Nat.mod_pow_succ, pow_succ, ← Nat.div_div_eq_div_mul, pow_add]
  ring

/-- Rotating by one more bit moves the top bit to bit 0. -/
theorem swapParts_succ_right {k m v : Nat} (h : v < 2 ^ (k + m + 1)) :
    2 * swapParts (k + 1) m v % 2 ^ (k + m + 1) + swapParts (k + 1) m v / 2 ^ (k + m) = swapParts k (m + 1) v := by
  have high : v / 2 ^ k / 2 < 2 ^ m := by
    rw [Nat.div_div_eq_div_mul, ← pow_succ]
    exact Nat.div_lt_of_lt_mul (by rwa [← pow_add, Nat.add_right_comm])
  have rest := above_lt (k := k) v high
  have top : swapParts (k + 1) m v / 2 ^ (k + m) = v / 2 ^ k % 2 := by
    rw [swapParts_succ_left, Nat.mul_add_div (Nat.two_pow_pos _), Nat.div_eq_of_lt rest, Nat.add_zero]
  have low : swapParts (k + 1) m v % 2 ^ (k + m) = 2 ^ m * (v % 2 ^ k) + v / 2 ^ k / 2 := by
    rw [swapParts_succ_left, Nat.mul_add_mod, Nat.mod_eq_of_lt rest]
  calc 2 * swapParts (k + 1) m v % 2 ^ (k + m + 1) + swapParts (k + 1) m v / 2 ^ (k + m)
      = 2 * (2 ^ m * (v % 2 ^ k) + v / 2 ^ k / 2) + v / 2 ^ k % 2 := by
        rw [pow_succ', Nat.mul_mod_mul_left, top, low]
    _ = 2 ^ (m + 1) * (v % 2 ^ k) + (2 * (v / 2 ^ k / 2) + v / 2 ^ k % 2) := by ring
    _ = swapParts k (m + 1) v := by rw [Nat.div_add_mod, swapParts]

section Rotates

variable {w : DigitWidth} {a : Digits}

@[simp] theorem rol1_nil : rol1 w [] = [] := rfl

@[simp] theorem ror1_nil : ror1 w [] = [] := rfl

theorem digitsFit_rol (a : Digits) (n : Nat) : digitsFit w (rol w a n) = true := by
  rw [rol]
  split
  · rfl
  · exact digitsFit_fromNat _ _ _

variable (ha : digitsFit w a = true)

include ha

theorem digitsFit_rol1 : digitsFit w (rol1 w a) = true := by
  rw [rol1_eq ha]
  exact digitsFit_fromNat _ _ _

/-- The closed form depends on the count modulo the width of the buffer; a whole turn is no turn. -/
theorem rol_eq_swapParts (nonempty : a ≠ []) {n k m : Nat} (parts : k + m = bufferBits w a)
    (count : n % bufferBits w a = m % bufferBits w a) : rol w a n = fromNat w a.length (swapParts k m (val w a)) := by
  have lt := val_lt_buffer ha
  rw [rol, if_neg (by simpa using nonempty), count]
  cases k with
  | zero =>
    rw [Nat.zero_add] at parts
    rw [parts, Nat.mod_self, Nat.sub_zero, Nat.div_eq_of_lt lt, pow_zero, Nat.mul_one, Nat.add_zero,
      swapParts_zero_left]
  | succ k =>
    rw [Nat.mod_eq_of_lt (by omega), ← parts, Nat.add_sub_cancel]
    refine fromNat_congr ?_
    rw [swapParts, ← Nat.mod_add_mod, radix_pow, ← bufferBits, ← parts, pow_add, Nat.mul_mod_mul_right,
      Nat.mul_comm (2 ^ m)]

theorem rol_of_whole_turns (nonempty : a ≠ []) {n : Nat} (turns : n % bufferBits w a = 0) : rol w a n = a := by
  rw [rol_eq_swapParts ha nonempty (Nat.zero_add _) (turns.trans (Nat.mod_self _).symm), swapParts_zero_left,
    fromNat_val ha]

theorem rol_succ (nonempty : a ≠ []) (n : Nat) : rol w a (n + 1) = rol1 w (rol w a n) := by
  obtain ⟨k, hk⟩ := Nat.exists_eq_add_of_lt (Nat.mod_lt n (bufferBits_pos (w := w) nonempty))
  set m := n % bufferBits w a
  have parts : bufferBits w a = k + 1 + m := by omega
  have lt : val w a < 2 ^ (k + 1 + m) := parts ▸ val_lt_buffer ha
  have now : rol w a n = fromNat w a.length (swapParts (k + 1) m (val w a)) :=
    rol_eq_swapParts ha nonempty parts.symm (Nat.mod_mod _ _).symm
  have next : rol w a (n + 1) = fromNat w a.length (swapParts k (m + 1) (val w a)) :=
    rol_eq_swapParts ha nonempty (by omega) (Nat.mod_add_mod _ _ _).symm
  have value : val w (rol w a n) = swapParts (k + 1) m (val w a) := by
    rw [now, val_fromNat, radix_pow, ← bufferBits, parts, Nat.mod_eq_of_lt (swapParts_lt lt)]
  have fit : digitsFit w (rol w a n) = true := now ▸ digitsFit_fromNat _ _ _
  have length : (rol w a n).length = a.length := by rw [now, length_fromNat]
  have width : bufferBits w (rol w a n) = k + m + 1 := by rw [bufferBits, length, ← bufferBits]; omega
  rw [next, rol1_eq fit, ← fromNat_mod_buffer_add, ← bufferBits, width, value, length, Nat.add_sub_cancel,
    swapParts_succ_right (by rwa [Nat.add_right_comm])]

theorem rol_eq_iterate (n : Nat) : rol w a n = (rol1 w)^[n] a := by
  rcases eq_or_ne a [] with rfl | nonempty
  · exact (Function.iterate_fixed rol1_nil n).symm
  induction n with
  | zero => exact rol_of_whole_turns ha nonempty (Nat.zero_mod _)
  | succ n ih => rw [rol_succ ha nonempty, ih, Function.iterate_succ_apply']

/-- One rotate to the right undoes one to the left. -/
theorem ror1_rol1 : ror1 w (rol1 w a) = a := by
  rcases eq_or_ne a [] with rfl | nonempty
  · rfl
  obtain ⟨n, hn⟩ := Nat.exists_eq_add_one.2 (bufferBits_pos (w := w) nonempty)
  have length : (rol1 w a).length = a.length := by rw [rol1_eq ha, length_fromNat]
  have width : bufferBits w (rol1 w a) = n + 1 := by rw [bufferBits, length, ← bufferBits, hn]
  have top : val w a / 2 ^ n < 2 := Nat.div_lt_of_lt_mul (by rw [← pow_succ, ← hn]; exact val_lt_buffer ha)
  have low : val w a % 2 ^ n < 2 ^ n := Nat.mod_lt _ (Nat.two_pow_pos n)
  have value : val w (rol1 w a) = 2 * (val w a % 2 ^ n) + val w a / 2 ^ n := by
    rw [rol1_eq ha, ← fromNat_mod_buffer_add, val_fromNat, radix_pow, ← bufferBits, hn, Nat.add_sub_cancel,
      pow_succ', Nat.mul_mod_mul_left, Nat.mod_eq_of_lt (by omega)]
  have half : val w (rol1 w a) / 2 = val w a % 2 ^ n := by
    rw [value, Nat.mul_add_div Nat.two_pos, Nat.div_eq_of_lt top, Nat.add_zero]
  have bit : val w (rol1 w a) % 2 = val w a / 2 ^ n := by rw [value, Nat.mul_add_mod, Nat.mod_eq_of_lt top]
  rw [ror1_eq (digitsFit_rol1 ha), half, bit, width, length, Nat.add_sub_cancel, Nat.mod_add_div', fromNat_val ha]

theorem ror1_iterate_rol1_iterate (n : Nat) : (ror1 w)^[n] ((rol1 w)^[n] a) = a := by
  induction n generalizing a with
  | zero => rfl
  | succ n ih => rw [Function.iterate_succ_apply', Function.iterate_succ_apply, ih (digitsFit_rol1 ha), ror1_rol1 ha]

/-- The counts of a rotate to the right and of the rotate to the left that R117 puts in its place add up to whole
turns. -/
theorem ror_eq_iterate (n : Nat) : ror w a n = (ror1 w)^[n] a := by
  rcases eq_or_ne a [] with rfl | nonempty
  · exact (Function.iterate_fixed ror1_nil n).symm
  set k := (bufferBits w a - n % bufferBits w a) % bufferBits w a with hk
  have turns : (n + k) % bufferBits w a = 0 := by
    rw [hk, Nat.add_mod_mod, ← Nat.mod_add_mod, Nat.add_sub_cancel' (Nat.mod_lt _ (bufferBits_pos nonempty)).le,
      Nat.mod_self]
  have back : (rol1 w)^[n + k] a = a := by rw [← rol_eq_iterate ha, rol_of_whole_turns ha nonempty turns]
  calc ror w a n = rol w a k := by rw [ror, if_neg (by simpa using nonempty)]
    _ = (ror1 w)^[n] ((rol1 w)^[n] (rol w a k)) := (ror1_iterate_rol1_iterate (digitsFit_rol a k) n).symm
    _ = (ror1 w)^[n] a := by rw [rol_eq_iterate ha, ← Function.iterate_add_apply, back]

end Rotates

/-! ### The obligations -/

/-- Settles O40: a test reads the value, or its parity in the least significant digit. -/
theorem zeroOneAndParityTests : Obligations.ZeroOneAndParityTests :=
  fun _ ra h => ⟨⟨rfl, rfl, rfl, rfl⟩, ends_of_writeTruth rfl (isZero_eq _ _),
    ends_of_writeTruth rfl (Bool.beq_eq_decide_eq _ _), ends_of_writeTruth rfl (not_lsd_testBit_zero (h ra)),
    ends_of_writeTruth rfl (lsd_testBit_zero (h ra))⟩

/-- Settles O41. -/
theorem boundaryBitProbes : Obligations.BoundaryBitProbes :=
  fun _ ra h => ⟨⟨rfl, rfl⟩, ends_of_writeTruth rfl (topBit_eq_testBit (h ra)),
    ends_of_writeTruth rfl (bottomBit_eq (h ra))⟩

/-- Settles O42: a bitwise function of the digits is the function of the values. -/
theorem bitwiseOnMagnitudes : Obligations.BitwiseOnMagnitudes :=
  fun _ _ ra rb h => ⟨⟨rfl, rfl, rfl, rfl⟩, ends_of_writeMag rfl (bitop_eq land_bitByBit (h ra) (h rb)),
    ends_of_writeMag rfl (bitop_eq lor_bitByBit (h ra) (h rb)),
    ends_of_writeMag rfl (bitop_eq xor_bitByBit (h ra) (h rb)), ends_of_writeMag rfl (bitnot_eq (h ra))⟩

/-- Settles O43: what a left shift or rotate loses at the top is the value's part above `2^N`. -/
theorem oneBitShiftsAndRotates : Obligations.OneBitShiftsAndRotates := by
  intro s rd ra h
  refine ⟨⟨rfl, rfl, rfl, rfl⟩, ends_of_writeMag rfl ?_, ends_of_writeMag rfl (shr1_eq (h ra)),
    ends_of_writeMag rfl ?_, ends_of_writeMag rfl (ror1_eq (h ra))⟩
  · rw [fromNat_mod_buffer]
    exact shl1_eq (h ra)
  · rw [fromNat_mod_buffer_add]
    exact rol1_eq (h ra)

/-- Settles O44: a shift or a rotate to the left by `n + 1` bits is one by one bit after one by `n` bits; rotates to the
right undo rotates to the left. -/
theorem nBitShiftsRepeatOneBit : Obligations.NBitShiftsRepeatOneBit :=
  fun _ _ ra _ h => ⟨⟨rfl, rfl, rfl, rfl⟩, ends_of_writeMag rfl (shl_eq_iterate (h ra) _),
    ends_of_writeMag rfl (shr_eq_iterate (h ra) _), ends_of_writeMag rfl (rol_eq_iterate (h ra) _),
    ends_of_writeMag rfl (ror_eq_iterate (h ra) _)⟩

end Sys2Proof.Machine

/-! ## Division (42_division R130 to R139) -/

namespace Sys2Proof.Machine

/-! ### The engine gives the quotient no leading zero (R136, R138) -/

section Quotient

variable {w : DigitWidth} {a b : Digits}

/-- A window that is not less than the divisor gives a quotient digit that is not 0 (R135). -/
theorem searchDigit_ne_zero {x : Digits} (hx : digitsFit w x = true) (hb : digitsFit w b = true)
    (h : val w x < w.radix * val w b) (le : val w b ≤ val w x) : searchDigit w x b ≠ 0 := by
  intro zero
  obtain ⟨-, upper⟩ := searchDigit_spec hx hb h
  rw [zero, Nat.zero_add, Nat.one_mul] at upper
  omega

/-- A loop that begins with a window not less than the divisor, which it does not widen, emits a first digit that is
not 0. -/
theorem strip_divLoop_quotient {n : Nat} {y : Window} (ready : y.Below w (w.radix * val w b) n)
    (hb : digitsFit w b = true) (le : val w b ≤ val w y.window) :
    strip (divLoop w b (n + 1) y).1 = (divLoop w b (n + 1) y).1 := by
  obtain ⟨fitWindow, -⟩ := digitsFit_append.1 ready.fit
  rw [divLoop, Window.extend_of_le fitWindow hb le]
  exact strip_cons_pos _ (searchDigit_ne_zero fitWindow hb ready.lt le)

/-- A dividend that is not less fills a first window of the divisor's length (R133). -/
theorem Window.first_length (ha : digitsFit w a = true) (sa : strip a = a) (sb : strip b = b)
    (le : val w b ≤ val w a) : (Window.first a b).window.length = b.length := by
  refine List.length_take_of_le ?_
  by_contra longer
  exact (val_lt_of_eff_lt ha (by rw [eff, eff, sa, sb]; omega)).not_ge le

/-- The set-up has already widened a first window that is less than the divisor, so that no quotient digit is emitted
before the first that is not 0 (R133 step 4). -/
theorem strip_longDivision_quotient (ha : digitsFit w a = true) (hb : digitsFit w b = true) (sa : strip a = a)
    (sb : strip b = b) (pos : 0 < val w b) (le : val w b ≤ val w a) :
    strip (longDivision w a b).1 = (longDivision w a b).1 := by
  have len := Window.first_length ha sa sb le
  have digits : (Window.first a b).digits = a := List.take_append_drop _ _
  rw [← digits] at ha sa le
  obtain ⟨n, turns, ready⟩ := Window.extend_ready ha hb sb pos len le
  rw [longDivision_eq turns]
  exact strip_divLoop_quotient ready hb (Window.le_extend ha hb sa len le)

theorem strip_divRem_quotient (ha : digitsFit w a = true) (hb : digitsFit w b = true) (pos : 0 < val w b) :
    strip (divRem w a b).1 = (divRem w a b).1 := by
  have fa := digitsFit_strip ha
  have fb := digitsFit_strip hb
  simp only [divRem, compareMag_lt_iff fa fb]
  split
  case isTrue => rfl
  case isFalse notLess =>
    exact strip_longDivision_quotient fa fb (strip_strip a) (strip_strip b) (by rwa [val_strip])
      (Nat.le_of_not_lt notLess)

/-- The digits of both results follow from their values, their lengths, and the quotient's first digit (R137). -/
theorem divRem_eq (ha : digitsFit w a = true) (hb : digitsFit w b = true) (nonzero : val w b ≠ 0) :
    divRem w a b = (strip (fromNat w a.length (val w a / val w b)), fromNat w (eff b) (val w a % val w b)) := by
  have pos := Nat.pos_of_ne_zero nonzero
  obtain ⟨quotient, remainder⟩ := (divRem_divides ha hb pos).eq_div_mod
  have short := divRem_quotient_length_le (w := w) a (eq_false_of_ne_true (mt isZero_iff.1 nonzero))
  have fits : val w a % val w b < w.radix ^ eff b := (Nat.mod_lt _ pos).trans (val_lt_eff hb)
  refine Prod.ext ?_ ?_
  · exact eq_strip_fromNat (divRem_quotient_fit a b) short quotient (strip_divRem_quotient ha hb pos)
  · exact eq_fromNat (divRem_remainder_fit ha hb) (divRem_remainder_length a b)
      (remainder.trans (Nat.mod_eq_of_lt fits).symm)

end Quotient

/-! ### The obligations -/

/-- Settles O36: the bisection keeps its bounds, and `W` passes bring them together. -/
theorem searchFindsTheQuotientDigit : Obligations.SearchFindsTheQuotientDigit :=
  fun _ x b hx hb h => ⟨searchDigit_lt x b, searchDigit_spec hx hb h⟩

/-- Settles O37: the engine divides in values, and its quotient begins with a digit that is not 0. -/
theorem divisionEngineMeetsItsClosedForm : Obligations.DivisionEngineMeetsItsClosedForm :=
  fun _ _ _ ha hb nonzero => divRem_eq ha hb nonzero

/-- Settles O38: the command writes the two halves of the engine's result, which have their closed form once the
divisor is known not to be zero. -/
theorem pdivremDivides : Obligations.PdivremDivides := by
  intro s rd re ra rb h
  refine ⟨rfl, ?_⟩
  have ends := ends_pdivrem s rd re ra rb
  have zero_iff : isZero (s.mag rb) = true ↔ s.nat rb = 0 := isZero_iff
  simp only [zero_iff] at ends
  by_cases zero : s.nat rb = 0
  · simpa only [zero, if_true] using ends
  · rw [divRem_eq (h ra) (h rb) zero] at ends
    exact ends

end Sys2Proof.Machine

/-! ## Loading, copying and reading a value (43_value-construction R147 to R152) -/

namespace Sys2Proof.Machine

/-! ### How these commands end -/

/-- A command that tests the capacity first, whatever it does when its result fits (R224). -/
theorem ends_of_capacity {i : Instr} {s : State} {n : Nat} {k : Result} {P : State → Prop}
    (meaning : exec i s = ifFits s n k) (within : ∃ t, k = .next t ∧ P t) :
    if s.fits n then Ends i s P else Ends i s fun t => Raised s t .capacityExceeded := by
  unfold Ends
  rw [meaning]
  split
  case isTrue fits => rwa [ifFits_of_fits fits]
  case isFalse full =>
    rw [ifFits_of_not_fits (eq_false_of_ne_true full)]
    exact fail_raises s _

/-- The success sequence alone writes nothing but `ERR` and the response (R28, R62). -/
theorem complete_writes_nothing (s : State) (v : Option Value) : WroteNothing s (s.complete v) v :=
  ⟨complete_succeeds _ _ _ rfl rfl rfl rfl, State.complete_truth _ _, State.complete_cmp _ _, State.complete_reg _ _⟩

/-! ### What LDD does with its payload (R147, R148) -/

section Payload

variable {s : State} {p : Digits} (rd : Reg) (neg : Bool)

/-- A payload that a port can carry goes to the normaliser once it fits a register. -/
theorem exec_ldd_of_digitsFit (h : digitsFit s.cfg.width p = true) :
    exec (.ldd rd neg p) s = ifFits s p.length (writeValue s rd { neg := neg, mag := p }) :=
  if_pos h

/-- Any other payload stops the model (log entry 5). -/
theorem exec_ldd_of_not_digitsFit (h : digitsFit s.cfg.width p = false) :
    exec (.ldd rd neg p) s = .fault .payloadNotDigits :=
  if_neg (ne_true_of_eq_false h)

end Payload

/-! ### The digits of an immediate (R44, R149) -/

section Immediate

variable {w : DigitWidth} {v : Nat}

theorem fromNat_one (h : v < w.radix) : fromNat w 1 v = [v] := by
  have digits : fromNat w 1 v = [v % w.radix] := rfl
  rw [digits, Nat.mod_eq_of_lt h]

theorem fromNat_two (h : v < w.radix * w.radix) : fromNat w 2 v = [v / w.radix, v % w.radix] := by
  have digits : fromNat w 2 v = [v / w.radix % w.radix, v % w.radix] := rfl
  rw [digits, Nat.mod_eq_of_lt (Nat.div_lt_of_lt_mul h)]

/-- Sixteen bits are two digits of eight bits, and one digit of sixteen or of thirty-two. -/
theorem digitsOfUint_sixteen (h : v < 2 ^ 16) :
    digitsOfUint w v 16 = if w = .w8 then [v / 256, v % 256] else [v] := by
  cases w
  case w8 => exact fromNat_two h
  case w16 => exact fromNat_one h
  case w32 => exact fromNat_one (h.trans (by decide))

end Immediate

/-! ### The obligations -/

/-- Settles O23: what fits a register is written through the normaliser, which clears the sign of a zero. -/
theorem lddLoadsThroughTheNormaliser : Obligations.LddLoadsThroughTheNormaliser := by
  refine fun s rd neg p => ⟨rfl, fun fit => ?_⟩
  rw [← normalise_eq]
  exact ends_of_capacity (exec_ldd_of_digitsFit rd neg fit) (writeValue_writes s rd _)

/-- Settles O22. -/
theorem nopOnlyClearsErr : Obligations.NopOnlyClearsErr :=
  ⟨rfl, finish_writes_nothing⟩

/-- Settles O24. -/
theorem lddStopsOnAPayloadNoPortCarries : Obligations.LddStopsOnAPayloadNoPortCarries :=
  fun _ rd neg _ => exec_ldd_of_not_digitsFit rd neg

/-- Settles O25. -/
theorem ldiLoadsTheImmediate : Obligations.LdiLoadsTheImmediate :=
  fun _ _ imm => ⟨rfl, ends_of_writeMag rfl (digitsOfUint_sixteen imm.isLt)⟩

/-- Settles O26. -/
theorem movCopies : Obligations.MovCopies :=
  fun s rd ra => ⟨rfl, finish_setReg_writes s rd (s.reg ra)⟩

/-- Settles O27. -/
theorem rdvReadsOut : Obligations.RdvReadsOut :=
  fun s ra => ⟨rfl, _, rfl, complete_writes_nothing s (some (s.reg ra))⟩

end Sys2Proof.Machine

/-! ## Value arithmetic (44_value-arith R160 to R173) -/

namespace Sys2Proof.Machine

/-! ### How these commands end -/

section Endings

variable {i : Instr} {s t : State} {rd : Reg} {p c : Prop} [Decidable p] [Decidable c]

/-- A command that refuses its operands with `e` when `c` says so, whatever it does with the others (R221, R222). -/
theorem ends_of_refusal {e : Error} {k : Result} {P : State → Prop}
    (meaning : exec i s = if p then fail s e else k) (refused : p ↔ c)
    (accepted : ¬ c → ∃ t, k = .next t ∧ P t) :
    if c then Ends i s fun t => Raised s t e else Ends i s P := by
  unfold Ends
  rw [meaning]
  split
  case isTrue hc =>
    rw [if_pos (refused.2 hc)]
    exact fail_raises s e
  case isFalse hc =>
    rw [if_neg (mt refused.1 hc)]
    exact accepted hc

/-- A command that tests the capacity only when its result has a digit more, which `c` says (R163, R164, R170). -/
theorem ends_of_growth {n : Nat} {v grown kept : Value}
    (meaning : exec i s = if p then ifFits s n (writeValue s rd v) else writeValue s rd v) (grows : p ↔ c)
    (long : c → normalise v = grown) (short : ¬ c → normalise v = kept) :
    if c then
      if s.fits n then Ends i s fun t => Wrote s t rd grown else Ends i s fun t => Raised s t .capacityExceeded
    else Ends i s fun t => Wrote s t rd kept := by
  split
  case isTrue hc =>
    rw [if_pos (grows.2 hc)] at meaning
    exact ends_of_capacity meaning (long hc ▸ writeValue_writes s rd v)
  case isFalse hc =>
    rw [if_neg (mt grows.1 hc)] at meaning
    unfold Ends
    rw [meaning]
    exact short hc ▸ writeValue_writes s rd v

/-- Such a command writes the value it computes, grown or not, when it ends without error. -/
theorem wrote_of_growth {n : Nat} {v : Value}
    (meaning : exec i s = if p then ifFits s n (writeValue s rd v) else writeValue s rd v)
    (hx : exec i s = .next t) (ok : t.err = 0#3) : Wrote s t rd (normalise v) := by
  have ends := ends_of_growth meaning Iff.rfl (fun _ => rfl) (fun _ => rfl)
  split at ends
  · exact of_success_of_fits ends hx ok
  · exact ends.of_exec hx

end Endings

/-! ### The normaliser keeps the number (R11, R145) -/

section Normaliser

variable {w : DigitWidth} {v : Value}

@[simp] theorem normalise_mag (v : Value) : (normalise v).mag = v.mag := by
  unfold normalise
  split <;> rfl

theorem normalise_neg_of_isZero (zero : isZero (normalise v).mag = true) : (normalise v).neg = false := by
  rw [normalise_mag] at zero
  rw [normalise, if_pos zero]

/-- A value is its number in as many digits as it has, but for the sign of a zero. -/
theorem normalise_eq_ofInt (fit : digitsFit w v.mag = true) : normalise v = ofInt w v.mag.length (sval w v) := by
  obtain ⟨neg, mag⟩ := v
  rw [normalise_eq w, ofInt, natAbs_sval, fromNat_val fit]
  have sign : (neg && decide (val w mag ≠ 0)) = decide (sval w { neg := neg, mag := mag } < 0) := by
    cases neg <;> simp [sval, Nat.pos_iff_ne_zero]
  rw [sign]

theorem sval_normalise (w : DigitWidth) (v : Value) : sval w (normalise v) = sval w v := by
  unfold normalise
  split
  case isTrue zero => simp [sval, (isZero_iff (w := w)).1 zero]
  case isFalse => rfl

theorem abs_sval (w : DigitWidth) (v : Value) : |sval w v| = val w v.mag := by
  rw [Int.abs_eq_natAbs, natAbs_sval]

end Normaliser

/-! ### Sum and product in closed form (R162, R165) -/

section SumAndProduct

variable {w : DigitWidth} {x y : Value}

theorem sameSign_iff : sameSign x y = true ↔ x.neg = y.neg := beq_iff_eq

theorem length_vadd (w : DigitWidth) (x y : Value) : (vadd w x y).mag.length =
    if x.neg = y.neg then max x.mag.length y.mag.length + 1 else max x.mag.length y.mag.length := by
  simp only [vadd, sameSign_iff]
  split_ifs
  · simp [add_eq]
  · simp [max_comm]
  · simp

variable (hx : digitsFit w x.mag = true) (hy : digitsFit w y.mag = true)

include hx hy

theorem digitsFit_vadd : digitsFit w (vadd w x y).mag = true := by
  unfold vadd
  split_ifs
  · rw [add_eq]
    exact digitsFit_fromNat _ _ _
  · exact digitsFit_sub_fn hy hx
  · exact digitsFit_sub_fn hx hy

/-- The three cases of `vadd` add the signed numbers: the smaller magnitude is taken from the greater (R162). -/
theorem sval_vadd : sval w (vadd w x y) = sval w x + sval w y := by
  simp only [vadd, sameSign_iff, compareMag_lt_iff hx hy]
  split_ifs with same less
  · simp only [sval, val_add hx hy, ← same]
    split <;> omega
  · simp only [sval, val_sub hy hx less.le, Bool.eq_not.2 same]
    cases y.neg <;> simp <;> omega
  · simp only [sval, val_sub hx hy (Nat.le_of_not_lt less), Bool.eq_not.2 same]
    cases y.neg <;> simp <;> omega

/-- Matching signs: one digit more than the longer operand. -/
theorem normalise_vadd_of_eq (same : x.neg = y.neg) :
    normalise (vadd w x y) = ofInt w (max x.mag.length y.mag.length + 1) (sval w x + sval w y) := by
  rw [normalise_eq_ofInt (digitsFit_vadd hx hy), sval_vadd hx hy, length_vadd, if_pos same]

/-- Different signs: as many digits as the longer operand. -/
theorem normalise_vadd_of_ne (differ : x.neg ≠ y.neg) :
    normalise (vadd w x y) = ofInt w (max x.mag.length y.mag.length) (sval w x + sval w y) := by
  rw [normalise_eq_ofInt (digitsFit_vadd hx hy), sval_vadd hx hy, length_vadd, if_neg differ]

theorem normalise_vmul :
    normalise (vmul w x y) = ofInt w (x.mag.length + y.mag.length) (sval w x * sval w y) := by
  have fits : val w x.mag * val w y.mag < w.radix ^ (x.mag.length + y.mag.length) := by
    rw [pow_add]
    exact Nat.mul_lt_mul'' (val_lt hx) (val_lt hy)
  rw [vmul, mul_eq hx hy, normalise_fromNat _ fits, signedDigits_eq_ofInt]
  congr 1
  cases hxn : x.neg <;> cases hyn : y.neg <;> simp [sval, hxn, hyn]

end SumAndProduct

/-! ### Quotient and remainder in closed form (R166) -/

section Quotient

variable {w : DigitWidth} {x y : Value} (hx : digitsFit w x.mag = true) (hy : digitsFit w y.mag = true)
  (nonzero : val w y.mag ≠ 0)

include hx hy nonzero

theorem normalise_vquot : normalise (vquot w x y) =
    { neg := (x.neg ^^ y.neg) && decide (val w x.mag / val w y.mag ≠ 0),
      mag := strip (fromNat w x.mag.length (val w x.mag / val w y.mag)) } := by
  have fits : val w x.mag / val w y.mag < w.radix ^ x.mag.length := (Nat.div_le_self _ _).trans_lt (val_lt hx)
  rw [vquot, divRem_eq hx hy nonzero, normalise_eq w, val_strip, val_fromNat, Nat.mod_eq_of_lt fits]

theorem normalise_vrem : normalise (vrem w x y) =
    signedDigits w (x.neg ^^ y.neg) (eff y.mag) (val w x.mag % val w y.mag) := by
  have fits : val w x.mag % val w y.mag < w.radix ^ eff y.mag :=
    (Nat.mod_lt _ (Nat.pos_of_ne_zero nonzero)).trans (val_lt_eff hy)
  rw [vrem, divRem_eq hx hy nonzero, normalise_fromNat _ fits]

/-- On magnitudes the division law always holds (R173). -/
theorem abs_vquot_vrem :
    |sval w (vquot w x y)| * |sval w y| + |sval w (vrem w x y)| = |sval w x| ∧
      |sval w (vrem w x y)| < |sval w y| := by
  obtain ⟨sum, lt⟩ := divRem_divides hx hy (Nat.pos_of_ne_zero nonzero)
  simp only [abs_sval]
  exact ⟨by exact_mod_cast sum, by exact_mod_cast lt⟩

/-- The remainder has the sign that the law wants when the divisor is not negative, and the other one when it is: then
twice the remainder is missing (R173). -/
theorem sval_vquot_vrem :
    sval w (vquot w x y) * sval w y + sval w (vrem w x y) =
      if 0 ≤ sval w y ∨ sval w (vrem w x y) = 0 then sval w x
      else sval w x - 2 * (if sval w x < 0 then -1 else 1) * |sval w (vrem w x y)| := by
  obtain ⟨xneg, a⟩ := x
  obtain ⟨yneg, b⟩ := y
  have pos : 0 < val w b := Nat.pos_of_ne_zero nonzero
  have law : (val w (divRem w a b).1 : Int) * val w b + val w (divRem w a b).2 = val w a := by
    exact_mod_cast (divRem_divides hx hy pos).1
  have product : (0 : Int) ≤ val w (divRem w a b).1 * val w b := by positivity
  rw [abs_sval]
  simp only [sval, vquot, vrem]
  cases yneg
  case false =>
    have notBelow : (0 : Int) ≤ val w b := Int.natCast_nonneg _
    cases xneg <;> simp [notBelow] <;> omega
  case true =>
    have below : ¬ (0 : Int) ≤ -val w b := by omega
    cases xneg <;> simp only [below, Bool.xor_true, Bool.not_true, Bool.not_false, Bool.false_eq_true, if_true,
      if_false, false_or, neg_mul, mul_neg, neg_neg] <;> split_ifs <;> omega

end Quotient

/-! ### Increment and decrement in closed form (R170, R171) -/

section Increment

variable {w : DigitWidth} {a : Digits} (ha : digitsFit w a = true)

include ha

/-- A full magnitude grows by a digit: 1 and then zeros. -/
theorem incGrow_of_full (full : val w a + 1 = w.radix ^ a.length) :
    incGrow w a = fromNat w (a.length + 1) (val w a + 1) := by
  rw [incGrow, if_pos ((isFull_iff ha).2 full)]
  refine eq_fromNat (digitsFit_cons.2 ⟨one_lt_radix w, digitsFit_zeros w _⟩) (by simp) ?_
  rw [val_cons, val_zeros, length_zeros, full, Nat.one_mul, Nat.add_zero,
    Nat.mod_eq_of_lt (Nat.pow_lt_pow_succ (one_lt_radix w))]

theorem incGrow_of_not_full (notFull : val w a + 1 ≠ w.radix ^ a.length) :
    incGrow w a = fromNat w a.length (val w a + 1) := by
  have hf := mt (isFull_iff ha).1 notFull
  rw [incGrow, if_neg hf, inc_eq ha (eq_false_of_ne_true hf)]

end Increment

/-- A magnitude that is not zero keeps its sign. -/
theorem normalise_fromNat_succ {w : DigitWidth} (neg : Bool) {n v : Nat} (h : v + 1 < w.radix ^ n) :
    normalise { neg := neg, mag := fromNat w n (v + 1) } = { neg := neg, mag := fromNat w n (v + 1) } := by
  rw [normalise_fromNat neg h, signedDigits, decide_eq_true v.succ_ne_zero, Bool.and_true]

/-! ### VDIVREM (R169) -/

/-- `VDIVREM` in the terms of its meaning: equal destinations, a zero divisor, or both halves written (R169). -/
theorem ends_vdivrem (s : State) (rd re ra rb : Reg) :
    if rd = re then Ends (.vdivrem rd re ra rb) s fun t => Raised s t .illegalCommand
    else if s.nat rb = 0 then Ends (.vdivrem rd re ra rb) s fun t => Raised s t .divisionByZero
    else
      Ends (.vdivrem rd re ra rb) s fun t =>
        WroteBoth s t rd (normalise (vquot s.cfg.width (s.reg ra) (s.reg rb)))
          re (normalise (vrem s.cfg.width (s.reg ra) (s.reg rb))) := by
  split
  case isTrue same =>
    unfold Ends
    rw [show exec (.vdivrem rd re ra rb) s = fail s .illegalCommand from if_pos same]
    exact fail_raises s _
  case isFalse differ =>
    exact ends_of_refusal (if_neg differ) isZero_iff fun _ => writeValues_writes s rd _ re _

/-! ### The obligations on one command each -/

/-- Settles O45: the capacity is tested when the signs match. -/
theorem vaddAddsExactly : Obligations.VaddAddsExactly :=
  fun _ _ ra rb h => ⟨rfl, ends_of_growth rfl sameSign_iff (normalise_vadd_of_eq (h ra) (h rb))
    (normalise_vadd_of_ne (h ra) (h rb))⟩

/-- Settles O46: the subtraction is the addition of the negation, and the signs match when they differed. -/
theorem vsubSubtractsExactly : Obligations.VsubSubtractsExactly := by
  intro s rd ra rb h
  have negated : s.num ra - s.num rb = sval s.cfg.width (s.reg ra) + sval s.cfg.width (flipSign (s.reg rb)) := by
    rw [sval_flipSign, ← sub_eq_add_neg]
    rfl
  have signs : (s.reg ra).neg = (flipSign (s.reg rb)).neg ↔ (s.reg ra).neg ≠ (s.reg rb).neg := Bool.eq_not
  rw [negated]
  exact ⟨rfl, ends_of_growth rfl (sameSign_iff.trans signs)
    (fun differ => normalise_vadd_of_eq (h ra) (h rb) (signs.2 differ))
    (fun same => normalise_vadd_of_ne (h ra) (h rb) (mt signs.1 same))⟩

/-- Settles O47. -/
theorem vmulMultipliesExactly : Obligations.VmulMultipliesExactly :=
  fun s rd ra rb h => ⟨rfl, ends_of_capacity rfl (normalise_vmul (h ra) (h rb) ▸ writeValue_writes s rd _)⟩

/-- Settles O48: both commands test the divisor first. -/
theorem vdivAndVremTakeTheXorSign : Obligations.VdivAndVremTakeTheXorSign := by
  intro s rd ra rb h
  have quotient := ends_of_refusal (i := .vdiv rd ra rb) (s := s) rfl isZero_iff fun nonzero =>
    normalise_vquot (h ra) (h rb) nonzero ▸ writeValue_writes s rd _
  have remainder := ends_of_refusal (i := .vrem rd ra rb) (s := s) rfl isZero_iff fun nonzero =>
    normalise_vrem (h ra) (h rb) nonzero ▸ writeValue_writes s rd _
  refine ⟨⟨rfl, rfl⟩, ?_⟩
  by_cases zero : s.nat rb = 0
  · rw [if_pos zero]
    exact ⟨(if_pos zero).mp quotient, (if_pos zero).mp remainder⟩
  · rw [if_neg zero]
    exact ⟨(if_neg zero).mp quotient, (if_neg zero).mp remainder⟩

/-- Settles O49. -/
theorem vdivremWritesBoth : Obligations.VdivremWritesBoth := by
  intro s rd re ra rb h
  refine ⟨rfl, ?_⟩
  have ends := ends_vdivrem s rd re ra rb
  by_cases zero : s.nat rb = 0
  · simpa only [zero, if_true] using ends
  · rw [normalise_vquot (h ra) (h rb) zero, normalise_vrem (h ra) (h rb) zero] at ends
    exact ends

/-- Settles O51. -/
theorem vincIncrementsTheMagnitude : Obligations.VincIncrementsTheMagnitude := by
  intro s rd ra h
  refine ⟨rfl, ends_of_growth rfl (isFull_iff (h ra)) (fun full => ?_) (fun notFull => ?_)⟩
  · rw [incGrow_of_full (h ra) full]
    exact normalise_fromNat_succ _ ((Nat.succ_le_of_lt (h.nat_lt ra)).trans_lt (Nat.pow_lt_pow_succ (one_lt_radix _)))
  · rw [incGrow_of_not_full (h ra) notFull]
    exact normalise_fromNat_succ _ (Nat.lt_of_le_of_ne (h.nat_lt ra) notFull)

/-- Settles O52. -/
theorem vdecDecrementsTheMagnitude : Obligations.VdecDecrementsTheMagnitude := by
  intro s rd ra h
  refine ⟨rfl, ends_of_refusal rfl isZero_iff fun nonzero => ?_⟩
  have fits : s.nat ra - 1 < s.cfg.width.radix ^ s.len ra := (Nat.sub_le _ _).trans_lt (h.nat_lt ra)
  rw [dec_eq (h ra) (eq_false_of_ne_true (mt isZero_iff.1 nonzero)), ← normalise_fromNat _ fits]
  exact writeValue_writes s rd _

/-! ### The signed numbers after a command that succeeds (R163, R164, R169, R186) -/

section Success

variable {s t : State} {rd re ra rb : Reg}

theorem SucceededWith.num_eq {v : Option Value} {b : Bool} {c : BitVec 2} {regs : Reg → Value}
    (h : SucceededWith s t v b c regs) (r : Reg) : t.num r = sval s.cfg.width (regs r) := by
  obtain ⟨succ, -, -, hregs⟩ := h
  rw [State.num, succ.cfg, hregs]

theorem WroteBoth.num_eq {v u : Value} (h : WroteBoth s t rd (normalise v) re (normalise u)) :
    t.num = Function.update (Function.update s.num rd (sval s.cfg.width v)) re (sval s.cfg.width u) := by
  funext r
  rw [SucceededWith.num_eq h, Function.update_apply, Function.update_apply]
  split_ifs
  · exact sval_normalise _ _
  · exact sval_normalise _ _
  · rfl

/-- The registers of `t` are those of `s`, but that `rd` holds the number `z`, and they are sound if they were. -/
structure HoldsNumber (s t : State) (rd : Reg) (z : Int) : Prop where
  num : t.num = Function.update s.num rd z
  inRange : s.InRange → t.InRange
  normalised : s.Normalised → t.Normalised

theorem Wrote.holdsNumber {v : Value} (h : Wrote s t rd (normalise v)) (fit : digitsFit s.cfg.width v.mag = true) :
    HoldsNumber s t rd (sval s.cfg.width v) := by
  have num := SucceededWith.num_eq h
  obtain ⟨succ, -, -, regs⟩ := h
  refine ⟨funext fun r => ?_, fun range r => ?_, fun norm r => ?_⟩
  · rw [num, Function.update_apply]
    split_ifs
    · exact sval_normalise _ _
    · rfl
  · simp only [State.mag, succ.cfg, regs]
    split_ifs
    · rwa [normalise_mag]
    · exact range r
  · simp only [State.mag, regs]
    split_ifs
    · exact normalise_neg_of_isZero
    · exact norm r

theorem holdsNumber_after_vadd (h : s.InRange) (hx : exec (.vadd rd ra rb) s = .next t) (ok : t.err = 0#3) :
    HoldsNumber s t rd (s.num ra + s.num rb) := by
  have wrote : Wrote s t rd _ := wrote_of_growth rfl hx ok
  have holds := wrote.holdsNumber (digitsFit_vadd (h ra) (h rb))
  rwa [sval_vadd (h ra) (h rb)] at holds

theorem holdsNumber_after_vsub (h : s.InRange) (hx : exec (.vsub rd ra rb) s = .next t) (ok : t.err = 0#3) :
    HoldsNumber s t rd (s.num ra - s.num rb) := by
  have wrote : Wrote s t rd _ := wrote_of_growth rfl hx ok
  have flipped : digitsFit s.cfg.width (flipSign (s.reg rb)).mag = true := h rb
  have holds := wrote.holdsNumber (digitsFit_vadd (h ra) flipped)
  rwa [sval_vadd (h ra) flipped, sval_flipSign, ← sub_eq_add_neg] at holds

/-- `VEQ` compares the signed numbers (R181, R186). -/
theorem truth_after_veq (h : s.InRange) (norm : s.Normalised) (hx : exec (.veq ra rb) s = .next t) :
    t.truth = decide (s.num ra = s.num rb) := by
  have ends : Ends (.veq ra rb) s fun t => WroteTruth s t (vcmp (s.reg ra) (s.reg rb) == .eq) := writeTruth_writes s _
  obtain ⟨-, truth, -⟩ := ends.of_exec hx
  rw [truth, vcmp_eq (h ra) (h rb) (norm ra) (norm rb), Bool.eq_iff_iff, beq_iff_eq, compare_eq_iff_eq,
    decide_eq_true_iff]
  rfl

/-- `VDIVREM` that ends without error had different destinations and a divisor that is not zero (R169). -/
theorem num_after_vdivrem (hx : exec (.vdivrem rd re ra rb) s = .next t) (ok : t.err = 0#3) :
    s.nat rb ≠ 0 ∧ t.num rd = sval s.cfg.width (vquot s.cfg.width (s.reg ra) (s.reg rb)) ∧
      t.num re = sval s.cfg.width (vrem s.cfg.width (s.reg ra) (s.reg rb)) := by
  have ends := ends_vdivrem s rd re ra rb
  split at ends
  case isTrue => exact absurd ok (ends.not_raised hx)
  case isFalse differ =>
    obtain ⟨nonzero, wrote⟩ := of_success_of_requirement ends hx ok
    rw [wrote.num_eq]
    exact ⟨nonzero, by rw [Function.update_of_ne differ, Function.update_self], Function.update_self ..⟩

end Success

/-! ### The laws -/

/-- Settles O50: with different destinations both halves stand afterwards, and they obey the law. -/
theorem divisionLawUnderTheXorSign : Obligations.DivisionLawUnderTheXorSign := by
  intro s t rd re ra rb h _ hx ok
  obtain ⟨nonzero, quotient, remainder⟩ := num_after_vdivrem hx ok
  rw [quotient, remainder]
  exact ⟨sval_vquot_vrem (h ra) (h rb) nonzero, abs_vquot_vrem (h ra) (h rb) nonzero⟩

/-- Settles O53: the sum and the difference are exact, so `d` holds the number of `a`, and equal numbers compare
equal. -/
theorem subtractionUndoesAddition : Obligations.SubtractionUndoesAddition := by
  intro s t u v c d a b h norm hca hcb hda hadd okt hsub oku heq
  have sum := holdsNumber_after_vadd h hadd okt
  have difference := holdsNumber_after_vsub (sum.inRange h) hsub oku
  rw [truth_after_veq (difference.inRange (sum.inRange h)) (difference.normalised (sum.normalised norm)) heq,
    decide_eq_true_iff]
  calc u.num d = t.num c - t.num b := by rw [difference.num, Function.update_self]
    _ = s.num a + s.num b - s.num b := by rw [sum.num, Function.update_self, Function.update_of_ne hcb.symm]
    _ = s.num a := add_sub_cancel_right _ _
    _ = u.num a := by rw [difference.num, Function.update_of_ne hda.symm, sum.num, Function.update_of_ne hca.symm]

end Sys2Proof.Machine

/-! ## Value comparison, bitwise functions and shifts (45_value-compare-bitwise-shift R180 to R196) -/

namespace Sys2Proof.Machine

/-! ### How these commands end (R180, R190) -/

section Endings

variable {i : Instr} {s t : State}

/-- A test whose truth value decides `p` (R180). -/
theorem ends_of_test {b : Bool} {p : Prop} [Decidable p] (meaning : exec i s = writeTruth s b) (test : b = true ↔ p) :
    Ends i s fun t => WroteTruth s t (decide p) :=
  ends_of_writeTruth meaning (Bool.eq_iff_iff.2 (test.trans decide_eq_true_iff.symm))

theorem truth_of_writeTruth {b : Bool} (meaning : exec i s = writeTruth s b) (hx : exec i s = .next t) :
    t.truth = b := by
  obtain ⟨-, truth, -⟩ := (ends_of_writeTruth meaning rfl).of_exec hx
  exact truth

/-- A magnitude of `n` digits that holds `v` unreduced gets the sign of the first source, a zero none (R190). -/
theorem ends_of_signedLike {rd ra : Reg} {m : Digits} {n v : Nat} (meaning : exec i s = signedLike s rd ra m)
    (result : m = fromNat s.cfg.width n v) (fits : v < s.cfg.width.radix ^ n) :
    Ends i s fun t => Wrote s t rd (signedDigits s.cfg.width (s.reg ra).neg n v) := by
  subst result
  unfold Ends
  rw [meaning, ← normalise_fromNat _ fits]
  exact writeValue_writes s rd _

end Endings

/-! ### The order of two registers (R181) -/

section Order

variable {s : State} (h : s.InRange) (norm : s.Normalised) (ra rb : Reg)

include h norm

theorem vcmp_reg_eq : vcmp (s.reg ra) (s.reg rb) = compare (s.num ra) (s.num rb) :=
  vcmp_eq (h ra) (h rb) (norm ra) (norm rb)

theorem vcmp_reg_eq_lt : vcmp (s.reg ra) (s.reg rb) = .lt ↔ s.num ra < s.num rb := by
  rw [vcmp_reg_eq h norm, compare_lt_iff_lt]

theorem vcmp_reg_eq_gt : vcmp (s.reg ra) (s.reg rb) = .gt ↔ s.num rb < s.num ra := by
  rw [vcmp_reg_eq h norm, compare_gt_iff_gt]

theorem vcmp_reg_eq_eq : vcmp (s.reg ra) (s.reg rb) = .eq ↔ s.num ra = s.num rb := by
  rw [vcmp_reg_eq h norm, compare_eq_iff_eq]

end Order

/-- A comparison has one of three outcomes (R189). -/
theorem ordering_exactly_one (o : Ordering) : (o == .lt).toNat + (o == .eq).toNat + (o == .gt).toNat = 1 := by
  cases o <;> rfl

/-- A bitwise function of two registers fits the digits of the longer of them (R107). -/
theorem State.InRange.bitByBit_lt {s : State} (h : s.InRange) {f : Nat → Nat → Nat} (hf : BitByBit f) (ra rb : Reg) :
    f (s.nat ra) (s.nat rb) < s.cfg.width.radix ^ max (s.len ra) (s.len rb) := by
  have ha : s.nat ra < s.cfg.width.radix ^ max (s.len ra) (s.len rb) :=
    (h.nat_lt ra).trans_le (Nat.pow_le_pow_right (radix_pos _) (le_max_left _ _))
  have hb : s.nat rb < s.cfg.width.radix ^ max (s.len ra) (s.len rb) :=
    (h.nat_lt rb).trans_le (Nat.pow_le_pow_right (radix_pos _) (le_max_right _ _))
  rw [radix_pow] at ha hb ⊢
  exact hf.lt ha hb

/-! ### The obligations -/

/-- Settles O54: each comparison asks for one outcome of `vcmp`, or for the two others. -/
theorem comparisonsOrderSignedNumbers : Obligations.ComparisonsOrderSignedNumbers := by
  intro s ra rb h norm
  have lt := vcmp_reg_eq_lt h norm ra rb
  have gt := vcmp_reg_eq_gt h norm ra rb
  have eq := vcmp_reg_eq_eq h norm ra rb
  exact ⟨⟨rfl, rfl, rfl, rfl, rfl, rfl⟩, ends_of_test rfl (beq_iff_eq.trans lt), ends_of_test rfl (beq_iff_eq.trans gt),
    ends_of_test rfl (bne_iff_ne.trans (gt.not.trans not_lt)), ends_of_test rfl (bne_iff_ne.trans (lt.not.trans not_lt)),
    ends_of_test rfl (beq_iff_eq.trans eq), ends_of_test rfl (bne_iff_ne.trans eq.not)⟩

/-- Settles O55. -/
theorem vboolTestsForNonzero : Obligations.VboolTestsForNonzero := by
  intro s ra
  have nonzero : (!isZero (s.mag ra)) = true ↔ s.nat ra ≠ 0 := by
    rw [Bool.not_eq_true', ← Bool.not_eq_true, State.nat, isZero_iff (w := s.cfg.width)]
  exact ⟨rfl, ends_of_test rfl nonzero⟩

/-- Settles O56: the three commands ask for the three outcomes of the same `vcmp`. -/
theorem comparisonIsTotal : Obligations.ComparisonIsTotal := by
  intro s t u v ra rb hlt heq hgt
  rw [truth_of_writeTruth rfl hlt, truth_of_writeTruth rfl heq, truth_of_writeTruth rfl hgt]
  exact ordering_exactly_one (vcmp (s.reg ra) (s.reg rb))

/-- Settles O57: the value of the result decides whether it is a zero, for it fits its digits. -/
theorem valueBitwiseKeepsTheFirstSign : Obligations.ValueBitwiseKeepsTheFirstSign := by
  intro s rd ra rb h
  have inverse_lt : s.cfg.width.radix ^ s.len ra - 1 - s.nat ra < s.cfg.width.radix ^ s.len ra := by
    have := h.nat_lt ra
    omega
  exact ⟨⟨rfl, rfl, rfl, rfl⟩,
    ends_of_signedLike rfl (bitop_eq land_bitByBit (h ra) (h rb)) (h.bitByBit_lt land_bitByBit ra rb),
    ends_of_signedLike rfl (bitop_eq lor_bitByBit (h ra) (h rb)) (h.bitByBit_lt lor_bitByBit ra rb),
    ends_of_signedLike rfl (bitop_eq xor_bitByBit (h ra) (h rb)) (h.bitByBit_lt xor_bitByBit ra rb),
    ends_of_signedLike rfl (bitnot_eq (h ra)) inverse_lt⟩

/-- Settles O58: what a left shift loses at the top is the value's part above `2^(W * la)`; a right shift makes no value
greater. -/
theorem valueShiftsKeepTheSign : Obligations.ValueShiftsKeepTheSign := by
  intro s rd ra imm h
  have left_lt : s.nat ra * 2 ^ imm.toNat % 2 ^ (s.cfg.width.bits * s.len ra) < s.cfg.width.radix ^ s.len ra := by
    rw [radix_pow]
    exact Nat.mod_lt _ (Nat.two_pow_pos _)
  have right_lt : s.nat ra / 2 ^ imm.toNat < s.cfg.width.radix ^ s.len ra :=
    (Nat.div_le_self _ _).trans_lt (h.nat_lt ra)
  exact ⟨⟨rfl, rfl⟩,
    ends_of_signedLike rfl ((shl_eq _ _ _).trans (fromNat_mod_buffer _ _).symm) left_lt,
    ends_of_signedLike rfl (shr_eq (h ra) _) right_lt⟩

end Sys2Proof.Machine

/-! ## Exceptions: a command that fails writes nothing, and nothing changes without an input (60_exceptions R225, R232) -/

namespace Sys2Proof.Machine

/-- Issuing a command that leaves a code in `ERR` is the error entry (R226): a success would have cleared `ERR` (R28). -/
theorem issue_raised_of_err_ne_zero {c : Command} {s t : State} (h : s.issue c = .next t) (failed : t.err ≠ 0#3) :
    ∃ e, Raised s t e := by
  obtain raised | ⟨i, v, b, k, regs, -, ⟨succ, -⟩, -⟩ := issue_raised_or_succeeded h
  · exact raised
  · exact absurd succ.err failed

/-- Settles O16, by the error entry, which keeps every register, `T` and `CMP`. -/
theorem failedCommandsWriteNothing : Obligations.FailedCommandsWriteNothing := by
  intro c s t h failed
  obtain ⟨e, raised⟩ := issue_raised_of_err_ne_zero h failed
  exact ⟨raised.regs, raised.truth, raised.cmp⟩

/-- Settles O10. -/
theorem withoutInputNothingChanges : Obligations.WithoutInputNothingChanges :=
  fun _ h => step_of_no_input h

end Sys2Proof.Machine

/-! ## Reset and hazards: the reset event, and a division with one destination (70_reset_and_hazards R245, R251) -/

namespace Sys2Proof

/-- What step 5 of R61 adds to `decode_encode`: no premise on `count`, for only format R4 has two destinations. -/
theorem decode_encode_of_same_destinations {i : Instr} (same : i.destsDiffer = false) :
    decode (encode i) = .error .sameDestinations := by
  unfold encode decode
  cases i
  case pdivrem | vdivrem =>
    rw [encodeWord, opcodeOf_wordR4]
    exact (formatR4_wordR4 _ _ _ _ _ _).trans (if_pos (not_not.1 (of_decide_eq_false same)))
  all_goals cases same

end Sys2Proof

namespace Sys2Proof.Machine

/-- Issuing what the decoder rejects is the error entry of `IllegalCommand`, for any of its reasons (R61, R223). -/
theorem issue_raises_of_reject {s : State} {c : Command} {r : Reject} (h : decode c = .error r) :
    ∃ t, s.issue c = .next t ∧ Raised s t .illegalCommand := by
  rw [issue_of_reject h]
  exact fail_raises s _

/-- Settles O8: the step is the reset event on the state with that input taken. -/
theorem resetEventClearsTheMachine : Obligations.ResetEventClearsTheMachine := by
  intro s rest h
  exact ⟨_, step_of_reset h, State.resetEvent_reg _, State.resetEvent_status _, State.resetEvent_response _,
    State.resetEvent_cfg _, State.resetEvent_pending _⟩

/-- Settles O39: the decoder finds the two destinations equal, and its rejection is the error entry. -/
theorem sameDestinationsAreIllegal : Obligations.SameDestinationsAreIllegal := by
  intro s rd ra rb
  have pdivrem : decode (encode (.pdivrem rd rd ra rb)) = .error .sameDestinations :=
    decode_encode_of_same_destinations (decide_eq_false (not_not.2 rfl))
  have vdivrem : decode (encode (.vdivrem rd rd ra rb)) = .error .sameDestinations :=
    decode_encode_of_same_destinations (decide_eq_false (not_not.2 rfl))
  exact ⟨pdivrem, vdivrem, issue_raises_of_reject pdivrem, issue_raises_of_reject vdivrem⟩

end Sys2Proof.Machine
